-- ==== Sys2Proof/Word.lean ====
section
/-! DEFINITION. The words the block moves: bytes of bank content and records, and 32-bit command words.
Bit 0 is the least significant bit (00_scope.md R15); nothing is signed (R16). -/

namespace Sys2Proof

/-- One byte of bank content, of a record, or of an I/O latch (20_memory.md R83). -/
abbrev Byte := BitVec 8

/-- One command word (30_encoding.md R110). -/
abbrev Word := BitVec 32

end Sys2Proof
end

