-- ==== Sys2Proof/Config.lean ====
section
/-! DEFINITION. What is fixed for the block: the constants of 00_scope.md R9, the four bank slots (10_state.md R40)
and the five EEPROM device types (00_scope.md R12). The spec leaves no value open, so there is no free value here. -/

namespace Sys2Proof

/-- The four bank slots (10_state.md R40): logical bank 0 is `b0` and its alternate image `b0a`, logical bank 1 is
`b1` and `b1a`. -/
inductive SlotId where
  | b0
  | b1
  | b0a
  | b1a
deriving DecidableEq, Repr

/-- The five EEPROM device types (00_scope.md R2, R12). NONE is the absence of a device: `Option Device`. -/
inductive Device where
  | c46
  | c56
  | c66
  | c76
  | c86
deriving DecidableEq, Repr

namespace Config

/-- FILL: the byte an access to an empty bank returns (R9, 10_state.md R43). -/
abbrev fill : Byte := 0xFF#8

/-- BUSY_TICKS: TICK_BUSY calls from the start of a programming cycle to ready (R9). -/
abbrev busyTicks : Nat := 100

/-- CELL_CAP: the capacity of EEPROM storage in 16-bit cells (R9). -/
abbrev cellCap : Nat := 1024

/-- The shadow RAM is 256 pages of SHADOW_PAGE = 256 = 2^8 bytes (R9, 10_state.md R48). -/
abbrev shadowShift : Fin 16 := 8

/-- CS_BIT: the counter bit read as EEPROM chip select (R9). -/
abbrev csBit : Nat := 7

/-- CLK_BIT: the counter bit read as EEPROM clock (R9). -/
abbrev clkBit : Nat := 1

/-- DI_BIT: the bit of the I/O latches read as EEPROM data in (R9). -/
abbrev diBit : Nat := 4

end Config

end Sys2Proof
end

