-- ==== Sys2Proof/Syntax.lean ====
section
/-! DEFINITION. The operations of the block, one constructor per row of spec/opcode_table.json (30_encoding.md R117).
The operands are the fields of the command word (R112 to R116). Operands too large for a word (the content bytes of
CONFIGURE_BANK, the record bytes of LOAD_STATE and LOAD_EEPROM) travel beside the word (R111): they are in the command
the sequence holds (Machine/State.lean), not here. -/

namespace Sys2Proof

/-- One operation with the fields of its command word (30_encoding.md R112, R117). -/
inductive Instr where
  /-- READ b (40_bank_engine.md R148). -/
  | read (b : SlotId)
  /-- PEEK b (40_bank_engine.md R150). -/
  | peek (b : SlotId)
  /-- WRITE b, v (40_bank_engine.md R152). -/
  | write (b : SlotId) (v : Byte)
  /-- STROBE l (40_bank_engine.md R160). -/
  | strobe (l : Bool)
  /-- SET_BIT l (40_bank_engine.md R166). -/
  | setBit (l : Bool)
  /-- SET_IO dir, dat (41_eeprom.md R183). -/
  | setIo (dir : Byte) (dat : Byte)
  /-- TICK_BUSY (41_eeprom.md R200). -/
  | tickBusy
  /-- READ_OUTPUT (41_eeprom.md R202). -/
  | readOutput
  /-- NOTIFY_COUNTER c, internal (41_eeprom.md R186, 30_encoding.md R119). -/
  | notifyCounter (c : BitVec 16)
  /-- CLEAR_DIRTY_BANK1 (42_persistence_and_control.md R260). -/
  | clearDirtyBank1
  /-- CLEAR_DIRTY_EEPROM (42_persistence_and_control.md R261). -/
  | clearDirtyEeprom
  /-- QUERY_DIRTY_BANK1 (42_persistence_and_control.md R262). -/
  | queryDirtyBank1
  /-- QUERY_DIRTY_EEPROM (42_persistence_and_control.md R263). -/
  | queryDirtyEeprom
  /-- SOFT_RESET (42_persistence_and_control.md R270). -/
  | softReset
  /-- CONFIGURE_BANK cb, ps, ram, shadow, we (40_bank_engine.md R141). -/
  | configureBank (cb : SlotId) (ps : BitVec 16) (ram : Bool) (shadow : Bool) (we : Bool)
  /-- CONFIGURE_EEPROM type, e8 (41_eeprom.md R181); `none` is the type NONE (30_encoding.md R116). -/
  | configureEeprom (type : Option Device) (e8 : Bool)
  /-- SAVE_STATE (42_persistence_and_control.md R250). -/
  | saveState
  /-- LOAD_STATE (42_persistence_and_control.md R252). -/
  | loadState
  /-- SAVE_EEPROM (42_persistence_and_control.md R254). -/
  | saveEeprom
  /-- LOAD_EEPROM (42_persistence_and_control.md R255). -/
  | loadEeprom
deriving DecidableEq, Repr

end Sys2Proof
end

