-- ==== Sys2Proof/WellFormed.lean ====
section
/-! DEFINITION. The one check on an operation's fields that its types do not make already (30_encoding.md R116, R118):
`e8 = 1` with device type NONE is reserved. Page sizes and flags of CONFIGURE_BANK are not checked here: its word is
admitted by the decoder, and the operation itself refuses an inadmissible configuration (40_bank_engine.md R142). -/

namespace Sys2Proof

/-- The fields of the operation are ones the encoding admits (30_encoding.md R116, R118). -/
def Instr.wellFormed : Instr → Bool
  | .configureEeprom none e8 => !e8
  | .configureEeprom (some _) _ => true
  | .read _ | .peek _ | .write _ _ | .strobe _ | .setBit _ | .setIo _ _ | .tickBusy | .readOutput
  | .notifyCounter _ | .clearDirtyBank1 | .clearDirtyEeprom | .queryDirtyBank1 | .queryDirtyEeprom
  | .softReset | .configureBank _ _ _ _ _ | .saveState | .loadState | .saveEeprom | .loadEeprom => true

end Sys2Proof
end

