-- ==== Sys2Proof/Decode.lean ====
section
/-! DEFINITION. The decoder and the encoder of command words (30_encoding.md R110 to R122, opcode_table.json).
A decoder compares `w & mask == match` for each row and then applies the value checks of R118 (R121); a word no row
matches, or that fails a value check, is reserved: the decoder answers `none`, and the step refuses it as
ReservedEncoding. The encoding is the spec's own choice (92_eei_decisions.md D43), no fact about the original. -/

namespace Sys2Proof

/-- The slot a 2-bit selector names (30_encoding.md R113). -/
def SlotId.ofSelector (b : BitVec 2) : SlotId :=
  if b = 0b00#2 then .b0 else if b = 0b01#2 then .b1 else if b = 0b10#2 then .b0a else .b1a

/-- The 2-bit selector of a slot (30_encoding.md R113). -/
def SlotId.selector : SlotId → BitVec 2
  | .b0 => 0b00#2
  | .b1 => 0b01#2
  | .b0a => 0b10#2
  | .b1a => 0b11#2

/-- The device-type field's value: the outer `none` is a reserved value, 6 or 7 (30_encoding.md R116). -/
def deviceOfCode (t : BitVec 3) : Option (Option Device) :=
  if t = 0#3 then some none
  else if t = 1#3 then some (some .c46)
  else if t = 2#3 then some (some .c56)
  else if t = 3#3 then some (some .c66)
  else if t = 4#3 then some (some .c76)
  else if t = 5#3 then some (some .c86)
  else none

/-- The code of a device type (30_encoding.md R116). -/
def deviceCode : Option Device → BitVec 3
  | none => 0#3
  | some .c46 => 1#3
  | some .c56 => 2#3
  | some .c66 => 3#3
  | some .c76 => 4#3
  | some .c86 => 5#3

/-- A level or flag as the bit the word holds (30_encoding.md R114). -/
def levelBit (l : Bool) : Word := (BitVec.ofBool l).zeroExtend 32

/-- The CONFIGURE_EEPROM operation of a type field and an 8-bit-mode flag, with the value checks of R118. -/
def configureEepromOf (t : BitVec 3) (e8 : Bool) : Option Instr :=
  match deviceOfCode t with
  | none => none
  | some d => if (Instr.configureEeprom d e8).wellFormed then some (.configureEeprom d e8) else none

/-- One row of opcode_table.json: the word matches the row when `w & mask = bits`; `operands` reads the fields of the
row's format (30_encoding.md R112) and applies the row's value checks. -/
structure OpcodeRow where
  mnemonic : String
  bits : Word
  mask : Word
  operands : Word → Option Instr

/-- The comparison of 30_encoding.md R121. -/
def OpcodeRow.matchesWord (r : OpcodeRow) (w : Word) : Bool := w &&& r.mask == r.bits

/-- The rows with fields: formats BK, LV, IO, CN, CB and CE (30_encoding.md R112). -/
def fieldRows : List OpcodeRow :=
  [ ⟨"READ", 0x10000000#32, 0xFFFFFCFF#32, fun w => some (.read (.ofSelector (w.extractLsb' 8 2)))⟩,
    ⟨"PEEK", 0x20000000#32, 0xFFFFFCFF#32, fun w => some (.peek (.ofSelector (w.extractLsb' 8 2)))⟩,
    ⟨"WRITE", 0x30000000#32, 0xFFFFFC00#32,
      fun w => some (.write (.ofSelector (w.extractLsb' 8 2)) (w.extractLsb' 0 8))⟩,
    ⟨"STROBE", 0x40000000#32, 0xFFFFFFFE#32, fun w => some (.strobe (w.getLsbD 0))⟩,
    ⟨"SET_BIT", 0x50000000#32, 0xFFFFFFFE#32, fun w => some (.setBit (w.getLsbD 0))⟩,
    ⟨"SET_IO", 0x60000000#32, 0xFFFF0000#32, fun w => some (.setIo (w.extractLsb' 8 8) (w.extractLsb' 0 8))⟩,
    ⟨"NOTIFY_COUNTER", 0x90000000#32, 0xFFFF0000#32, fun w => some (.notifyCounter (w.extractLsb' 0 16))⟩,
    ⟨"CONFIGURE_BANK", 0xC0000000#32, 0xFFE00000#32,
      fun w => some (.configureBank (.ofSelector (w.extractLsb' 16 2)) (w.extractLsb' 0 16)
        (w.getLsbD 18) (w.getLsbD 19) (w.getLsbD 20))⟩,
    ⟨"CONFIGURE_EEPROM", 0xD0000000#32, 0xFFFFFFF0#32,
      fun w => configureEepromOf (w.extractLsb' 0 3) (w.getLsbD 3)⟩ ]

/-- The rows without fields: formats N and SB, whose sub-code is part of the match (30_encoding.md R112, R117). -/
def plainRows : List OpcodeRow :=
  [ ⟨"TICK_BUSY", 0x70000000#32, 0xFFFFFFFF#32, fun _ => some .tickBusy⟩,
    ⟨"READ_OUTPUT", 0x80000000#32, 0xFFFFFFFF#32, fun _ => some .readOutput⟩,
    ⟨"CLEAR_DIRTY_BANK1", 0xA0000000#32, 0xFFFFFFFF#32, fun _ => some .clearDirtyBank1⟩,
    ⟨"CLEAR_DIRTY_EEPROM", 0xA0000001#32, 0xFFFFFFFF#32, fun _ => some .clearDirtyEeprom⟩,
    ⟨"QUERY_DIRTY_BANK1", 0xA0000002#32, 0xFFFFFFFF#32, fun _ => some .queryDirtyBank1⟩,
    ⟨"QUERY_DIRTY_EEPROM", 0xA0000003#32, 0xFFFFFFFF#32, fun _ => some .queryDirtyEeprom⟩,
    ⟨"SOFT_RESET", 0xB0000000#32, 0xFFFFFFFF#32, fun _ => some .softReset⟩,
    ⟨"SAVE_STATE", 0xE0000000#32, 0xFFFFFFFF#32, fun _ => some .saveState⟩,
    ⟨"LOAD_STATE", 0xE0000001#32, 0xFFFFFFFF#32, fun _ => some .loadState⟩,
    ⟨"SAVE_EEPROM", 0xE0000002#32, 0xFFFFFFFF#32, fun _ => some .saveEeprom⟩,
    ⟨"LOAD_EEPROM", 0xE0000003#32, 0xFFFFFFFF#32, fun _ => some .loadEeprom⟩ ]

/-- The opcode table (30_encoding.md R117, opcode_table.json). -/
def opcodeRows : List OpcodeRow := fieldRows ++ plainRows

/-- The decoder (30_encoding.md R121): total on every 32-bit word; `none` is a reserved word (R118). -/
def decode (w : Word) : Option Instr :=
  match opcodeRows.find? (·.matchesWord w) with
  | none => none
  | some r => r.operands w

/-- The command word of an operation (30_encoding.md R122). -/
def encode : Instr → Word
  | .read b => 0x10000000#32 ||| (b.selector.zeroExtend 32 <<< 8)
  | .peek b => 0x20000000#32 ||| (b.selector.zeroExtend 32 <<< 8)
  | .write b v => 0x30000000#32 ||| (b.selector.zeroExtend 32 <<< 8) ||| v.zeroExtend 32
  | .strobe l => 0x40000000#32 ||| levelBit l
  | .setBit l => 0x50000000#32 ||| levelBit l
  | .setIo dir dat => 0x60000000#32 ||| (dir.zeroExtend 32 <<< 8) ||| dat.zeroExtend 32
  | .tickBusy => 0x70000000#32
  | .readOutput => 0x80000000#32
  | .notifyCounter c => 0x90000000#32 ||| c.zeroExtend 32
  | .clearDirtyBank1 => 0xA0000000#32
  | .clearDirtyEeprom => 0xA0000001#32
  | .queryDirtyBank1 => 0xA0000002#32
  | .queryDirtyEeprom => 0xA0000003#32
  | .softReset => 0xB0000000#32
  | .configureBank cb ps ram shadow we =>
      0xC0000000#32 ||| (levelBit we <<< 20) ||| (levelBit shadow <<< 19) ||| (levelBit ram <<< 18)
        ||| (cb.selector.zeroExtend 32 <<< 16) ||| ps.zeroExtend 32
  | .configureEeprom d e8 => 0xD0000000#32 ||| (levelBit e8 <<< 3) ||| (deviceCode d).zeroExtend 32
  | .saveState => 0xE0000000#32
  | .loadState => 0xE0000001#32
  | .saveEeprom => 0xE0000002#32
  | .loadEeprom => 0xE0000003#32

/-- What the decoder reads from an instruction of `nbits` bits whose bits are `w`, numbered as opcode_table.json numbers
them. A command is one 32-bit word (30_encoding.md R110), so bits above bit 31 belong to no command. -/
def decodeTableWord (nbits w : Nat) : Option Instr :=
  if w % 2 ^ nbits < 2 ^ 32 then decode (BitVec.ofNat 32 (w % 2 ^ nbits)) else none

end Sys2Proof
end

