-- ==== Sys2Proof/Machine/State.lean ====
section
/-! DEFINITION. The state of the block as plain data: the address engine (10_state.md section 2), the bank slots
(section 3), the EEPROM (section 4), and the sequence of operations still to be issued with the result of the last one.
Every field and its reset value is listed in INVENTORY.md under State. -/

namespace Sys2Proof.Machine

/-- The content of an address space of `w`-bit units: (address, value) pairs, addresses strictly rising, no value equal
to all-ones, which is what an unlisted address reads as. A memory of bytes is a list of `Host.Cell`. DEDUCED (safe): in a
configured slot every byte is given by its data (10_state.md R42), so an unlisted byte is one that was given as 0xFF;
an erased cell is all-ones (00_scope.md R9). Log entry 8. -/
abbrev Memory (w : Nat) := List (Nat × BitVec w)

/-- The page size of a slot, which fixes its geometry (10_state.md R41): 0, the empty slot, or a power of two
`2^shiftBits` with `shiftBits <= 15` (00_scope.md R11). Log entry 13. -/
inductive Geometry where
  | empty
  | pages (shiftBits : Fin 16)
deriving DecidableEq, Repr

/-- One bank slot: its geometry and its content (10_state.md R41, R42). -/
structure Slot where
  geometry : Geometry
  content : Memory 8
deriving DecidableEq, Repr

/-- The four registers of the address engine, shared by all slots (10_state.md R32 to R36). -/
structure AddressRegs where
  /-- `shift_value` (R32). -/
  shiftValue : BitVec 8
  /-- `page_offset` (R33). -/
  pageOffset : BitVec 11
  /-- `strobe_level` (R34). -/
  strobeLevel : Bool
  /-- `bit_level` (R35). -/
  bitLevel : Bool
deriving DecidableEq, Repr

/-- The four bank slots (10_state.md R40) and the attributes of slot B1 (R45 to R47, 00_scope.md R10). -/
structure Banks where
  b0 : Slot
  b1 : Slot
  b0a : Slot
  b1a : Slot
  /-- `is_ram` of B1 (R45). -/
  isRam : Bool
  /-- `write_enabled` of B1 (R46). -/
  writeEnabled : Bool
  /-- The shadow flag of B1, a configuration parameter (00_scope.md R10). No rule reads it. Its reset value is log
  entry 10. -/
  shadow : Bool
  /-- `dirty` of B1 (R47). -/
  dirty : Bool
deriving DecidableEq, Repr

/-- `protocol_state` (10_state.md R58). BUSY is not a value of the register (90_conflicts.md C5). -/
inductive ProtocolState where
  | idle
  | address
  | data
  | wait
deriving DecidableEq, Repr

/-- A fitted EEPROM: its configuration (10_state.md R57) and its registers (R58 to R69). -/
structure Eeprom where
  /-- `device_type`, other than NONE (R57). -/
  device : Device
  /-- `eight_bit` (R57). -/
  eightBit : Bool
  /-- `protocol_state` (R58). -/
  protocolState : ProtocolState
  /-- `shift_accumulator` (R59). -/
  shiftAccumulator : BitVec 32
  /-- `selected_address` (R60). -/
  selectedAddress : BitVec 16
  /-- `pending_read_value` (R61). -/
  pendingReadValue : BitVec 16
  /-- `storage`, 16-bit cells (R62). -/
  storage : Memory 16
  /-- `write_protected` (R63). -/
  writeProtected : Bool
  /-- `is_dirty` (R64). -/
  isDirty : Bool
  /-- `in_programming_cycle` (R65). -/
  inProgrammingCycle : Bool
  /-- `busy_counter`, 0 to 100 (R66). -/
  busyCounter : Fin 101
  /-- `last_cs` (R67). -/
  lastCs : Bool
  /-- `last_clk` (R67). -/
  lastClk : Bool
  /-- `output_bit` (R68). -/
  outputBit : Bool
  /-- `iodir` (R69). -/
  iodir : Byte
  /-- `iodat` (R69). -/
  iodat : Byte
deriving DecidableEq, Repr

/-- Who issues an operation: the three agents of 00_scope.md R8, and the component-level harness of 30_encoding.md R119,
which applies the notification directly and is no agent of a block-level program (log entry 4). -/
inductive Agent where
  | mutator
  | observer
  | host
  | harness
deriving DecidableEq, Repr

/-- One operation as it is issued: its agent (60_exceptions.md R290), its command word (30_encoding.md R110) and the
operand bytes that travel beside the word (R111; empty for an operation without them). -/
structure Command where
  agent : Agent
  word : Word
  operand : List Byte
deriving DecidableEq, Repr

/-- What an operation gives back to its caller (30_encoding.md R111). -/
inductive Result where
  | nothing
  | byte (v : Byte)
  | bit (b : Bool)
  | bytes (bs : List Byte)
deriving DecidableEq, Repr

/-- The block (00_scope.md R1) with the operations still to be issued to it. -/
structure State where
  /-- The address engine's registers (10_state.md section 2). -/
  regs : AddressRegs
  /-- The bank slots (10_state.md section 3). -/
  banks : Banks
  /-- The EEPROM: `none` when `device_type` is NONE, and then its registers do not exist (10_state.md R56). -/
  eeprom : Option Eeprom
  /-- The result of the latest operation: the model's own field (00_scope.md R17, log entry 3). -/
  result : Result
  /-- The rest of the operation sequence, next operation first (10_state.md R31, log entry 1). -/
  pending : List Command
  /-- The index of the next operation in the sequence (10_state.md R31, log entry 1). -/
  position : Nat
deriving DecidableEq, Repr

/-- Why the machine stops. The block itself raises no exception (60_exceptions.md R280), so no meaning of an operation
answers with a fault. -/
inductive Fault where
  /-- Raised by the step alone, when the sequence has no next operation (10_state.md R31: a program is a finite
  sequence). DESIGN CHOICE, safe: the run stops where the spec has no transition. Log entry 2. -/
  | endOfProgram
deriving DecidableEq, Repr

/-- Why there is no transition for an operation (00_scope.md R18, 60_exceptions.md R285). The state is unchanged and no
later operation runs. Every one is safe: it errs toward unprovable. -/
inductive Refusal where
  /-- Raised by a dispatch arm whose operation has no meaning yet; safe. No arm does in this model. -/
  | notModelled (mnemonic : String)
  /-- Raised by the step for a word the decoder rejects (30_encoding.md R118); safe. -/
  | reservedEncoding
  /-- Raised by the step for a NOTIFY_COUNTER word issued by an agent of a block-level program (30_encoding.md R119);
  safe. -/
  | internalOperation
  /-- Raised by CONFIGURE_BANK for an inadmissible configuration (40_bank_engine.md R142); safe. -/
  | configInvalid
  /-- Raised by LOAD_STATE and LOAD_EEPROM for a malformed record (42_persistence_and_control.md R247, R255); safe. -/
  | recordInvalid
  /-- Raised by the step when the observer issues any operation but PEEK (60_exceptions.md R290); safe. -/
  | observerEffect
  /-- Raised by the step when the mutator, the host or the harness issues an operation outside its row of
  60_exceptions.md R290. DEDUCED, safe: 92_eei_decisions.md D2 says such an operation has no transition, and the list
  of R285 has no name for it. Log entry 5. -/
  | agentRestricted
deriving DecidableEq, Repr

/-- An empty slot (10_state.md R43, R50). -/
def Slot.unconfigured : Slot := { geometry := .empty, content := [] }

/-- The block before any operation (70_reset_and_hazards.md R310, 10_state.md R75). `shadow` is log entry 10; `result`,
`pending` and `position` are the model's own start of a sequence (log entries 1 and 3). -/
def State.reset : State where
  regs := { shiftValue := 0#8, pageOffset := 0#11, strobeLevel := false, bitLevel := false }
  banks := { b0 := .unconfigured, b1 := .unconfigured, b0a := .unconfigured, b1a := .unconfigured,
             isRam := false, writeEnabled := false, shadow := false, dirty := false }
  eeprom := none
  result := .nothing
  pending := []
  position := 0

end Sys2Proof.Machine
end

