-- ==== Sys2Proof/Machine/Ops.lean ====
section
/-! DEFINITION. The named operations over memory, slots and the state that the meanings share, and the boundary check
on who may issue an operation. There is no exception entry or return to share: the block raises no exception, saves no
state and has no handler address (60_exceptions.md R280, R283, R284). -/

namespace Sys2Proof.Machine

/-! ### Memory -/

/-- The unit at address `a`; an unlisted address reads as all-ones. -/
def Memory.read {w : Nat} : Memory w → Nat → BitVec w
  | [], _ => BitVec.allOnes w
  | (b, x) :: m, a => if b = a then x else Memory.read m a

/-- The cell list of one value at one address: nothing for all-ones, which an unlisted address reads as. -/
def Memory.single {w : Nat} (a : Nat) (v : BitVec w) (m : Memory w) : Memory w :=
  if v = BitVec.allOnes w then m else (a, v) :: m

/-- Write the unit at address `a`, keeping the canonical form. -/
def Memory.write {w : Nat} : Memory w → Nat → BitVec w → Memory w
  | [], a, v => Memory.single a v []
  | (b, x) :: m, a, v =>
    if a < b then Memory.single a v ((b, x) :: m)
    else if a = b then Memory.single a v m
    else (b, x) :: Memory.write m a v

/-- The memory that holds the values of the list at addresses `a`, `a + 1`, ... -/
def Memory.ofValues {w : Nat} : Nat → List (BitVec w) → Memory w
  | _, [] => []
  | a, v :: vs => Memory.single a v (Memory.ofValues (a + 1) vs)

/-- Replace the units at addresses `0 .. vs.length - 1` by the values of the list and keep all others. -/
def Memory.restore {w : Nat} (m : Memory w) (vs : List (BitVec w)) : Memory w :=
  Memory.ofValues 0 vs ++ m.filter (fun c => decide (vs.length ≤ c.1))

/-- The canonical form: addresses strictly rising, no value all-ones. -/
def Memory.wf {w : Nat} : Memory w → Bool
  | [] => true
  | (a, v) :: m => v != BitVec.allOnes w && m.all (fun c => decide (a < c.1)) && Memory.wf m

/-- Every listed address is below `n`: all units from `n` on read as all-ones. -/
def Memory.below {w : Nat} (n : Nat) (m : Memory w) : Bool := m.all (fun c => decide (c.1 < n))

/-! ### Slots -/

/-- The slot a selector names (10_state.md R40). -/
def Banks.slot (b : Banks) : SlotId → Slot
  | .b0 => b.b0
  | .b1 => b.b1
  | .b0a => b.b0a
  | .b1a => b.b1a

/-- Replace one slot; the attributes of B1 and the other slots are kept. -/
def Banks.setSlot (b : Banks) (k : SlotId) (v : Slot) : Banks :=
  match k with
  | .b0 => { b with b0 := v }
  | .b1 => { b with b1 := v }
  | .b0a => { b with b0a := v }
  | .b1a => { b with b1a := v }

/-! ### State -/

/-- Complete an operation that gives `r` back to its caller (00_scope.md R17, 30_encoding.md R111). -/
def State.returning (s : State) (r : Result) : State := { s with result := r }

/-- The operand bytes that travel beside the word of the operation being issued (30_encoding.md R111). -/
def State.operand (s : State) : List Byte :=
  match s.pending with
  | [] => []
  | c :: _ => c.operand

/-- Every operation advances the position in the sequence by one (10_state.md R31). -/
def State.advancePosition (s : State) : State :=
  { s with pending := s.pending.tail, position := s.position + 1 }

/-- `eeprom_present` (10_state.md R56). -/
def State.eepromPresent (s : State) : Bool := s.eeprom.isSome

/-- Change the EEPROM, when one is fitted (41_eeprom.md R182). -/
def State.mapEeprom (s : State) (f : Eeprom → Eeprom) : State := { s with eeprom := s.eeprom.map f }

/-! ### Agents -/

/-- Who may issue an operation (60_exceptions.md R290); the harness applies the notification alone (30_encoding.md R119,
log entry 4). The first of them stands for the operation where one word is placed for the next step (log entry 16). -/
def issuersOf : Instr → List Agent
  | .read _ | .write _ _ | .strobe _ | .setBit _ | .setIo _ _ | .tickBusy | .readOutput => [.mutator]
  | .peek _ => [.mutator, .observer, .host]
  | .configureBank _ _ _ _ _ | .configureEeprom _ _ | .softReset | .saveState | .loadState | .saveEeprom
  | .loadEeprom | .clearDirtyBank1 | .clearDirtyEeprom | .queryDirtyBank1 | .queryDirtyEeprom => [.host]
  | .notifyCounter _ => [.harness]

/-- The agent may issue the operation (60_exceptions.md R290). -/
def Agent.mayIssue (a : Agent) (i : Instr) : Bool := (issuersOf i).contains a

/-- The operation is the internal notification (30_encoding.md R119). -/
def isInternal (i : Instr) : Bool := issuersOf i == [.harness]

/-- Why the boundary refuses an operation to an agent, in the order the checks are made (log entry 6): a NOTIFY_COUNTER
word of a block-level program (30_encoding.md R119), then the agent check (60_exceptions.md R285, R290; log entry 5). -/
def boundaryRefusal (a : Agent) (i : Instr) : Option Refusal :=
  if a.mayIssue i then none
  else if isInternal i then some .internalOperation
  else if a = .observer then some .observerEffect
  else some .agentRestricted

end Sys2Proof.Machine
end

