-- ==== Sys2Proof/Machine/Operands.lean ====
section
/-! DEFINITION. The operand forms: the geometry a page size gives (10_state.md R41), the admissibility of a bank
configuration (40_bank_engine.md R142), the quantities a device type and the 8-bit mode give (00_scope.md R12), EEPROM
cell access (20_memory.md R88, R89) and the fields of a record (42_persistence_and_control.md R242 to R247). -/

namespace Sys2Proof.Machine

/-! ### Bank geometry -/

/-- `page_size` as the 16-bit value the spec names (10_state.md R41). -/
def Geometry.pageSize : Geometry → BitVec 16
  | .empty => 0#16
  | .pages k => 1#16 <<< k.val

/-- `size`: `page_size * 256` bytes (10_state.md R41). -/
def Geometry.size : Geometry → Nat
  | .empty => 0
  | .pages k => 2 ^ k.val * 256

/-- `shift_bits`: log2 of `page_size` (10_state.md R41). -/
def Geometry.shiftBits : Geometry → Nat
  | .empty => 0
  | .pages k => k.val

/-- `offset_mask`: `(1 << shift_bits) - 1` (10_state.md R41). -/
def Geometry.offsetMask : Geometry → Nat
  | .empty => 0
  | .pages k => (1 <<< k.val) - 1

/-- `mask`: `size - 1` (10_state.md R41). -/
def Geometry.mask : Geometry → Nat
  | .empty => 0
  | .pages k => 2 ^ k.val * 256 - 1

/-- The geometry of a page-size operand: 0 is the empty slot, a power of two gives its log2, any other value has no
geometry (00_scope.md R11, 40_bank_engine.md R142 condition 1). -/
def Geometry.ofPageSize (ps : BitVec 16) : Option Geometry :=
  if ps = 0#16 then some .empty
  else if 2 ^ Nat.log2 ps.toNat = ps.toNat then some (.pages (Fin.ofNat 16 (Nat.log2 ps.toNat)))
  else none

/-- The shadow case of CONFIGURE_BANK: B1 with page size 0 and the shadow flag (10_state.md R48). -/
def isShadowCase (k : SlotId) (ps : BitVec 16) (shadow : Bool) : Bool :=
  decide (k = .b1) && decide (ps = 0#16) && shadow

/-- The geometry a CONFIGURE_BANK asks for: 256-byte pages in the shadow case, else that of the page size
(10_state.md R48, 40_bank_engine.md R141). -/
def requestedGeometry (k : SlotId) (ps : BitVec 16) (shadow : Bool) : Option Geometry :=
  if isShadowCase k ps shadow then some (.pages Config.shadowShift) else Geometry.ofPageSize ps

/-- `Admissible(s, ps, ram, shadow, we, data)` with the length of the data (40_bank_engine.md R142): the answer is the
requested geometry, and `none` when one of the five conditions holds. -/
def admissible (k : SlotId) (ps : BitVec 16) (ram shadow we : Bool) (dataLength : Nat) : Option Geometry :=
  match requestedGeometry k ps shadow with
  | none => none                                                             -- condition 1
  | some g =>
    if k ≠ .b1 ∧ (ram || shadow || we) = true then none                      -- condition 2
    else if shadow = true ∧ ps ≠ 0#16 then none                              -- condition 3
    else if ram = true ∧ ps = 0#16 then none                                 -- condition 4
    else if dataLength < g.size then none                                    -- condition 5
    else some g

/-! ### EEPROM device quantities (00_scope.md R12) -/

/-- `addr_bits` of the device in 16-bit mode: 6, 8 or 10. -/
def deviceAddrBits : Device → Nat
  | .c46 => 6
  | .c56 | .c66 => 8
  | .c76 | .c86 => 10

/-- `T = GetSize()`: the cells that are persisted, 128, 256 or 1024 (00_scope.md R12, 20_memory.md R86). -/
def deviceCells : Device → Nat
  | .c46 => 128
  | .c56 | .c66 => 256
  | .c76 | .c86 => 1024

/-- `addr_bits`: one more in 8-bit mode (10_state.md R57). -/
def Eeprom.addrBits (e : Eeprom) : Nat := deviceAddrBits e.device + (if e.eightBit then 1 else 0)

/-- `done_mask = 1 << (addr_bits + 2)`. -/
def Eeprom.doneMask (e : Eeprom) : BitVec 32 := 1#32 <<< (e.addrBits + 2)

/-- `addr_mask = (1 << addr_bits) - 1`. -/
def Eeprom.addrMask (e : Eeprom) : Nat := (1 <<< e.addrBits) - 1

/-- `data_mask`: 0x100 in 8-bit mode, else 0x10000. -/
def Eeprom.dataMask (e : Eeprom) : BitVec 32 := if e.eightBit then 0x100#32 else 0x10000#32

/-- `value_mask`: 0xFF in 8-bit mode, else 0xFFFF. -/
def Eeprom.valueMask (e : Eeprom) : BitVec 16 := if e.eightBit then 0xFF#16 else 0xFFFF#16

/-- `top_bit`: 7 in 8-bit mode, else 15. -/
def Eeprom.topBit (e : Eeprom) : Nat := if e.eightBit then 7 else 15

/-! ### EEPROM cells -/

/-- `Cell8(a)`: the low half of `storage[a >> 1]` for even `a`, the high half for odd `a` (20_memory.md R88). -/
def cell8 (m : Memory 16) (a : Nat) : BitVec 8 := ((m.read (a >>> 1)) >>> (8 * (a &&& 1))).truncate 8

/-- `SetCell8(a, v)` (20_memory.md R88). -/
def setCell8 (m : Memory 16) (a : Nat) (v : BitVec 8) : Memory 16 :=
  m.write (a >>> 1)
    ((m.read (a >>> 1) &&& ~~~(0xFF#16 <<< (8 * (a &&& 1)))) ||| (v.zeroExtend 16 <<< (8 * (a &&& 1))))

/-- `Cell(a)`: a byte cell in 8-bit mode, else a 16-bit cell (20_memory.md R88, R89). -/
def Eeprom.cell (e : Eeprom) (a : Nat) : BitVec 16 :=
  if e.eightBit then (cell8 e.storage a).zeroExtend 16 else e.storage.read a

/-- `SetCell(a, v)` (20_memory.md R88, R89). -/
def Eeprom.setCell (e : Eeprom) (a : Nat) (v : BitVec 16) : Eeprom :=
  { e with storage := if e.eightBit then setCell8 e.storage a (v.truncate 8) else e.storage.write a v }

/-! ### Record fields (42_persistence_and_control.md R242 to R247) -/

/-- `u16(v)`: two bytes, least significant first (R242). -/
def bytes16 (v : BitVec 16) : List Byte := [v.extractLsb' 0 8, v.extractLsb' 8 8]

/-- `u32(v)`: four bytes, least significant first (R242). -/
def bytes32 (v : BitVec 32) : List Byte :=
  [v.extractLsb' 0 8, v.extractLsb' 8 8, v.extractLsb' 16 8, v.extractLsb' 24 8]

/-- A 1-bit register as one byte (R242). -/
def flagByte (b : Bool) : Byte := if b then 0x01#8 else 0x00#8

/-- The byte at an offset of a record. -/
def byteAt (bs : List Byte) (i : Nat) : Byte := bs.getD i 0#8

/-- The u16 at an offset of a record (R242). -/
def u16At (bs : List Byte) (i : Nat) : BitVec 16 := byteAt bs (i + 1) ++ byteAt bs i

/-- The u32 at an offset of a record (R242). -/
def u32At (bs : List Byte) (i : Nat) : BitVec 32 :=
  byteAt bs (i + 3) ++ byteAt bs (i + 2) ++ byteAt bs (i + 1) ++ byteAt bs i

/-- A flag byte is 0x00 or 0x01 (R247 condition 2). -/
def isFlagByte (b : Byte) : Bool := b == 0x00#8 || b == 0x01#8

/-- The flag at an offset of a record. -/
def flagAt (bs : List Byte) (i : Nat) : Bool := byteAt bs i == 0x01#8

/-- The tag of a protocol state (R245). -/
def ProtocolState.tag : ProtocolState → Byte
  | .idle => 0#8
  | .address => 1#8
  | .data => 2#8
  | .wait => 3#8

/-- The protocol state of a tag; tags above 3 are refused before this is used (R245, R247 condition 4). -/
def ProtocolState.ofTag (t : Byte) : ProtocolState :=
  if t = 0#8 then .idle else if t = 1#8 then .address else if t = 2#8 then .data else .wait

/-- The u16 cells of a byte sequence, in order (R244). -/
def cellsOfBytes : List Byte → List (BitVec 16)
  | lo :: hi :: rest => (hi ++ lo) :: cellsOfBytes rest
  | _ => []

/-- The storage bytes of a record: cells `0 .. t-1`, each u16 (R244). -/
def storageBytes (m : Memory 16) (t : Nat) : List Byte := (List.range t).flatMap (fun a => bytes16 (m.read a))

end Sys2Proof.Machine
end

