-- ==== Sys2Proof/Machine/Flags.lean ====
section
/-! DEFINITION. The flag computations (10_state.md R73): the EEPROM's lines and edges (41_eeprom.md R187 to R189), the
start and the end of a busy cycle (R199, R200), and the dirty flags (10_state.md R47, R64). -/

namespace Sys2Proof.Machine

/-- `cs`: bit 7 of the counter (41_eeprom.md R187). -/
def counterCs (c : BitVec 16) : Bool := c.getLsbD Config.csBit

/-- `clk`: bit 1 of the counter (41_eeprom.md R187). -/
def counterClk (c : BitVec 16) : Bool := c.getLsbD Config.clkBit

/-- `di`: bit 4 of the data latch, gated by bit 4 of the direction latch (41_eeprom.md R187, D12). -/
def Eeprom.dataIn (e : Eeprom) : Bool := e.iodir.getLsbD Config.diBit && e.iodat.getLsbD Config.diBit

/-- The CS step: an edge of either direction resets the protocol and clears the accumulator, and `last_cs` takes the new
level (41_eeprom.md R188). -/
def Eeprom.csStep (e : Eeprom) (cs : Bool) : Eeprom :=
  if cs ≠ e.lastCs then { e with protocolState := .idle, shiftAccumulator := 0#32, lastCs := cs } else e

/-- A processed clock edge: CS high and CLK rising against the level before this notification (41_eeprom.md R189). -/
def risingEdge (cs clk lastClk : Bool) : Bool := cs && clk && !lastClk

/-- `BeginBusy()` (41_eeprom.md R199). -/
def Eeprom.beginBusy (e : Eeprom) : Eeprom :=
  { e with busyCounter := 0, inProgrammingCycle := true, outputBit := false }

/-- `busy_counter` after one more tick, never above 100 (41_eeprom.md R200). -/
def countTick (n : Fin 101) : Fin 101 := if h : n.val < Config.busyTicks then ⟨n.val + 1, Nat.succ_lt_succ h⟩ else n

/-- The step of TICK_BUSY on a fitted EEPROM: count, then test for completion (41_eeprom.md R200, D34). -/
def Eeprom.tick (e : Eeprom) : Eeprom :=
  if e.inProgrammingCycle then
    if Config.busyTicks ≤ (countTick e.busyCounter).val then
      { e with busyCounter := countTick e.busyCounter, outputBit := true, inProgrammingCycle := false }
    else { e with busyCounter := countTick e.busyCounter }
  else e

/-- Change a cell and mark the device dirty, unless it is write-protected (10_state.md R63, R64). -/
def Eeprom.program (e : Eeprom) (a : Nat) (v : BitVec 16) : Eeprom :=
  if e.writeProtected then e else { e.setCell a v with isDirty := true }

end Sys2Proof.Machine
end

