-- ==== Sys2Proof/Machine/EepromEngine.lean ====
section
/-! DEFINITION. The EEPROM protocol engine: the notification and its sub-steps (41_eeprom.md R186 to R199), and the
meanings of CONFIGURE_EEPROM, SET_IO, NOTIFY_COUNTER, TICK_BUSY and READ_OUTPUT. -/

namespace Sys2Proof.Machine

/-! ### Commands -/

/-- `StartBit(di)`, in IDLE (41_eeprom.md R190). -/
def Eeprom.startBit (e : Eeprom) (di : Bool) : Eeprom :=
  if di then { e with shiftAccumulator := 1#32, protocolState := .address } else e

/-- `Shift(di)`, in ADDRESS, DATA and WAIT (41_eeprom.md R191). -/
def Eeprom.shift (e : Eeprom) (di : Bool) : Eeprom :=
  { e with shiftAccumulator := (e.shiftAccumulator <<< 1) ||| (BitVec.ofBool di).zeroExtend 32 }

/-- `ReadCmd(a)`, opcode 10 (41_eeprom.md R193). -/
def Eeprom.readCmd (e : Eeprom) (a : Nat) : Eeprom :=
  { e with pendingReadValue := e.cell a, outputBit := false, protocolState := .wait }

/-- `WriteCmd()`, opcode 01 (41_eeprom.md R194). -/
def Eeprom.writeCmd (e : Eeprom) : Eeprom := { e with shiftAccumulator := 1#32, protocolState := .data }

/-- `EraseCmd(a)`, opcode 11: the busy cycle begins whether or not the device is write-protected (41_eeprom.md R195,
90_conflicts.md C6). -/
def Eeprom.eraseCmd (e : Eeprom) (a : Nat) : Eeprom :=
  { (e.program a e.valueMask).beginBusy with protocolState := .wait }

/-- `ExtendedCmd(a)`, opcode 00: the sub-opcode is the two most significant address bits (41_eeprom.md R196, D19); EWDS
and EWEN set and clear `write_protected`, WRAL and ERAL do nothing. -/
def Eeprom.extendedCmd (e : Eeprom) (a : Nat) : Eeprom :=
  if (a >>> (e.addrBits - 2)) &&& 3 = 0 then { e with writeProtected := true, protocolState := .idle }
  else if (a >>> (e.addrBits - 2)) &&& 3 = 3 then { e with writeProtected := false, protocolState := .idle }
  else { e with protocolState := .idle }

/-- The decode of a complete command: the opcode is the two bits above the address (41_eeprom.md R192). -/
def Eeprom.decodeCmd (e : Eeprom) : Eeprom :=
  let op := (e.shiftAccumulator.toNat >>> e.addrBits) &&& 3
  let a := e.shiftAccumulator.toNat &&& e.addrMask
  let e' := { e with selectedAddress := BitVec.ofNat 16 a }
  if op = 2 then e'.readCmd a
  else if op = 1 then e'.writeCmd
  else if op = 3 then e'.eraseCmd a
  else e'.extendedCmd a

/-- `AddressStep()`: decode once the command is complete (41_eeprom.md R192). -/
def Eeprom.addressStep (e : Eeprom) : Eeprom :=
  if e.shiftAccumulator &&& e.doneMask = 0#32 then e else e.decodeCmd

/-- `DataStep()`: store once the payload is complete; the busy cycle begins whether or not the device is write-protected
(41_eeprom.md R197). -/
def Eeprom.dataStep (e : Eeprom) : Eeprom :=
  if e.shiftAccumulator &&& e.dataMask = 0#32 then e
  else
    { (e.program (e.selectedAddress.toNat &&& e.addrMask) (e.shiftAccumulator.truncate 16 &&& e.valueMask)).beginBusy
      with protocolState := .wait }

/-- `WaitStep()`: shift the read value out, unless a programming cycle is active (41_eeprom.md R198). -/
def Eeprom.waitStep (e : Eeprom) : Eeprom :=
  if e.inProgrammingCycle then e
  else { e with outputBit := e.pendingReadValue.getLsbD e.topBit, pendingReadValue := e.pendingReadValue <<< 1 }

/-- One processed clock edge: one dispatch on the protocol state (41_eeprom.md R186). -/
def Eeprom.clockEdge (e : Eeprom) (di : Bool) : Eeprom :=
  match e.protocolState with
  | .idle => e.startBit di
  | .address => (e.shift di).addressStep
  | .data => (e.shift di).dataStep
  | .wait => (e.shift di).waitStep

/-- `Notify(c)` on a fitted EEPROM: the CS step, then the clock step on the state it leaves; `last_clk` takes the new
level on every notification (41_eeprom.md R186 to R189, D16, D17). -/
def Eeprom.notify (e : Eeprom) (c : BitVec 16) : Eeprom :=
  let rising := risingEdge (counterCs c) (counterClk c) e.lastClk
  let e' := { e.csStep (counterCs c) with lastClk := counterClk c }
  if rising then e'.clockEdge e'.dataIn else e'

/-- `Notify(c)` on the block: nothing without a device (41_eeprom.md R182, R186). -/
def State.notify (s : State) (c : BitVec 16) : State := s.mapEeprom (·.notify c)

/-- The EEPROM right after CONFIGURE_EEPROM (10_state.md R70). -/
def Eeprom.fresh (d : Device) (e8 : Bool) : Eeprom where
  device := d
  eightBit := e8
  protocolState := .idle
  shiftAccumulator := 0#32
  selectedAddress := 0#16
  pendingReadValue := 0#16
  storage := []
  writeProtected := true
  isDirty := false
  inProgrammingCycle := false
  busyCounter := 0
  lastCs := false
  lastClk := false
  outputBit := false
  iodir := 0#8
  iodat := 0#8

/-! ### Meanings -/

/-- CONFIGURE_EEPROM (41_eeprom.md R181): a fresh device, or none, in which case its registers cease to exist. -/
def execConfigureEeprom (type : Option Device) (e8 : Bool) (s : State) : Host.Outcome State Fault Refusal :=
  .next ({ s with eeprom := type.map (Eeprom.fresh · e8) }.returning .nothing)

/-- SET_IO (41_eeprom.md R183). -/
def execSetIo (dir dat : Byte) (s : State) : Host.Outcome State Fault Refusal :=
  .next ((s.mapEeprom fun e => { e with iodir := dir, iodat := dat }).returning .nothing)

/-- NOTIFY_COUNTER (41_eeprom.md R186); who may issue it is the step's check (30_encoding.md R119). -/
def execNotifyCounter (c : BitVec 16) (s : State) : Host.Outcome State Fault Refusal :=
  .next ((s.notify c).returning .nothing)

/-- TICK_BUSY (41_eeprom.md R200). -/
def execTickBusy (s : State) : Host.Outcome State Fault Refusal :=
  .next ((s.mapEeprom Eeprom.tick).returning .nothing)

/-- The EEPROM output line, 0 with no device (41_eeprom.md R182, R202). -/
def State.outputLine (s : State) : Bool :=
  match s.eeprom with
  | none => false
  | some e => e.outputBit

/-- READ_OUTPUT (41_eeprom.md R202). -/
def execReadOutput (s : State) : Host.Outcome State Fault Refusal :=
  .next (s.returning (.bit s.outputLine))

end Sys2Proof.Machine
end

