-- ==== Sys2Proof/Machine/BankEngine.lean ====
section
/-! DEFINITION. The bank addressing engine: the shared procedures SlotByte, address_for and Advance (40_bank_engine.md
R145 to R147), and the meanings of CONFIGURE_BANK, READ, PEEK, WRITE, STROBE and SET_BIT. -/

namespace Sys2Proof.Machine

/-! ### Shared procedures -/

/-- `address_for(s)` for a geometry (40_bank_engine.md R146), on natural numbers (00_scope.md R14). -/
def addressIn (g : Geometry) (r : AddressRegs) : Nat :=
  ((r.shiftValue.toNat <<< g.shiftBits) ||| (r.pageOffset.toNat &&& g.offsetMask)) &&& g.mask

/-- `address_for(s)` (40_bank_engine.md R146). -/
def State.addressFor (s : State) (k : SlotId) : Nat := addressIn (s.banks.slot k).geometry s.regs

/-- `Byte(s, a)`: byte `a` of a slot's content (00_scope.md R17). -/
def State.contentByte (s : State) (k : SlotId) (a : Nat) : Byte := (s.banks.slot k).content.read a

/-- `SlotByte(s)` (40_bank_engine.md R145). -/
def State.slotByte (s : State) (k : SlotId) : Byte :=
  if (s.banks.slot k).geometry.size = 0 then Config.fill else s.contentByte k (s.addressFor k)

/-- `Advance()`: the counter step of READ and WRITE (40_bank_engine.md R147). -/
def State.advance (s : State) : State :=
  if s.regs.strobeLevel then s
  else
    { s with regs := { s.regs with pageOffset := s.regs.pageOffset + 1#11 } }.notify
      ((s.regs.pageOffset + 1#11).zeroExtend 16)

/-- A WRITE to this slot stores its byte (40_bank_engine.md R152, R153). -/
def Banks.stores (b : Banks) (k : SlotId) : Bool :=
  decide (k = .b1) && b.isRam && b.writeEnabled && decide (b.b1.geometry.size > 0)

/-- `SetByte(B1, a, v)`, and `dirty` is set (40_bank_engine.md R152). -/
def Banks.storeB1 (b : Banks) (a : Nat) (v : Byte) : Banks :=
  { b with b1 := { b.b1 with content := b.b1.content.write a v }, dirty := true }

/-- The store part of WRITE (40_bank_engine.md R152, R153). -/
def State.offer (s : State) (k : SlotId) (v : Byte) : State :=
  if s.banks.stores k then { s with banks := s.banks.storeB1 (s.addressFor .b1) v } else s

/-- STROBE step 1: with level 1, the counter goes to 0 and the EEPROM is notified with 0 (40_bank_engine.md R162). -/
def State.strobeReset (s : State) (l : Bool) : State :=
  if l then { s with regs := { s.regs with pageOffset := 0#11 } }.notify 0#16 else s

/-- STROBE step 2: on a rising edge `bit_level` is shifted into `shift_value` (40_bank_engine.md R163). -/
def AddressRegs.strobeShift (r : AddressRegs) (l : Bool) : AddressRegs :=
  if !r.strobeLevel && l then
    { r with shiftValue := (r.shiftValue <<< 1) ||| (BitVec.ofBool r.bitLevel).zeroExtend 8 }
  else r

/-- The slot a configuration makes: its geometry and the bytes of the data that geometry reaches (40_bank_engine.md
R141, 10_state.md R42; log entries 7, 8 and 9). -/
def configuredSlot (g : Geometry) (data : List Byte) : Slot :=
  { geometry := g, content := Memory.ofValues 0 (data.take g.size) }

/-- An admitted CONFIGURE_BANK on the banks (40_bank_engine.md R141): `is_ram` is set in the shadow case and for a
non-empty B1 with `ram`; the flags of B1 change only with B1. -/
def Banks.configure (b : Banks) (k : SlotId) (g : Geometry) (ram shadow we : Bool) (data : List Byte) : Banks :=
  if k = .b1 then
    { b.setSlot k (configuredSlot g data) with
      isRam := shadow || ram, writeEnabled := we, shadow := shadow, dirty := false }
  else b.setSlot k (configuredSlot g data)

/-! ### Meanings -/

/-- CONFIGURE_BANK (40_bank_engine.md R141, R142). -/
def execConfigureBank (cb : SlotId) (ps : BitVec 16) (ram shadow we : Bool) (s : State) :
    Host.Outcome State Fault Refusal :=
  match admissible cb ps ram shadow we s.operand.length with
  | none => .refused .configInvalid
  | some g => .next ({ s with banks := s.banks.configure cb g ram shadow we s.operand }.returning .nothing)

/-- READ: the byte is taken before the counter advances (40_bank_engine.md R148). -/
def execRead (b : SlotId) (s : State) : Host.Outcome State Fault Refusal :=
  .next (s.advance.returning (.byte (s.slotByte b)))

/-- PEEK (40_bank_engine.md R150). -/
def execPeek (b : SlotId) (s : State) : Host.Outcome State Fault Refusal :=
  .next (s.returning (.byte (s.slotByte b)))

/-- WRITE: the byte is stored, if at all, before the counter advances (40_bank_engine.md R152). -/
def execWrite (b : SlotId) (v : Byte) (s : State) : Host.Outcome State Fault Refusal :=
  .next ((s.offer b v).advance.returning .nothing)

/-- STROBE: reset and notify, then shift, then store the level (40_bank_engine.md R160, D40). -/
def execStrobe (l : Bool) (s : State) : Host.Outcome State Fault Refusal :=
  let s' := s.strobeReset l
  .next ({ s' with regs := { s'.regs.strobeShift l with strobeLevel := l } }.returning .nothing)

/-- SET_BIT (40_bank_engine.md R166). -/
def execSetBit (l : Bool) (s : State) : Host.Outcome State Fault Refusal :=
  .next ({ s with regs := { s.regs with bitLevel := l } }.returning .nothing)

end Sys2Proof.Machine
end

