-- ==== Sys2Proof/Machine/Persistence.lean ====
section
/-! DEFINITION. The state serializer, the dirty flags and the soft reset (42_persistence_and_control.md): the records and
their validity (R241 to R248), and the meanings of SAVE_STATE, LOAD_STATE, SAVE_EEPROM, LOAD_EEPROM, the four dirty-flag
operations and SOFT_RESET. -/

namespace Sys2Proof.Machine

/-! ### Records -/

/-- The bank record, 5 bytes (42_persistence_and_control.md R243). -/
def bankRecord (r : AddressRegs) : List Byte :=
  [r.shiftValue] ++ bytes16 (r.pageOffset.zeroExtend 16) ++ [flagByte r.strobeLevel, flagByte r.bitLevel]

/-- The first 18 bytes of the EEPROM record (42_persistence_and_control.md R244). -/
def eepromHeader (e : Eeprom) : List Byte :=
  [e.protocolState.tag] ++ bytes32 e.shiftAccumulator ++ bytes16 e.selectedAddress ++ bytes16 e.pendingReadValue ++
    [flagByte e.outputBit, flagByte e.writeProtected, flagByte e.isDirty, flagByte e.inProgrammingCycle,
      BitVec.ofNat 8 e.busyCounter.val, flagByte e.lastCs, flagByte e.lastClk, e.iodir, e.iodat]

/-- The EEPROM record, `18 + 2*T` bytes (42_persistence_and_control.md R244). -/
def eepromRecord (e : Eeprom) : List Byte := eepromHeader e ++ storageBytes e.storage (deviceCells e.device)

/-- The EEPROM record of the block: empty with no device (42_persistence_and_control.md R254, D29). -/
def State.eepromImage (s : State) : List Byte :=
  match s.eeprom with
  | none => []
  | some e => eepromRecord e

/-- The full record (42_persistence_and_control.md R246, R250). -/
def State.record (s : State) : List Byte := bankRecord s.regs ++ s.eepromImage

/-- The checks of R247 on the first five bytes of a full record: conditions 2 and 3. -/
def validBankRecord (bs : List Byte) : Bool :=
  decide ((u16At bs 1).toNat ≤ 0x7FF) && isFlagByte (byteAt bs 3) && isFlagByte (byteAt bs 4)

/-- The checks of R247 on an EEPROM record for a device: conditions 1, 2, 4 and 5. -/
def validEepromRecord (d : Device) (bs : List Byte) : Bool :=
  decide (bs.length = 18 + 2 * deviceCells d) && decide ((byteAt bs 0).toNat ≤ 3)
    && isFlagByte (byteAt bs 9) && isFlagByte (byteAt bs 10) && isFlagByte (byteAt bs 11) && isFlagByte (byteAt bs 12)
    && decide ((byteAt bs 13).toNat ≤ Config.busyTicks) && isFlagByte (byteAt bs 14) && isFlagByte (byteAt bs 15)

/-- `Valid(record)` for the EEPROM record of the block: only the empty record with no device
(42_persistence_and_control.md R247, R255). -/
def State.validImage (s : State) (bs : List Byte) : Bool :=
  match s.eeprom with
  | none => bs.isEmpty
  | some e => validEepromRecord e.device bs

/-- `Valid(record)` for the full record (42_persistence_and_control.md R246, R247). -/
def State.validRecord (s : State) (bs : List Byte) : Bool :=
  decide (5 ≤ bs.length) && validBankRecord bs && s.validImage (bs.drop 5)

/-- The address registers of a valid bank record (42_persistence_and_control.md R243, R252). -/
def regsOfRecord (bs : List Byte) : AddressRegs where
  shiftValue := byteAt bs 0
  pageOffset := (u16At bs 1).truncate 11
  strobeLevel := flagAt bs 3
  bitLevel := flagAt bs 4

/-- `LoadEeprom(bytes)`: the fields of a valid EEPROM record; the device, its mode and the cells from `T` on are kept
(42_persistence_and_control.md R244, R248). -/
def Eeprom.load (e : Eeprom) (bs : List Byte) : Eeprom where
  device := e.device
  eightBit := e.eightBit
  protocolState := .ofTag (byteAt bs 0)
  shiftAccumulator := u32At bs 1
  selectedAddress := u16At bs 5
  pendingReadValue := u16At bs 7
  storage := e.storage.restore (cellsOfBytes (bs.drop 18))
  writeProtected := flagAt bs 10
  isDirty := flagAt bs 11
  inProgrammingCycle := flagAt bs 12
  busyCounter := Fin.ofNat 101 (byteAt bs 13).toNat
  lastCs := flagAt bs 14
  lastClk := flagAt bs 15
  outputBit := flagAt bs 9
  iodir := byteAt bs 16
  iodat := byteAt bs 17

/-! ### Meanings: save and load -/

/-- SAVE_STATE (42_persistence_and_control.md R250). -/
def execSaveState (s : State) : Host.Outcome State Fault Refusal := .next (s.returning (.bytes s.record))

/-- LOAD_STATE: no notification is made (42_persistence_and_control.md R252). -/
def execLoadState (s : State) : Host.Outcome State Fault Refusal :=
  if s.validRecord s.operand then
    .next (({ s with regs := regsOfRecord s.operand }.mapEeprom (·.load (s.operand.drop 5))).returning .nothing)
  else .refused .recordInvalid

/-- SAVE_EEPROM (42_persistence_and_control.md R254). -/
def execSaveEeprom (s : State) : Host.Outcome State Fault Refusal := .next (s.returning (.bytes s.eepromImage))

/-- LOAD_EEPROM (42_persistence_and_control.md R255). -/
def execLoadEeprom (s : State) : Host.Outcome State Fault Refusal :=
  if s.validImage s.operand then .next ((s.mapEeprom (·.load s.operand)).returning .nothing)
  else .refused .recordInvalid

/-! ### Meanings: dirty flags and soft reset -/

/-- CLEAR_DIRTY_BANK1 (42_persistence_and_control.md R260). -/
def execClearDirtyBank1 (s : State) : Host.Outcome State Fault Refusal :=
  .next ({ s with banks := { s.banks with dirty := false } }.returning .nothing)

/-- CLEAR_DIRTY_EEPROM: nothing without a device (42_persistence_and_control.md R261). -/
def execClearDirtyEeprom (s : State) : Host.Outcome State Fault Refusal :=
  .next ((s.mapEeprom fun e => { e with isDirty := false }).returning .nothing)

/-- QUERY_DIRTY_BANK1 (42_persistence_and_control.md R262). -/
def execQueryDirtyBank1 (s : State) : Host.Outcome State Fault Refusal := .next (s.returning (.bit s.banks.dirty))

/-- The EEPROM's dirty flag, 0 with no device (42_persistence_and_control.md R263). -/
def State.eepromDirty (s : State) : Bool :=
  match s.eeprom with
  | none => false
  | some e => e.isDirty

/-- QUERY_DIRTY_EEPROM (42_persistence_and_control.md R263). -/
def execQueryDirtyEeprom (s : State) : Host.Outcome State Fault Refusal := .next (s.returning (.bit s.eepromDirty))

/-- SOFT_RESET: the four address registers, no notification, nothing else (42_persistence_and_control.md R270, R271). -/
def execSoftReset (s : State) : Host.Outcome State Fault Refusal :=
  .next ({ s with regs := { shiftValue := 0#8, pageOffset := 0#11, strobeLevel := false, bitLevel := false }
         }.returning .nothing)

/-! ### One word placed for the next step -/

/-- Operand bytes with which a placed word runs (log entry 16): `size` bytes for CONFIGURE_BANK, the block's own record
for the two LOADs, none for every other operation. -/
def State.placedOperand (s : State) : Instr → List Byte
  | .configureBank cb ps _ shadow _ =>
    match requestedGeometry cb ps shadow with
    | none => []
    | some g => List.replicate g.size Config.fill
  | .loadState => s.record
  | .loadEeprom => s.eepromImage
  | .read _ | .peek _ | .write _ _ | .strobe _ | .setBit _ | .setIo _ _ | .tickBusy | .readOutput
  | .notifyCounter _ | .clearDirtyBank1 | .clearDirtyEeprom | .queryDirtyBank1 | .queryDirtyEeprom
  | .softReset | .configureEeprom _ _ | .saveState | .saveEeprom => []

/-- The command that issues a word: its agent may issue it, and its operand bytes are ones it runs with. -/
def State.placedCommand (s : State) (w : Word) : Command :=
  match decode w with
  | none => { agent := .mutator, word := w, operand := [] }
  | some i => { agent := (issuersOf i).headD .mutator, word := w, operand := s.placedOperand i }

end Sys2Proof.Machine
end

