-- ==== Sys2Proof/Machine/Dispatch.lean ====
section
/-! DEFINITION. One arm per operation of the opcode table, each one call of its meaning. -/

namespace Sys2Proof.Machine

def exec (i : Instr) (s : State) : Host.Outcome State Fault Refusal :=
  match i with
  | .read b => Sys2Proof.Machine.execRead b s
  | .peek b => Sys2Proof.Machine.execPeek b s
  | .write b v => Sys2Proof.Machine.execWrite b v s
  | .strobe l => Sys2Proof.Machine.execStrobe l s
  | .setBit l => Sys2Proof.Machine.execSetBit l s
  | .setIo dir dat => Sys2Proof.Machine.execSetIo dir dat s
  | .tickBusy => Sys2Proof.Machine.execTickBusy s
  | .readOutput => Sys2Proof.Machine.execReadOutput s
  | .notifyCounter c => Sys2Proof.Machine.execNotifyCounter c s
  | .clearDirtyBank1 => Sys2Proof.Machine.execClearDirtyBank1 s
  | .clearDirtyEeprom => Sys2Proof.Machine.execClearDirtyEeprom s
  | .queryDirtyBank1 => Sys2Proof.Machine.execQueryDirtyBank1 s
  | .queryDirtyEeprom => Sys2Proof.Machine.execQueryDirtyEeprom s
  | .softReset => Sys2Proof.Machine.execSoftReset s
  | .configureBank cb ps ram shadow we => Sys2Proof.Machine.execConfigureBank cb ps ram shadow we s
  | .configureEeprom type e8 => Sys2Proof.Machine.execConfigureEeprom type e8 s
  | .saveState => Sys2Proof.Machine.execSaveState s
  | .loadState => Sys2Proof.Machine.execLoadState s
  | .saveEeprom => Sys2Proof.Machine.execSaveEeprom s
  | .loadEeprom => Sys2Proof.Machine.execLoadEeprom s

end Sys2Proof.Machine
end

