-- ==== Sys2Proof/Machine/Issue.lean ====
section
/-! DEFINITION. Issuing one command to the block: the decoder and the agent check stand before the operation, the advance
of the position after it (60_exceptions.md R285, 10_state.md R31). -/

namespace Sys2Proof.Machine

/-- An operation that completes advances the position (10_state.md R31); a refusal leaves no state (00_scope.md R18). -/
def completed : Host.Outcome State Fault Refusal → Host.Outcome State Fault Refusal
  | .next s => .next s.advancePosition
  | .fault r => .fault r
  | .refused r => .refused r

/-- Issue one command: refuse a reserved word (30_encoding.md R118), then an operation its agent may not issue, else run
it (60_exceptions.md R285). -/
def issue (c : Command) (s : State) : Host.Outcome State Fault Refusal :=
  match decode c.word with
  | none => .refused .reservedEncoding
  | some i =>
    match boundaryRefusal c.agent i with
    | some r => .refused r
    | none => completed (exec i s)

/-- The next operation of a sequence, or the end of it (10_state.md R31, log entry 2). -/
def issueNext (s : State) : Host.Outcome State Fault Refusal :=
  match s.pending with
  | [] => .fault .endOfProgram
  | c :: _ => issue c s

/-- The state with one word as the next operation of its sequence (log entry 16). -/
def State.placeWord (s : State) (w : Word) : State := { s with pending := s.placedCommand w :: s.pending.tail }

end Sys2Proof.Machine
end

