-- ==== Sys2Proof/Machine/Step.lean ====
section
/-! DEFINITION. One step: take the next operation of the sequence (10_state.md R31), decode its word (30_encoding.md
R121), check its agent (60_exceptions.md R290), run it, and move to the next position. -/

namespace Sys2Proof.Machine

/-- One step of the block: the next operation of the sequence, as one atomic transition (00_scope.md R7). -/
def step (s : State) : Host.Outcome State Fault Refusal := issueNext s

/-- `s` with the command whose word has the bits `w` as the next operation of the sequence (log entry 16). -/
def State.withFetchWord (s : State) (nbits w : Nat) : State := s.placeWord (BitVec.ofNat 32 (w % 2 ^ nbits))

end Sys2Proof.Machine
end

