-- ==== Sys2Proof/Safety.lean ====
section
/-! DEFINITION. The terms claims use: what a well-formed state is (the invariant every step keeps), the relations between
the address engine and the EEPROM that only a LOAD or the harness can break, and the clocking of bits into the EEPROM. -/

namespace Sys2Proof.Machine

/-! ### The invariant every step keeps -/

/-- A slot's content is canonical and lies below its size (10_state.md R42); an empty slot has none (R50). -/
def Slot.wf (v : Slot) : Bool := v.content.wf && v.content.below v.geometry.size

/-- The slots are well-formed; only a non-empty B1 is RAM (10_state.md R45), a shadow B1 is RAM of 256-byte pages (R48),
and B1 is dirty only when it can be written (R47, R53). -/
def Banks.wf (b : Banks) : Bool :=
  b.b0.wf && b.b1.wf && b.b0a.wf && b.b1a.wf
    && (!b.isRam || decide (b.b1.geometry ≠ .empty))
    && (!b.shadow || (b.isRam && decide (b.b1.geometry = .pages Config.shadowShift)))
    && (!b.dirty || (b.isRam && b.writeEnabled))

/-- The storage is canonical, and cells from `T` on are erased (20_memory.md R87). -/
def Eeprom.wf (e : Eeprom) : Bool := e.storage.wf && e.storage.below (deviceCells e.device)

/-- The whole state is well-formed. -/
def State.wf (s : State) : Bool :=
  s.banks.wf && (match s.eeprom with
    | none => true
    | some e => e.wf)

/-! ### Relations that LOAD can break -/

/-- While strobe is high the counter is 0 and the EEPROM's lines are low (40_bank_engine.md R162, 90_conflicts.md C4). -/
def State.strobeCoherent (s : State) : Bool :=
  !s.regs.strobeLevel || (decide (s.regs.pageOffset = 0#11) && (match s.eeprom with
    | none => true
    | some e => !e.lastCs && !e.lastClk))

/-- During a programming cycle the output is not ready and fewer than 100 ticks are counted (41_eeprom.md R200,
70_reset_and_hazards.md R325). -/
def Eeprom.busyCoherent (e : Eeprom) : Bool :=
  !e.inProgrammingCycle || (!e.outputBit && decide (e.busyCounter.val < Config.busyTicks))

/-- `Eeprom.busyCoherent` of the block; true with no device. -/
def State.busyCoherent (s : State) : Bool :=
  match s.eeprom with
  | none => true
  | some e => e.busyCoherent

/-- The operation restores a record or steps the EEPROM from outside the block: LOAD_STATE, LOAD_EEPROM and the internal
NOTIFY_COUNTER. -/
def isFromOutside : Instr → Bool
  | .loadState | .loadEeprom | .notifyCounter _ => true
  | .read _ | .peek _ | .write _ _ | .strobe _ | .setBit _ | .setIo _ _ | .tickBusy | .readOutput
  | .clearDirtyBank1 | .clearDirtyEeprom | .queryDirtyBank1 | .queryDirtyEeprom
  | .softReset | .configureBank _ _ _ _ _ | .configureEeprom _ _ | .saveState | .saveEeprom => false

/-! ### Clocking bits into the EEPROM -/

/-- The EEPROM after one processed clock edge for each bit of the list, first bit first (41_eeprom.md R186). -/
def Eeprom.clockBits (e : Eeprom) (bs : List Bool) : Eeprom := bs.foldl Eeprom.clockEdge e

/-- The low `n` bits of a number, most significant first (20_memory.md R84). -/
def msbBits : Nat → Nat → List Bool
  | 0, _ => []
  | n + 1, v => v.testBit n :: msbBits n v

/-- The number of data bits of a WRITE and of a READ: 8 in 8-bit mode, else 16 (41_eeprom.md R204). -/
def Eeprom.dataBits (e : Eeprom) : Nat := if e.eightBit then 8 else 16

/-- The EEPROM after `n` TICK_BUSY steps (41_eeprom.md R200). -/
def Eeprom.ticks (e : Eeprom) : Nat → Eeprom
  | 0 => e
  | n + 1 => (e.ticks n).tick

/-! ### Two states of one configuration -/

/-- Two blocks with the same bank configuration and content and the same EEPROM type and mode
(42_persistence_and_control.md R248, R257). -/
def State.sameConfiguration (s t : State) : Prop :=
  s.banks = t.banks ∧ s.eeprom.map (fun e => (e.device, e.eightBit)) = t.eeprom.map (fun e => (e.device, e.eightBit))


/-! ### Boundary predicates, written from the rules and not from the definitions that check them -/

/-- R118's reserved words, by format (30_encoding.md R112): a reserved major opcode, a non-zero bit outside the format's
fields, READ or PEEK with `v != 0`, or CONFIGURE_EEPROM with type 6 or 7, or type 0 and `e8 = 1`. -/
def reservedWord (w : Word) : Prop :=
  let major := w.extractLsb' 28 4
  major = 0x0#4 ∨ major = 0xF#4
  ∨ ((major = 0x1#4 ∨ major = 0x2#4 ∨ major = 0x3#4) ∧ w.extractLsb' 10 18 ≠ 0#18)
  ∨ ((major = 0x1#4 ∨ major = 0x2#4) ∧ w.extractLsb' 0 8 ≠ 0#8)
  ∨ ((major = 0x4#4 ∨ major = 0x5#4) ∧ w.extractLsb' 1 27 ≠ 0#27)
  ∨ ((major = 0x6#4 ∨ major = 0x9#4) ∧ w.extractLsb' 16 12 ≠ 0#12)
  ∨ ((major = 0x7#4 ∨ major = 0x8#4 ∨ major = 0xB#4) ∧ w.extractLsb' 0 28 ≠ 0#28)
  ∨ ((major = 0xA#4 ∨ major = 0xE#4) ∧ w.extractLsb' 2 26 ≠ 0#26)
  ∨ (major = 0xC#4 ∧ w.extractLsb' 21 7 ≠ 0#7)
  ∨ (major = 0xD#4 ∧ (w.extractLsb' 4 24 ≠ 0#24 ∨ w.extractLsb' 0 3 = 6#3 ∨ w.extractLsb' 0 3 = 7#3
      ∨ (w.extractLsb' 0 3 = 0#3 ∧ w.getLsbD 3 = true)))

/-- R142's five conditions on a CONFIGURE_BANK of slot `k` with `n` data bytes: any of them makes it inadmissible. -/
def configInadmissible (k : SlotId) (ps : BitVec 16) (ram shadow we : Bool) (n : Nat) : Prop :=
  (ps ≠ 0#16 ∧ ¬ ∃ j < 16, ps.toNat = 2 ^ j)
  ∨ (k ≠ .b1 ∧ (ram = true ∨ shadow = true ∨ we = true))
  ∨ (shadow = true ∧ ps ≠ 0#16)
  ∨ (ram = true ∧ ps = 0#16)
  ∨ (ps ≠ 0#16 ∧ n < ps.toNat * 256) ∨ (k = .b1 ∧ ps = 0#16 ∧ shadow = true ∧ n < 65536)

/-- R247's conditions on the bytes of a bank record, at their offsets of R243: true when none of them fails. -/
def bankRecordOk (bs : List Byte) : Prop :=
  (bs.getD 3 0#8 = 0x00#8 ∨ bs.getD 3 0#8 = 0x01#8) ∧ (bs.getD 4 0#8 = 0x00#8 ∨ bs.getD 4 0#8 = 0x01#8)
  ∧ (bs.getD 1 0#8).toNat + 256 * (bs.getD 2 0#8).toNat ≤ 0x7FF

/-- R247's conditions on an EEPROM record for a device, at their offsets of R244: true when none of them fails. -/
def eepromRecordOk (d : Device) (bs : List Byte) : Prop :=
  bs.length = 18 + 2 * deviceCells d
  ∧ (∀ i ∈ [9, 10, 11, 12, 14, 15], bs.getD i 0#8 = 0x00#8 ∨ bs.getD i 0#8 = 0x01#8)
  ∧ (bs.getD 0 0#8).toNat ≤ 3 ∧ (bs.getD 13 0#8).toNat ≤ 100

/-- The bytes of the bank record by R243's offsets, in natural-number arithmetic. -/
def bankRecordTable (r : AddressRegs) : List Byte :=
  [r.shiftValue, BitVec.ofNat 8 (r.pageOffset.toNat % 256), BitVec.ofNat 8 (r.pageOffset.toNat / 256),
   if r.strobeLevel then 1#8 else 0#8, if r.bitLevel then 1#8 else 0#8]

/-- The first 18 bytes of the EEPROM record by R244's offsets, in natural-number arithmetic. -/
def eepromHeaderTable (e : Eeprom) : List Byte :=
  [(match e.protocolState with
      | .idle => 0#8
      | .address => 1#8
      | .data => 2#8
      | .wait => 3#8),
   BitVec.ofNat 8 (e.shiftAccumulator.toNat % 256), BitVec.ofNat 8 (e.shiftAccumulator.toNat / 256 % 256),
   BitVec.ofNat 8 (e.shiftAccumulator.toNat / 65536 % 256), BitVec.ofNat 8 (e.shiftAccumulator.toNat / 16777216),
   BitVec.ofNat 8 (e.selectedAddress.toNat % 256), BitVec.ofNat 8 (e.selectedAddress.toNat / 256),
   BitVec.ofNat 8 (e.pendingReadValue.toNat % 256), BitVec.ofNat 8 (e.pendingReadValue.toNat / 256),
   if e.outputBit then 1#8 else 0#8, if e.writeProtected then 1#8 else 0#8, if e.isDirty then 1#8 else 0#8,
   if e.inProgrammingCycle then 1#8 else 0#8, BitVec.ofNat 8 e.busyCounter.val,
   if e.lastCs then 1#8 else 0#8, if e.lastClk then 1#8 else 0#8, e.iodir, e.iodat]

/-- `bs` is the EEPROM record of `e` by R244: its length, its header, and cell `a` least significant byte first at
offset `18 + 2a`. -/
def IsEepromRecord (e : Eeprom) (bs : List Byte) : Prop :=
  bs.length = 18 + 2 * deviceCells e.device ∧ bs.take 18 = eepromHeaderTable e
  ∧ ∀ a < deviceCells e.device,
      (bs.getD (18 + 2 * a) 0#8).toNat + 256 * (bs.getD (19 + 2 * a) 0#8).toNat = (e.storage.read a).toNat

end Sys2Proof.Machine
end

