-- ==== Sys2Proof/Certificates/Slice0/Obligations.lean ====
section
/-! DEFINITION. The statements for the provers. Each docstring names the rule of spec/ it formalises, or the sections and
the spec's own decisions (92_eei_decisions.md D<n>) and log entries it rests on. -/

open Sys2Proof Sys2Proof.Machine

/-! ### Encoding -/

/-- Every well-formed operation's command word decodes to it, with every field value (30_encoding.md sections 2 to 4; the
encoding is the spec's own choice, D43). -/
def Obligations.DecodeOfEncodeGivesTheOperation : Prop :=
  ∀ i : Instr, i.wellFormed = true → decode (encode i) = some i

/-- A word the decoder admits is the command word of the operation it gives, which is well-formed: no bit is dropped
(30_encoding.md sections 2 to 4, D43). -/
def Obligations.EncodeOfDecodeGivesTheWord : Prop :=
  ∀ (w : Word) (i : Instr), decode w = some i → encode i = w ∧ i.wellFormed = true

/-- Exactly one row of the opcode table matches an admitted word, and it is the row whose operand fields give the
operation (30_encoding.md section 3, D43). -/
def Obligations.ExactlyOneOpcodeRowMatchesAnAdmittedWord : Prop :=
  ∀ (w : Word) (i : Instr), decode w = some i →
    ∃ r, opcodeRows.filter (·.matchesWord w) = [r] ∧ r.operands w = some i

/-- The decoder rejects exactly the words that R118 lists as reserved (30_encoding.md section 3, D37, D43). -/
def Obligations.DecoderRejectsExactlyTheReservedWords : Prop :=
  ∀ w : Word, decode w = none ↔ reservedWord w

/-- Words written out from the spec's encoding tables decode to the operations they stand for (30_encoding.md sections 3
and 4, 95_test_vectors.md V34; D43). -/
def Obligations.SpecWordsDecode : Prop :=
  decode 0x10000300#32 = some (.read .b1a) ∧ decode 0x20000200#32 = some (.peek .b0a)
  ∧ decode 0x300001A5#32 = some (.write .b1 0xA5#8) ∧ decode 0x40000001#32 = some (.strobe true)
  ∧ decode 0x50000000#32 = some (.setBit false) ∧ decode 0x60001010#32 = some (.setIo 0x10#8 0x10#8)
  ∧ decode 0x90000082#32 = some (.notifyCounter 0x82#16) ∧ decode 0xA0000003#32 = some .queryDirtyEeprom
  ∧ decode 0xC0190000#32 = some (.configureBank .b1 0#16 false true true)
  ∧ decode 0xD0000009#32 = some (.configureEeprom (some .c46) true) ∧ decode 0xE0000002#32 = some .saveEeprom

/-! ### Issuing an operation -/

/-- A step runs the decoded operation: when the next command decodes to an operation its agent may issue, the step is that
operation, and then the sequence moves on by one command and the position by one; a refusal of the operation is the
step's (10_state.md section 1, 00_scope.md section 5; the sequence as data is log entry 1). -/
def Obligations.StepRunsTheIssuedOperation : Prop :=
  ∀ (s : State) (c : Command) (rest : List Command) (i : Instr),
    s.pending = c :: rest → decode c.word = some i → c.agent.mayIssue i = true →
      (∀ t, exec i s = .next t → step s = .next { t with pending := rest, position := s.position + 1 })
      ∧ (∀ r, exec i s = .refused r → step s = .refused r)

/-- What the boundary refuses before any operation runs: a reserved word; a NOTIFY_COUNTER word of any agent of a
block-level program; any operation but PEEK of the observer; and an operation of the mutator, the host or the harness
outside its row; and with no operation left the step stops at the end of the sequence (30_encoding.md section 3,
60_exceptions.md sections 2 and 3, 10_state.md section 1; D2, D37, D38; the model's choices are the stop at the end, log
entry 2, the last reason, log entry 5, and the order of the checks, log entry 6). -/
def Obligations.StepRefusesAtTheBoundary : Prop :=
  (∀ s : State, s.pending = [] → step s = .fault .endOfProgram)
  ∧ ∀ (s : State) (c : Command) (rest : List Command), s.pending = c :: rest →
    (decode c.word = none → step s = .refused .reservedEncoding)
    ∧ (∀ x, decode c.word = some (.notifyCounter x) → c.agent ≠ .harness → step s = .refused .internalOperation)
    ∧ (∀ i, decode c.word = some i → (∀ x, i ≠ .notifyCounter x) → c.agent.mayIssue i = false →
        step s = .refused (if c.agent = .observer then .observerEffect else .agentRestricted))

/-- Which agent may issue which operation: the table of 60_exceptions.md section 3 (D2), and the harness's one operation
(log entry 4). -/
def Obligations.AgentsMayIssueTheirOwnOperations : Prop :=
  (∀ i, Agent.mutator.mayIssue i = true ↔
    (∃ b, i = .read b) ∨ (∃ b, i = .peek b) ∨ (∃ b v, i = .write b v) ∨ (∃ l, i = .strobe l) ∨ (∃ l, i = .setBit l)
    ∨ (∃ x y, i = .setIo x y) ∨ i = .tickBusy ∨ i = .readOutput)
  ∧ (∀ i, Agent.observer.mayIssue i = true ↔ ∃ b, i = .peek b)
  ∧ (∀ i, Agent.host.mayIssue i = true ↔
    (∃ cb ps ram shadow we, i = .configureBank cb ps ram shadow we) ∨ (∃ d e8, i = .configureEeprom d e8)
    ∨ i = .softReset ∨ i = .saveState ∨ i = .loadState ∨ i = .saveEeprom ∨ i = .loadEeprom ∨ i = .clearDirtyBank1
    ∨ i = .clearDirtyEeprom ∨ i = .queryDirtyBank1 ∨ i = .queryDirtyEeprom ∨ (∃ b, i = .peek b))
  ∧ (∀ i, Agent.harness.mayIssue i = true ↔ ∃ c, i = .notifyCounter c)

/-- No operation raises an exception: each completes, but for CONFIGURE_BANK refused as ConfigInvalid and the two LOADs
refused as RecordInvalid; and none changes the sequence (60_exceptions.md sections 1 and 2, 10_state.md section 1; D37). -/
def Obligations.OperationsCompleteOrRefuseTheirOwnOperands : Prop :=
  ∀ (i : Instr) (s : State),
    (∃ t, exec i s = .next t ∧ t.pending = s.pending ∧ t.position = s.position)
    ∨ (exec i s = .refused .configInvalid ∧ ∃ cb ps ram shadow we, i = .configureBank cb ps ram shadow we)
    ∨ (exec i s = .refused .recordInvalid ∧ (i = .loadState ∨ i = .loadEeprom))

/-! ### The bank engine -/

/-- The offset is `shift_value` times the page size plus the low bits of the counter, so the final mask changes nothing,
and it is below the slot's size (40_bank_engine.md section 1, 20_memory.md section 1; marked as derived by the spec). -/
def Obligations.AddressIsPageAndOffsetBelowSize : Prop :=
  ∀ (s : State) (k : SlotId) (j : Fin 16), (s.banks.slot k).geometry = .pages j →
    s.addressFor k = s.regs.shiftValue.toNat * 2 ^ j.val + s.regs.pageOffset.toNat % 2 ^ j.val
    ∧ s.addressFor k < (s.banks.slot k).geometry.size

/-- READ gives the byte at the offset formed before the advance (0xFF from an empty slot); with strobe low the counter
advances by one modulo 0x800 and the EEPROM is notified with the new value; with strobe high neither happens; nothing
else changes (40_bank_engine.md sections 1 and 3; D10, D39). -/
def Obligations.ReadReturnsTheByteThenAdvances : Prop :=
  ∀ (s : State) (b : SlotId),
    exec (.read b) s = .next
      { s with
        regs := { s.regs with pageOffset :=
          if s.regs.strobeLevel then s.regs.pageOffset else BitVec.ofNat 11 ((s.regs.pageOffset.toNat + 1) % 0x800) }
        eeprom :=
          if s.regs.strobeLevel then s.eeprom
          else s.eeprom.map (Eeprom.notify · (BitVec.ofNat 16 ((s.regs.pageOffset.toNat + 1) % 0x800)))
        result := .byte (if (s.banks.slot b).geometry.size = 0 then 0xFF#8
          else (s.banks.slot b).content.read (s.addressFor b)) }

/-- PEEK gives the byte READ would give and changes nothing but the result; with strobe high READ does the same
(40_bank_engine.md section 3); the observer may issue it (60_exceptions.md section 3, D2); its word is major opcode 2, the
slot and `v = 0` (30_encoding.md sections 2 to 4; the word is the spec's own choice, D43). -/
def Obligations.PeekGivesTheByteOfReadAndChangesNothing : Prop :=
  ∀ (s : State) (b : SlotId),
    exec (.peek b) s = .next
      { s with result := .byte (if (s.banks.slot b).geometry.size = 0 then 0xFF#8
          else (s.banks.slot b).content.read (s.addressFor b)) }
    ∧ (∀ t u, exec (.read b) s = .next t → exec (.peek b) s = .next u → t.result = u.result)
    ∧ (s.regs.strobeLevel = true → exec (.read b) s = exec (.peek b) s)
    ∧ Agent.observer.mayIssue (.peek b) = true
    ∧ decode (encode (.peek b)) = some (.peek b)
    ∧ (encode (.peek b)).toNat = 0x20000000 + 256 * (match b with
        | .b0 => 0
        | .b1 => 1
        | .b0a => 2
        | .b1a => 3)

/-- R43. An access to an empty slot: READ and PEEK give FILL (0xFF), and WRITE stores nothing. -/
def Obligations.EmptySlotReadsFillAndStoresNothing : Prop :=
  ∀ (s : State) (b : SlotId), (s.banks.slot b).geometry.size = 0 →
    (∃ t, exec (.read b) s = .next t ∧ t.result = .byte 0xFF#8)
    ∧ (∃ t, exec (.peek b) s = .next t ∧ t.result = .byte 0xFF#8)
    ∧ (∀ v, ∃ t, exec (.write b v) s = .next t ∧ t.banks = s.banks)

/-- R153. A WRITE stores its byte exactly when the slot is B1, `is_ram` and `write_enabled` are 1, at the offset formed
before the counter advances, and then sets `dirty`; every other byte, every geometry and every other attribute is
unchanged. In a well-formed state a RAM B1 is not empty. -/
def Obligations.WriteStoresExactlyInWritableB1 : Prop :=
  ∀ (s : State) (b : SlotId) (v : Byte), s.wf = true →
    ∃ t, exec (.write b v) s = .next t ∧
      (if b = .b1 ∧ s.banks.isRam = true ∧ s.banks.writeEnabled = true then
        t.contentByte .b1 (s.addressFor .b1) = v
        ∧ (∀ k a, ¬(k = .b1 ∧ a = s.addressFor .b1) → t.contentByte k a = s.contentByte k a)
        ∧ t.banks = { s.banks with b1 := { s.banks.b1 with content := t.banks.b1.content }, dirty := true }
      else t.banks = s.banks)

/-- WRITE advances as READ does, whether or not it stores, and gives nothing back (40_bank_engine.md sections 1 and 4;
D10, D39). -/
def Obligations.WriteAdvancesLikeRead : Prop :=
  ∀ (s : State) (b : SlotId) (v : Byte),
    ∃ t, exec (.write b v) s = .next t ∧
      t.regs = { s.regs with pageOffset :=
        if s.regs.strobeLevel then s.regs.pageOffset else BitVec.ofNat 11 ((s.regs.pageOffset.toNat + 1) % 0x800) }
      ∧ t.eeprom = (if s.regs.strobeLevel then s.eeprom
        else s.eeprom.map (Eeprom.notify · (BitVec.ofNat 16 ((s.regs.pageOffset.toNat + 1) % 0x800))))
      ∧ t.result = .nothing ∧ t.pending = s.pending ∧ t.position = s.position

/-- A byte stored by WRITE to B1 is what READ and PEEK of B1 give in any later state with the same banks whose formed
offset is the same (20_memory.md section 4; marked as derived by the spec). -/
def Obligations.StoredByteIsReadAtTheSameOffset : Prop :=
  ∀ (s t u : State) (v : Byte), s.wf = true → s.banks.isRam = true → s.banks.writeEnabled = true →
    exec (.write .b1 v) s = .next t → u.banks = t.banks → u.addressFor .b1 = s.addressFor .b1 →
    (∃ x, exec (.read .b1) u = .next x ∧ x.result = .byte v)
    ∧ (∃ x, exec (.peek .b1) u = .next x ∧ x.result = .byte v)

/-- STROBE: level 1 sets the counter to 0 and notifies with 0; a rising edge shifts `bit_level` into `shift_value`; the
level is stored; nothing else changes (40_bank_engine.md section 5; D11, D40). -/
def Obligations.StrobeResetsThenShiftsThenStoresTheLevel : Prop :=
  ∀ (s : State) (l : Bool),
    exec (.strobe l) s = .next
      { s with
        regs :=
          { shiftValue :=
              if s.regs.strobeLevel = false ∧ l = true then
                BitVec.ofNat 8 ((s.regs.shiftValue.toNat * 2 + (if s.regs.bitLevel then 1 else 0)) % 256)
              else s.regs.shiftValue
            pageOffset := if l then 0#11 else s.regs.pageOffset
            strobeLevel := l
            bitLevel := s.regs.bitLevel }
        eeprom := if l then s.eeprom.map (Eeprom.notify · 0#16) else s.eeprom
        result := .nothing }

/-- R163, R164. Only a rising edge of STROBE shifts, by one bit, masked to 8 bits, and the order of reset and shift is not
observable; the level is stored. -/
def Obligations.OnlyARisingStrobeShiftsOneBit : Prop :=
  ∀ (s : State) (l : Bool),
    (∃ t, exec (.strobe l) s = .next t
      ∧ t.regs.shiftValue.toNat =
          (if s.regs.strobeLevel = false ∧ l = true then
            (s.regs.shiftValue.toNat * 2 + (if s.regs.bitLevel then 1 else 0)) % 256
          else s.regs.shiftValue.toNat)
      ∧ t.regs.strobeLevel = l)
    ∧ { s.strobeReset l with regs := (s.strobeReset l).regs.strobeShift l }
        = State.strobeReset { s with regs := s.regs.strobeShift l } l

/-- SET_BIT sets the line and has no other effect; of several only the last level counts (40_bank_engine.md section 5); its
word is major opcode 5 and the level (30_encoding.md sections 2 to 4; the word is the spec's own choice, D43). -/
def Obligations.SetBitSetsOnlyTheBitLine : Prop :=
  ∀ (s : State) (l m : Bool),
    exec (.setBit l) s = .next { s with regs := { s.regs with bitLevel := l }, result := .nothing }
    ∧ exec (.setBit l) { s with regs := { s.regs with bitLevel := m } } = exec (.setBit l) s
    ∧ decode (encode (.setBit l)) = some (.setBit l)
    ∧ (encode (.setBit l)).toNat = 0x50000000 + (if l then 1 else 0)

/-- STROBE 1 while the strobe is already high changes nothing but the result, in every state in which strobe high means
counter 0 and EEPROM lines low (40_bank_engine.md section 5, 90_conflicts.md C4; D11). -/
def Obligations.StrobeOneAgainChangesNothing : Prop :=
  ∀ s : State, s.strobeCoherent = true → s.regs.strobeLevel = true →
    exec (.strobe true) s = .next { s with result := .nothing }

/-- The counter laws over all operations: READ and WRITE add 1 modulo 0x800 with strobe low and nothing with strobe high,
STROBE 1 gives 0 (40_bank_engine.md sections 1, 5 and 6; D10, D40); SOFT_RESET gives 0 (42_persistence_and_control.md
section 4; D32); LOAD_STATE gives the record's value, least significant byte first (42_persistence_and_control.md sections 1
and 2; D24); every other operation keeps it, and that CONFIGURE_BANK and CONFIGURE_EEPROM do is the model's reading (log
entry 19, DEDUCED); and `shift_value` changes only on a rising STROBE, SOFT_RESET and LOAD_STATE. -/
def Obligations.CounterAndShiftLaws : Prop :=
  ∀ (i : Instr) (s t : State), exec i s = .next t →
    t.regs.pageOffset.toNat =
      (match i with
        | .read _ | .write _ _ =>
          if s.regs.strobeLevel then s.regs.pageOffset.toNat else (s.regs.pageOffset.toNat + 1) % 0x800
        | .strobe l => if l then 0 else s.regs.pageOffset.toNat
        | .softReset => 0
        | .loadState => (s.operand.getD 1 0#8).toNat + 256 * (s.operand.getD 2 0#8).toNat
        | _ => s.regs.pageOffset.toNat)
    ∧ (t.regs.shiftValue ≠ s.regs.shiftValue →
        (i = .strobe true ∧ s.regs.strobeLevel = false) ∨ i = .softReset ∨ i = .loadState)

/-- The page size of a slot fixes its geometry: size, shift bits, offset mask and mask; only 0 and the powers of two have
one (10_state.md section 3; D6). -/
def Obligations.PageSizeFixesTheGeometry : Prop :=
  (∀ (ps : BitVec 16) (g : Geometry), Geometry.ofPageSize ps = some g →
    g.pageSize = ps ∧ g.size = ps.toNat * 256
    ∧ (ps = 0#16 → g.shiftBits = 0 ∧ g.offsetMask = 0 ∧ g.mask = 0)
    ∧ (ps ≠ 0#16 → ps.toNat = 2 ^ g.shiftBits ∧ g.offsetMask + 1 = ps.toNat ∧ g.mask + 1 = g.size))
  ∧ (∀ ps : BitVec 16, Geometry.ofPageSize ps = none ↔ ps ≠ 0#16 ∧ ¬ ∃ j < 16, ps.toNat = 2 ^ j)

/-- CONFIGURE_BANK is refused exactly under one of the five conditions, and otherwise completes (40_bank_engine.md
section 2; D6, D37). -/
def Obligations.ConfigureBankRefusesExactlyTheInadmissible : Prop :=
  ∀ (s : State) (cb : SlotId) (ps : BitVec 16) (ram shadow we : Bool),
    (exec (.configureBank cb ps ram shadow we) s = .refused .configInvalid ↔
      configInadmissible cb ps ram shadow we s.operand.length)
    ∧ ((∃ t, exec (.configureBank cb ps ram shadow we) s = .next t) ↔
      ¬ configInadmissible cb ps ram shadow we s.operand.length)

/-- An admitted CONFIGURE_BANK sets the slot's geometry (that of page size 256 for a shadow B1) and every byte of its
content below its size, and for B1 its attributes; the other slots, the attributes when the slot is not B1, the address
registers and the EEPROM are unchanged (40_bank_engine.md section 2, 10_state.md section 3; D5, D6, D7, D8, D9, and log
entry 10 for the shadow flag). -/
def Obligations.ConfigureBankSetsOneSlot : Prop :=
  ∀ (s : State) (cb : SlotId) (ps : BitVec 16) (ram shadow we : Bool),
    ¬ configInadmissible cb ps ram shadow we s.operand.length →
    ∃ t, exec (.configureBank cb ps ram shadow we) s = .next t
      ∧ (t.banks.slot cb).geometry.pageSize = (if shadow then 256#16 else ps)
      ∧ (t.banks.slot cb).geometry.size = (if shadow then 65536 else ps.toNat * 256)
      ∧ (∀ a < (t.banks.slot cb).geometry.size, t.contentByte cb a = s.operand.getD a 0#8)
      ∧ (∀ k, k ≠ cb → t.banks.slot k = s.banks.slot k)
      ∧ (if cb = .b1 then
          t.banks.isRam = (ram || shadow) ∧ t.banks.writeEnabled = we ∧ t.banks.shadow = shadow ∧ t.banks.dirty = false
        else
          t.banks.isRam = s.banks.isRam ∧ t.banks.writeEnabled = s.banks.writeEnabled
          ∧ t.banks.shadow = s.banks.shadow ∧ t.banks.dirty = s.banks.dirty)
      ∧ t.regs = s.regs ∧ t.eeprom = s.eeprom ∧ t.result = .nothing
      ∧ t.pending = s.pending ∧ t.position = s.position

/-- A byte of slot content changes only by CONFIGURE_BANK of that slot or by a WRITE to a writable B1, at the offset
formed before the advance (10_state.md section 3, 20_memory.md section 3; marked as derived by the spec). -/
def Obligations.OnlyWriteAndConfigureChangeContent : Prop :=
  ∀ (i : Instr) (s t : State) (k : SlotId) (a : Nat), exec i s = .next t → t.contentByte k a ≠ s.contentByte k a →
    (∃ ps ram shadow we, i = .configureBank k ps ram shadow we)
    ∨ (k = .b1 ∧ s.banks.isRam = true ∧ s.banks.writeEnabled = true ∧ a < s.banks.b1.geometry.size
        ∧ a = s.addressFor .b1 ∧ ∃ v, i = .write .b1 v)

/-- The banks, with the attributes of B1, change only by WRITE, CONFIGURE_BANK and CLEAR_DIRTY_BANK1; `dirty` is set only
by a WRITE that stores and cleared only by CLEAR_DIRTY_BANK1 and CONFIGURE_BANK of B1 (10_state.md section 3,
70_reset_and_hazards.md section 1; D9, D27, D32, D35). -/
def Obligations.BanksAndDirtyChangeOnlyByTheirOperations : Prop :=
  ∀ (i : Instr) (s t : State), exec i s = .next t →
    (t.banks ≠ s.banks →
      (∃ b v, i = .write b v) ∨ (∃ cb ps ram shadow we, i = .configureBank cb ps ram shadow we) ∨ i = .clearDirtyBank1)
    ∧ (t.banks.dirty = true ↔
        ((∃ v, i = .write .b1 v) ∧ s.banks.isRam = true ∧ s.banks.writeEnabled = true ∧ 0 < s.banks.b1.geometry.size)
        ∨ (s.banks.dirty = true ∧ i ≠ .clearDirtyBank1
            ∧ ∀ ps ram shadow we, i ≠ .configureBank .b1 ps ram shadow we))

/-- R96. The bank engine does not read or write the EEPROM: with the EEPROM replaced by any other, each of its operations,
an admitted CONFIGURE_BANK among them, gives the same registers, banks and result, and it moves the EEPROM only by a
notification with the counter value (the new one of READ and WRITE, 0 of STROBE); CONFIGURE_BANK does not move it. An EEPROM
operation does not read or write the banks: with the banks replaced by any others, it gives the same EEPROM and result. -/
def Obligations.BankAndEepromMeetOnlyInTheNotification : Prop :=
  ∀ (i : Instr) (s : State) (e : Option Eeprom) (banks : Banks),
    ((∃ b, i = .read b) ∨ (∃ b, i = .peek b) ∨ (∃ b v, i = .write b v) ∨ (∃ l, i = .strobe l) ∨ (∃ l, i = .setBit l) →
      ∃ t u, exec i s = .next t ∧ exec i { s with eeprom := e } = .next u
        ∧ u = { t with eeprom := u.eeprom }
        ∧ (t.eeprom = s.eeprom ∨ t.eeprom = s.eeprom.map (Eeprom.notify · (t.regs.pageOffset.zeroExtend 16))))
    ∧ (∀ cb ps ram shadow we t, i = .configureBank cb ps ram shadow we → exec i s = .next t →
        t.eeprom = s.eeprom ∧ exec i { s with eeprom := e } = .next { t with eeprom := e })
    ∧ ((∃ d v, i = .setIo d v) ∨ i = .tickBusy ∨ i = .readOutput ∨ (∃ c, i = .notifyCounter c)
        ∨ (∃ d e8, i = .configureEeprom d e8) →
      ∃ t, exec i s = .next t ∧ t.banks = s.banks
        ∧ exec i { s with banks := banks } = .next { t with banks := banks })

/-! ### The EEPROM engine -/

/-- With no device SET_IO, TICK_BUSY, the notification and CLEAR_DIRTY_EEPROM change nothing, READ_OUTPUT and
QUERY_DIRTY_EEPROM give 0, and SAVE_EEPROM gives no bytes (41_eeprom.md section 1, 42_persistence_and_control.md sections
2 and 3; D29, D30). -/
def Obligations.WithoutADeviceNothingHappens : Prop :=
  ∀ s : State, s.eeprom = none →
    (∀ x y, exec (.setIo x y) s = .next { s with result := .nothing })
    ∧ exec .tickBusy s = .next { s with result := .nothing }
    ∧ (∀ c, exec (.notifyCounter c) s = .next { s with result := .nothing })
    ∧ exec .clearDirtyEeprom s = .next { s with result := .nothing }
    ∧ exec .readOutput s = .next { s with result := .bit false }
    ∧ exec .queryDirtyEeprom s = .next { s with result := .bit false }
    ∧ exec .saveEeprom s = .next { s with result := .bytes [] }

/-- CONFIGURE_EEPROM gives the state before any command, or removes the device; nothing else changes (41_eeprom.md section
1, 10_state.md section 4; D31, D42). -/
def Obligations.ConfigureEepromGivesTheFreshDevice : Prop :=
  ∀ (s : State) (e8 : Bool),
    exec (.configureEeprom none e8) s = .next { s with eeprom := none, result := .nothing }
    ∧ ∀ d : Device, ∃ e, exec (.configureEeprom (some d) e8) s = .next { s with eeprom := some e, result := .nothing }
      ∧ e.device = d ∧ e.eightBit = e8 ∧ e.protocolState = .idle ∧ e.shiftAccumulator = 0#32
      ∧ e.selectedAddress = 0#16 ∧ e.pendingReadValue = 0#16 ∧ (∀ a, e.storage.read a = 0xFFFF#16)
      ∧ e.writeProtected = true ∧ e.isDirty = false ∧ e.inProgrammingCycle = false ∧ e.busyCounter = 0
      ∧ e.lastCs = false ∧ e.lastClk = false ∧ e.outputBit = false ∧ e.iodir = 0#8 ∧ e.iodat = 0#8

/-- SET_IO latches both bytes and does nothing else; READ_OUTPUT gives the output bit and changes nothing; NOTIFY_COUNTER
applies the notification to the EEPROM and to nothing else (41_eeprom.md sections 1 to 3; D13, D38). -/
def Obligations.LatchOutputAndNotificationOperations : Prop :=
  ∀ (s : State) (e : Eeprom), s.eeprom = some e →
    (∀ x y, exec (.setIo x y) s = .next { s with eeprom := some { e with iodir := x, iodat := y }, result := .nothing })
    ∧ exec .readOutput s = .next { s with result := .bit e.outputBit }
    ∧ (∀ c, exec (.notifyCounter c) s = .next { s with eeprom := some (e.notify c), result := .nothing })

/-- TICK_BUSY counts during a programming cycle, and the count of 100 ends the cycle and sets the output ready; outside a
cycle it changes nothing (41_eeprom.md section 3; D34). -/
def Obligations.TickBusyCountsToReady : Prop :=
  ∀ (s : State) (e : Eeprom), s.eeprom = some e →
    exec .tickBusy s = .next
      { s with
        eeprom := some
          (if e.inProgrammingCycle then
            (if 99 ≤ e.busyCounter.val then
              { e with busyCounter := 100, outputBit := true, inProgrammingCycle := false }
            else { e with busyCounter := Fin.ofNat 101 (e.busyCounter.val + 1) })
          else e)
        result := .nothing }

/-- After a busy cycle begins the output stays 0 through 99 ticks, and the 100th sets it; further ticks change nothing
(41_eeprom.md section 3, 70_reset_and_hazards.md R325's section 2, 95_test_vectors.md V13; D34). -/
def Obligations.ReadyComesAtTheHundredthTick : Prop :=
  ∀ (e : Eeprom) (n : Nat),
    (n < 100 → e.beginBusy.ticks n = { e.beginBusy with busyCounter := Fin.ofNat 101 n })
    ∧ (100 ≤ n → e.beginBusy.ticks n =
        { e with busyCounter := 100, outputBit := true, inProgrammingCycle := false })

/-- The notification: lines from counter bits 7 and 1 and from bit 4 of both latches, then the CS step, then one clock
dispatch on a rising clock with CS high; `last_clk` always takes the new level (41_eeprom.md section 2; D12, D16, D17). -/
def Obligations.NotificationAppliesCsStepThenClockStep : Prop :=
  ∀ (e : Eeprom) (c : BitVec 16),
    e.notify c =
      (if c.getLsbD 7 = true ∧ c.getLsbD 1 = true ∧ e.lastClk = false then
        Eeprom.clockEdge
          (if c.getLsbD 7 = e.lastCs then { e with lastClk := c.getLsbD 1 }
          else { e with protocolState := .idle, shiftAccumulator := 0#32, lastCs := c.getLsbD 7, lastClk := c.getLsbD 1 })
          (e.iodir.getLsbD 4 && e.iodat.getLsbD 4)
      else if c.getLsbD 7 = e.lastCs then { e with lastClk := c.getLsbD 1 }
      else { e with protocolState := .idle, shiftAccumulator := 0#32, lastCs := c.getLsbD 7, lastClk := c.getLsbD 1 })

/-- A CS edge of either direction resets the protocol to IDLE, clears the accumulator and updates `last_cs`, and changes
nothing else; a notification with a CS edge and no processed clock does that and takes the clock level (D17, log entry 17);
a busy cycle in progress runs on through TICK_BUSY (41_eeprom.md section 2). A CS rise with a processed clock is in
NotificationAppliesCsStepThenClockStep (D16). -/
def Obligations.CsEdgeResetsTheProtocolAndNothingElse : Prop :=
  ∀ (e : Eeprom) (cs : Bool),
    (cs ≠ e.lastCs →
      e.csStep cs = { e with protocolState := .idle, shiftAccumulator := 0#32, lastCs := cs }
      ∧ (∀ c : BitVec 16, c.getLsbD 7 = cs → ¬(cs = true ∧ c.getLsbD 1 = true ∧ e.lastClk = false) →
          e.notify c = { e.csStep cs with lastClk := c.getLsbD 1 })
      ∧ (e.csStep cs).tick = { e.tick with protocolState := .idle, shiftAccumulator := 0#32, lastCs := cs })
    ∧ (cs = e.lastCs → e.csStep cs = e)

/-- R190. In IDLE a 1 bit is captured as the start bit and a 0 bit is ignored, however many come before it. -/
def Obligations.StartBitIsCapturedInIdle : Prop :=
  ∀ (e : Eeprom) (n : Nat), e.protocolState = .idle →
    e.clockBits (List.replicate n false) = e
    ∧ e.clockBits (List.replicate n false ++ [true]) = { e with shiftAccumulator := 1#32, protocolState := .address }

/-- From the start bit, fewer than `addr_bits + 2` clocked bits leave the device in ADDRESS and change nothing but the
accumulator, which collects them most significant first; the bit that makes it `addr_bits + 2` decodes the command
(41_eeprom.md section 2; D14). -/
def Obligations.CommandIsDecodedAfterExactlyAddrBitsPlusTwo : Prop :=
  ∀ e : Eeprom, e.protocolState = .address → e.shiftAccumulator = 1#32 →
    (∀ (n v : Nat), n < e.addrBits + 2 → v < 2 ^ n →
      e.clockBits (msbBits n v) = { e with shiftAccumulator := BitVec.ofNat 32 (2 ^ n + v) })
    ∧ (∀ v, v < 2 ^ (e.addrBits + 2) →
      e.clockBits (msbBits (e.addrBits + 2) v)
        = Eeprom.decodeCmd { e with shiftAccumulator := BitVec.ofNat 32 (2 ^ (e.addrBits + 2) + v) })

/-- R193. The READ command (opcode 10) loads the addressed cell, clears the output and goes to WAIT, and is no programming
operation, for every accumulator that completes it; so do the opcode and the address clocked in after a start bit; while a
busy cycle runs, no clock shifts anything out. -/
def Obligations.ReadCommandLoadsTheCell : Prop :=
  (∀ (e : Eeprom) (di : Bool), e.protocolState = .address → (e.shift di).shiftAccumulator &&& e.doneMask ≠ 0#32 →
    (e.shift di).shiftAccumulator.toNat / 2 ^ e.addrBits % 4 = 2 →
    e.clockEdge di =
      { e with
        shiftAccumulator := (e.shift di).shiftAccumulator
        selectedAddress := BitVec.ofNat 16 ((e.shift di).shiftAccumulator.toNat % 2 ^ e.addrBits)
        pendingReadValue := e.cell ((e.shift di).shiftAccumulator.toNat % 2 ^ e.addrBits)
        outputBit := false
        protocolState := .wait })
  ∧ ∀ (e : Eeprom) (a : Nat), e.protocolState = .address → e.shiftAccumulator = 1#32 → a < 2 ^ e.addrBits →
    ∃ e', e.clockBits ([true, false] ++ msbBits e.addrBits a) = e'
      ∧ e' = { e with
          shiftAccumulator := e'.shiftAccumulator
          selectedAddress := BitVec.ofNat 16 a
          pendingReadValue := e.cell a
          outputBit := false
          protocolState := .wait }
      ∧ (e.inProgrammingCycle = true → ∀ bs, (e'.clockBits bs).outputBit = false
          ∧ (e'.clockBits bs).pendingReadValue = e.cell a)

/-- R194. The WRITE command (opcode 01) resets the accumulator to the start-bit value and goes to DATA, for every
accumulator that completes it; its target is the decoded address; so do the opcode and the address clocked in after a start
bit. -/
def Obligations.WriteCommandAwaitsTheData : Prop :=
  (∀ (e : Eeprom) (di : Bool), e.protocolState = .address → (e.shift di).shiftAccumulator &&& e.doneMask ≠ 0#32 →
    (e.shift di).shiftAccumulator.toNat / 2 ^ e.addrBits % 4 = 1 →
    e.clockEdge di =
      { e with
        shiftAccumulator := 1#32
        selectedAddress := BitVec.ofNat 16 ((e.shift di).shiftAccumulator.toNat % 2 ^ e.addrBits)
        protocolState := .data })
  ∧ ∀ (e : Eeprom) (a : Nat), e.protocolState = .address → e.shiftAccumulator = 1#32 → a < 2 ^ e.addrBits →
    e.clockBits ([false, true] ++ msbBits e.addrBits a) =
      { e with shiftAccumulator := 1#32, selectedAddress := BitVec.ofNat 16 a, protocolState := .data }

/-- The ERASE command (opcode 11): a busy cycle begins whether or not the device is write-protected; unprotected it also
sets the addressed cell to all-ones and marks the device dirty; every other cell is unchanged (41_eeprom.md section 2,
90_conflicts.md C6; D18, D20). -/
def Obligations.EraseCommandErasesOneCellAndBeginsBusy : Prop :=
  ∀ (e : Eeprom) (a : Nat), e.storage.wf = true → e.protocolState = .address → e.shiftAccumulator = 1#32 →
    a < 2 ^ e.addrBits →
    ∃ e', e.clockBits ([true, true] ++ msbBits e.addrBits a) = e'
      ∧ e' = { e with
          shiftAccumulator := e'.shiftAccumulator
          selectedAddress := BitVec.ofNat 16 a
          storage := e'.storage
          isDirty := e.isDirty || !e.writeProtected
          busyCounter := 0
          inProgrammingCycle := true
          outputBit := false
          protocolState := .wait }
      ∧ (e.writeProtected = true → e'.storage = e.storage)
      ∧ (e.writeProtected = false → e'.cell a = (if e.eightBit then 0xFF#16 else 0xFFFF#16)
          ∧ ∀ b, b ≠ a → e'.cell b = e.cell b)

/-- The extended command (opcode 00): the two most significant address bits are the sub-opcode; 00 write-protects, 11
enables writes, 01 and 10 do nothing; it returns to IDLE and changes nothing else: the accumulator keeps the start bit and
the command shifted in (41_eeprom.md section 2; D19, general knowledge by the spec's own mark, log entry 18, PRESUMED;
D21). -/
def Obligations.ExtendedCommandsSetWriteProtection : Prop :=
  ∀ (e : Eeprom) (sub low : Nat), e.protocolState = .address → e.shiftAccumulator = 1#32 →
    sub < 4 → low < 2 ^ (e.addrBits - 2) →
    e.clockBits ([false, false] ++ msbBits 2 sub ++ msbBits (e.addrBits - 2) low) =
      { e with
        shiftAccumulator := BitVec.ofNat 32 (2 ^ (e.addrBits + 2) + sub * 2 ^ (e.addrBits - 2) + low)
        selectedAddress := BitVec.ofNat 16 (sub * 2 ^ (e.addrBits - 2) + low)
        writeProtected := if sub = 0 then true else if sub = 3 then false else e.writeProtected
        protocolState := .idle }

/-- The data phase of a WRITE: fewer bits than the payload change nothing but the accumulator; the last one begins a busy
cycle whether or not the device is write-protected, and unprotected it stores the payload at the selected address and
marks the device dirty; every other cell is unchanged (41_eeprom.md section 2; D14, D20). -/
def Obligations.DataPayloadIsStoredAndBeginsBusy : Prop :=
  ∀ (e : Eeprom) (v : Nat), e.storage.wf = true → e.protocolState = .data → e.shiftAccumulator = 1#32 →
    (∀ n, n < e.dataBits → ∃ x, e.clockBits (msbBits n v) = { e with shiftAccumulator := x })
    ∧ (v < 2 ^ e.dataBits →
      ∃ e', e.clockBits (msbBits e.dataBits v) = e'
        ∧ e' = { e with
            shiftAccumulator := e'.shiftAccumulator
            storage := e'.storage
            isDirty := e.isDirty || !e.writeProtected
            busyCounter := 0
            inProgrammingCycle := true
            outputBit := false
            protocolState := .wait }
        ∧ (e.writeProtected = true → e'.storage = e.storage)
        ∧ (e.writeProtected = false →
            e'.cell (e.selectedAddress.toNat % 2 ^ e.addrBits) = BitVec.ofNat 16 v
            ∧ ∀ b, b ≠ e.selectedAddress.toNat % 2 ^ e.addrBits → e'.cell b = e.cell b))

/-- In WAIT with no programming cycle the read value comes out most significant bit first, one bit for each clocked bit
whatever the data-in line is, and 0 once all bits are out; nothing else but the accumulator changes (41_eeprom.md section
2; D15). -/
def Obligations.WaitShiftsTheReadValueOutMsbFirst : Prop :=
  ∀ (e : Eeprom) (bs : List Bool), e.protocolState = .wait → e.inProgrammingCycle = false →
    ∃ e', e.clockBits bs = e'
      ∧ e' = { e with
          shiftAccumulator := e'.shiftAccumulator
          pendingReadValue := e.pendingReadValue <<< bs.length
          outputBit := e'.outputBit }
      ∧ (∀ k, bs.length = k + 1 →
          e'.outputBit = (decide (k < e.dataBits) && e.pendingReadValue.getLsbD (e.dataBits - 1 - k)))

/-- The completion of an ERASE or of a WRITE's payload starts the count from 0 with the cycle active and the output not
ready, also during a busy cycle, and also on a write-protected device (41_eeprom.md section 2; the last is the spec's own
choice, D20, log entry 17). -/
def Obligations.SecondProgrammingCommandRestartsTheCount : Prop :=
  ∀ (e : Eeprom) (di : Bool),
    (e.protocolState = .address → (e.shift di).shiftAccumulator &&& e.doneMask ≠ 0#32 →
      (e.shift di).shiftAccumulator.toNat / 2 ^ e.addrBits % 4 = 3 →
      (e.clockEdge di).busyCounter = 0 ∧ (e.clockEdge di).inProgrammingCycle = true ∧ (e.clockEdge di).outputBit = false)
    ∧ (e.protocolState = .data → (e.shift di).shiftAccumulator &&& e.dataMask ≠ 0#32 →
      (e.clockEdge di).busyCounter = 0 ∧ (e.clockEdge di).inProgrammingCycle = true ∧ (e.clockEdge di).outputBit = false)
    ∧ (e.beginBusy = { e with busyCounter := 0, inProgrammingCycle := true, outputBit := false })

/-- A READ or WRITE with strobe low, with the EEPROM's last lines those of the counter: the EEPROM is reset exactly when
the counter reaches a multiple of 0x80, clocks one bit exactly at `0x?82 + 4k` in a CS window, and otherwise only follows
the clock line (41_eeprom.md sections 2 and 4, 70_reset_and_hazards.md section 2; marked as derived by the spec). The bit is
bit 4 of both latches (D12), and the counter advances on an empty slot too (D10, D17; log entry 17, UNVERIFIED). -/
def Obligations.AccessClocksTheEepromByTheCounter : Prop :=
  ∀ (i : Instr) (s t : State) (e : Eeprom), ((∃ b, i = .read b) ∨ (∃ b v, i = .write b v)) →
    s.regs.strobeLevel = false → s.eeprom = some e →
    e.lastCs = s.regs.pageOffset.getLsbD 7 → e.lastClk = s.regs.pageOffset.getLsbD 1 → exec i s = .next t →
    t.eeprom = some
      (if t.regs.pageOffset.toNat % 128 = 0 then
        { e with protocolState := .idle, shiftAccumulator := 0#32, lastCs := t.regs.pageOffset.getLsbD 7, lastClk := false }
      else if 128 ≤ t.regs.pageOffset.toNat % 256 ∧ t.regs.pageOffset.toNat % 4 = 2 then
        Eeprom.clockEdge { e with lastClk := true } (e.iodir.getLsbD 4 && e.iodat.getLsbD 4)
      else { e with lastClk := t.regs.pageOffset.getLsbD 1 })

/-- Cell access: a read of a cell gives what was last written to it and every other cell is unchanged, for 16-bit cells
and for the two halves of a cell in 8-bit mode (20_memory.md section 2; D22). -/
def Obligations.CellReadAfterWrite : Prop :=
  ∀ (m : Memory 16) (a b : Nat), m.wf = true →
    (∀ v, (m.write a v).read b = if a = b then v else m.read b)
    ∧ (∀ v, cell8 (setCell8 m a v) b = if a = b then v else cell8 m b)
    ∧ (m.read a).toNat = (cell8 m (2 * a)).toNat + 256 * (cell8 m (2 * a + 1)).toNat

/-- R85. The protocol reaches only the cells the address mask admits, `storage[0 .. 2^addr_bits - 1]`, or in 8-bit mode
`storage[0 .. 2^(addr_bits-1) - 1]`: a notification changes no other cell, and with the other cells replaced by any others
it gives the same registers and, of canonical storages, the same reachable cells. -/
def Obligations.ProtocolReachesOnlyMaskedCells : Prop :=
  ∀ (e : Eeprom) (c : BitVec 16),
    (∀ a, (if e.eightBit then 2 ^ (e.addrBits - 1) else 2 ^ e.addrBits) ≤ a →
      (e.notify c).storage.read a = e.storage.read a)
    ∧ (∀ m : Memory 16,
      (∀ a < (if e.eightBit then 2 ^ (e.addrBits - 1) else 2 ^ e.addrBits), m.read a = e.storage.read a) →
      ∃ m', Eeprom.notify { e with storage := m } c = { e.notify c with storage := m' }
        ∧ (e.storage.wf = true → m.wf = true →
          ∀ a < (if e.eightBit then 2 ^ (e.addrBits - 1) else 2 ^ e.addrBits), m'.read a = (e.notify c).storage.read a))

/-- While the device is write-protected no notification changes a cell or sets the dirty flag, and a notification changes
`write_protected` only by the extended command, in ADDRESS with opcode 00, which goes to IDLE (10_state.md section 4,
20_memory.md section 3, 41_eeprom.md section 2; D19, D35; which sub-opcodes change it rests on log entry 18, PRESUMED). So
over all operations but the LOADs and CONFIGURE_EEPROM, which set the registers themselves: a write-protected device keeps
its cells and no clear dirty flag becomes set, and `write_protected` changes only by a READ, a WRITE or a NOTIFY_COUNTER that
completes the extended command. -/
def Obligations.WriteProtectedDeviceKeepsItsCells : Prop :=
  (∀ (e : Eeprom) (c : BitVec 16),
    (e.writeProtected = true → (e.notify c).storage = e.storage ∧ (e.notify c).isDirty = e.isDirty)
    ∧ ((e.notify c).writeProtected ≠ e.writeProtected →
        e.protocolState = .address ∧ (e.notify c).protocolState = .idle
        ∧ (e.notify c).shiftAccumulator.toNat / 2 ^ e.addrBits % 4 = 0))
  ∧ ∀ (i : Instr) (s t : State) (e e' : Eeprom), i ≠ .loadState → i ≠ .loadEeprom → (∀ d e8, i ≠ .configureEeprom d e8) →
    s.eeprom = some e → exec i s = .next t → t.eeprom = some e' →
      (e.writeProtected = true → e'.storage = e.storage ∧ (e'.isDirty = true → e.isDirty = true))
      ∧ (e'.writeProtected ≠ e.writeProtected →
          ((∃ b, i = .read b) ∨ (∃ b v, i = .write b v) ∨ ∃ c, i = .notifyCounter c)
          ∧ e.protocolState = .address ∧ e'.protocolState = .idle ∧ e'.shiftAccumulator.toNat / 2 ^ e.addrBits % 4 = 0)

/-- The device type and the 8-bit mode change only by CONFIGURE_EEPROM (10_state.md section 4, 42_persistence_and_control.md
section 1; D27). -/
def Obligations.OnlyConfigureEepromChangesTheDevice : Prop :=
  ∀ (i : Instr) (s t : State), (∀ d e8, i ≠ .configureEeprom d e8) → exec i s = .next t →
    t.eeprom.map (fun e => (e.device, e.eightBit)) = s.eeprom.map (fun e => (e.device, e.eightBit))

/-- The round trip of the EEPROM, from a device whose writes are enabled (`write_protected = 0`, as EWEN leaves it; the EWEN
command itself is in ExtendedCommandsSetWriteProtection): after a WRITE of any value to any address, 100 ticks and a new CS
window, a READ of the address shifts the value out most significant bit first; ready comes with the 100th tick; from a
write-protected device the READ gives the old cell and the device is not marked dirty (41_eeprom.md sections 2 to 4,
95_test_vectors.md S4 and S7; D14, D15, D18, D20, D34). -/
def Obligations.WrittenCellIsReadBackOnlyIfEnabled : Prop :=
  ∀ (e : Eeprom) (a v : Nat), e.storage.wf = true → e.protocolState = .idle → a < 2 ^ e.addrBits → v < 2 ^ e.dataBits →
    ∃ e1 e2 e3 : Eeprom,
      e1 = e.clockBits ([true, false, true] ++ msbBits e.addrBits a ++ msbBits e.dataBits v)
      ∧ e2 = ((e1.ticks 100).notify 0x0000#16).notify 0x0080#16
      ∧ e3 = e2.clockBits ([true, true, false] ++ msbBits e.addrBits a)
      ∧ (e1.ticks 99).outputBit = false ∧ (e1.ticks 100).outputBit = true ∧ e3.outputBit = false
      ∧ e1.isDirty = (e.isDirty || !e.writeProtected)
      ∧ ∀ (bs : List Bool) (k : Nat), bs.length = k + 1 → k < e.dataBits →
          (e3.clockBits bs).outputBit =
            (if e.writeProtected then (e.cell a).getLsbD (e.dataBits - 1 - k) else v.testBit (e.dataBits - 1 - k))

/-! ### Persistence, flags and reset -/

/-- SAVE_STATE gives the bank record followed by the EEPROM record when a device is present, and SAVE_EEPROM the EEPROM
record alone; neither changes anything (42_persistence_and_control.md sections 1 and 2; D23, D24, D25, D28, D29). -/
def Obligations.SavesGiveTheRecordsAndChangeNothing : Prop :=
  ∀ s : State, ∃ image : List Byte,
    exec .saveState s = .next { s with result := .bytes (bankRecordTable s.regs ++ image) }
    ∧ exec .saveEeprom s = .next { s with result := .bytes image }
    ∧ (s.eeprom = none → image = [])
    ∧ (∀ e, s.eeprom = some e → IsEepromRecord e image)

/-- LOAD_STATE and LOAD_EEPROM are refused exactly for a malformed record, and otherwise complete
(42_persistence_and_control.md sections 1 and 2; D26, D29). That they complete also for a record saved from another
configuration, which 60_exceptions.md section 5 gives no transition, is the model's reading (log entry 11, DEDUCED,
unsafe). -/
def Obligations.LoadsRefuseExactlyMalformedRecords : Prop :=
  ∀ s : State,
    (let ok := bankRecordOk s.operand ∧ (match s.eeprom with
        | none => s.operand.length = 5
        | some e => eepromRecordOk e.device (s.operand.drop 5))
     ((∃ t, exec .loadState s = .next t) ↔ ok) ∧ (exec .loadState s = .refused .recordInvalid ↔ ¬ ok))
    ∧ (let ok := (match s.eeprom with
        | none => s.operand = []
        | some e => eepromRecordOk e.device s.operand)
     ((∃ t, exec .loadEeprom s = .next t) ↔ ok) ∧ (exec .loadEeprom s = .refused .recordInvalid ↔ ¬ ok))

/-- A LOAD_STATE of a valid record restores exactly the persisted fields: the address registers are those whose record is
its first five bytes, the EEPROM is one of the same device and mode whose record is the rest, with its cells from `T` on
kept; the banks are unchanged and no notification is made (42_persistence_and_control.md sections 1 and 2; D24, D26,
D27). That a record saved from another configuration is loaded too, which 60_exceptions.md section 5 gives no transition, is
the model's reading (log entry 11, DEDUCED, unsafe). -/
def Obligations.LoadStateRestoresTheRecord : Prop :=
  ∀ s : State,
    bankRecordOk s.operand →
    (match s.eeprom with
      | none => s.operand.length = 5
      | some e => eepromRecordOk e.device (s.operand.drop 5)) →
    ∃ t, exec .loadState s = .next t ∧ bankRecordTable t.regs = s.operand.take 5
      ∧ t.banks = s.banks ∧ t.result = .nothing ∧ t.pending = s.pending ∧ t.position = s.position
      ∧ (s.eeprom = none → t.eeprom = none)
      ∧ (∀ e, s.eeprom = some e → ∃ e', t.eeprom = some e' ∧ e'.device = e.device ∧ e'.eightBit = e.eightBit
          ∧ IsEepromRecord e' (s.operand.drop 5) ∧ ∀ a, deviceCells e.device ≤ a → e'.storage.read a = e.storage.read a)

/-- A LOAD_EEPROM of a valid record restores exactly the EEPROM's persisted fields and changes nothing else; with no
device the empty record changes nothing (42_persistence_and_control.md sections 1 and 2; D24, D26, D27, D29). That an image
saved from another configuration is loaded too, which 60_exceptions.md section 5 gives no transition, is the model's reading
(log entry 11, DEDUCED, unsafe). -/
def Obligations.LoadEepromRestoresTheImage : Prop :=
  ∀ s : State,
    (s.eeprom = none → s.operand = [] → exec .loadEeprom s = .next { s with result := .nothing })
    ∧ (∀ e, s.eeprom = some e → eepromRecordOk e.device s.operand →
        ∃ e', exec .loadEeprom s = .next { s with eeprom := some e', result := .nothing }
          ∧ e'.device = e.device ∧ e'.eightBit = e.eightBit ∧ IsEepromRecord e' s.operand
          ∧ ∀ a, deviceCells e.device ≤ a → e'.storage.read a = e.storage.read a)

/-- The round-trip law: LOAD_STATE of what SAVE_STATE gave, into a block of the same configuration, gives the saved
block's registers, banks and EEPROM; and the same of SAVE_EEPROM and LOAD_EEPROM for the EEPROM
(42_persistence_and_control.md section 2; marked as derived by the spec; D23 to D29). -/
def Obligations.LoadOfSaveRestoresTheBlock : Prop :=
  ∀ s s' : State, s.wf = true → s'.wf = true → s.sameConfiguration s' →
    (∀ t bs, exec .saveState s = .next t → t.result = .bytes bs → s'.operand = bs →
      exec .loadState s' = .next { s with result := .nothing, pending := s'.pending, position := s'.position })
    ∧ (∀ t bs, exec .saveEeprom s = .next t → t.result = .bytes bs → s'.operand = bs →
      exec .loadEeprom s' = .next { s' with eeprom := s.eeprom, result := .nothing })

/-- The four dirty-flag operations: each clears or gives its flag and changes nothing else
(42_persistence_and_control.md section 3; D30, D35). -/
def Obligations.DirtyFlagOperations : Prop :=
  ∀ s : State,
    exec .clearDirtyBank1 s = .next { s with banks := { s.banks with dirty := false }, result := .nothing }
    ∧ exec .queryDirtyBank1 s = .next { s with result := .bit s.banks.dirty }
    ∧ (∀ e, s.eeprom = some e →
        exec .clearDirtyEeprom s = .next { s with eeprom := some { e with isDirty := false }, result := .nothing }
        ∧ exec .queryDirtyEeprom s = .next { s with result := .bit e.isDirty })

/-- SOFT_RESET sets the four address registers to 0, without a notification, and changes nothing else; a command in
progress ends at the next READ or WRITE when CS was high (42_persistence_and_control.md section 4,
70_reset_and_hazards.md section 2; D32). -/
def Obligations.SoftResetClearsOnlyTheAddressRegisters : Prop :=
  ∀ s : State, ∃ t, exec .softReset s = .next t
    ∧ t = { s with
        regs := { shiftValue := 0#8, pageOffset := 0#11, strobeLevel := false, bitLevel := false }
        result := .nothing }
    ∧ ∀ e i u, s.eeprom = some e → e.lastCs = true → (∃ b, i = .read b) ∨ (∃ b v, i = .write b v) → exec i t = .next u →
        u.eeprom = some { e with protocolState := .idle, shiftAccumulator := 0#32, lastCs := false, lastClk := false }

/-- The state at power-on: address registers 0, all slots empty with their flags 0, no EEPROM; it meets the invariants
(70_reset_and_hazards.md section 1; D33; the shadow flag's 0 is log entry 10, the empty sequence and the result log
entries 1 and 3). -/
def Obligations.PowerOnState : Prop :=
  State.reset.regs = { shiftValue := 0#8, pageOffset := 0#11, strobeLevel := false, bitLevel := false }
  ∧ (∀ k, (State.reset.banks.slot k).geometry.size = 0 ∧ (State.reset.banks.slot k).content = [])
  ∧ State.reset.banks.isRam = false ∧ State.reset.banks.writeEnabled = false ∧ State.reset.banks.dirty = false
  ∧ State.reset.banks.shadow = false ∧ State.reset.eeprom = none
  ∧ State.reset.result = .nothing ∧ State.reset.pending = [] ∧ State.reset.position = 0
  ∧ State.reset.wf = true ∧ State.reset.strobeCoherent = true ∧ State.reset.busyCoherent = true

/-! ### Invariants -/

/-- Every step keeps the state well-formed: no cell from `T` on changed from erased, RAM only on a configured B1, dirty only
on a writable one (10_state.md section 3, 20_memory.md section 2; D5, D6); and, of the model's own form of the state, no
content byte at or beyond a slot's size (log entry 7, DESIGN CHOICE: a ROM view may be longer), contents and storage
canonical (log entry 8, DEDUCED), no content in an empty slot (log entry 9, DEDUCED), and a shadow flag only on a B1 of
page size 256 in RAM (log entry 10, DESIGN CHOICE). -/
def Obligations.StepKeepsTheStateWellFormed : Prop :=
  ∀ s t : State, s.wf = true → step s = .next t → t.wf = true

/-- While strobe is high the counter is 0 and the EEPROM's lines are low: every operation but a LOAD and the internal
NOTIFY_COUNTER keeps it (40_bank_engine.md section 5, 90_conflicts.md C4; D11). -/
def Obligations.StrobeHighKeepsCounterAndLinesLow : Prop :=
  ∀ (i : Instr) (s t : State), isFromOutside i = false → s.strobeCoherent = true → exec i s = .next t →
    t.strobeCoherent = true

/-- During a programming cycle the output is 0 and the count is below 100: every operation but a LOAD keeps it
(41_eeprom.md section 3, 70_reset_and_hazards.md section 2; D20, D34). -/
def Obligations.BusyCycleKeepsTheOutputLow : Prop :=
  ∀ (i : Instr) (s t : State), i ≠ .loadState → i ≠ .loadEeprom → s.busyCoherent = true → exec i s = .next t →
    t.busyCoherent = true
end

