-- ==== Sys2Proof/Laws/Memory.lean ====
section
/-! SUPPORT. The laws of memory: a read after a write to the same address gives the value written, a write leaves every
other address alone, every operation keeps the canonical form, and canonical memories with equal reads are equal. -/

namespace Sys2Proof.Machine

variable {w : Nat}

/-! ### The canonical form, unfolded once -/

@[simp] theorem Memory.wf_nil : Memory.wf ([] : Memory w) = true := rfl

theorem Memory.wf_cons {a : Nat} {v : BitVec w} {m : Memory w} :
    Memory.wf ((a, v) :: m) = true ↔
      v ≠ BitVec.allOnes w ∧ (∀ c ∈ m, a < c.1) ∧ Memory.wf m = true := by
  simp [Memory.wf, and_assoc]

@[simp] theorem Memory.read_nil (a : Nat) : Memory.read ([] : Memory w) a = BitVec.allOnes w := rfl

theorem Memory.read_cons (a b : Nat) (v : BitVec w) (m : Memory w) :
    Memory.read ((b, v) :: m) a = if b = a then v else Memory.read m a := rfl

/-- An address below or not among the listed ones reads as all-ones. -/
theorem Memory.read_of_not_mem {m : Memory w} {a : Nat} (h : ∀ c ∈ m, c.1 ≠ a) :
    Memory.read m a = BitVec.allOnes w := by
  induction m with
  | nil => rfl
  | cons c m ih =>
    obtain ⟨b, v⟩ := c
    rw [Memory.read_cons, if_neg (h (b, v) (by simp))]
    exact ih fun c hc => h c (by simp [hc])

theorem Memory.read_of_lt_all {m : Memory w} {a : Nat} (h : ∀ c ∈ m, a < c.1) :
    Memory.read m a = BitVec.allOnes w :=
  Memory.read_of_not_mem fun c hc e => absurd (h c hc) (by omega)

/-! ### One cell -/

theorem Memory.read_single {m : Memory w} {a b : Nat} {v : BitVec w} (h : ∀ c ∈ m, a < c.1) :
    Memory.read (Memory.single a v m) b = if a = b then v else Memory.read m b := by
  unfold Memory.single
  split
  · next hv =>
    split
    · next hab => subst hab; rw [hv, Memory.read_of_lt_all h]
    · rfl
  · rfl

theorem Memory.mem_single {m : Memory w} {a : Nat} {v : BitVec w} {c : Nat × BitVec w}
    (h : c ∈ Memory.single a v m) : c = (a, v) ∨ c ∈ m := by
  unfold Memory.single at h
  split at h
  · exact .inr h
  · simpa using h

theorem Memory.wf_single {m : Memory w} {a : Nat} {v : BitVec w} (h : ∀ c ∈ m, a < c.1)
    (hm : Memory.wf m = true) : Memory.wf (Memory.single a v m) = true := by
  unfold Memory.single
  split
  · exact hm
  · next hv => exact Memory.wf_cons.2 ⟨hv, h, hm⟩

/-! ### Write -/

theorem Memory.mem_write {m : Memory w} {a : Nat} {v : BitVec w} {c : Nat × BitVec w}
    (h : c ∈ Memory.write m a v) : c = (a, v) ∨ c ∈ m := by
  induction m with
  | nil => exact Memory.mem_single h
  | cons d m ih =>
    obtain ⟨b, x⟩ := d
    simp only [Memory.write] at h
    split at h
    · exact Memory.mem_single h
    · split at h
      · exact (Memory.mem_single h).imp_right fun h => by simp [h]
      · rcases List.mem_cons.1 h with h | h
        · exact .inr (by simp [h])
        · exact (ih h).imp_right fun h => by simp [h]

/-- A write keeps the canonical form. -/
theorem Memory.wf_write {m : Memory w} (a : Nat) (v : BitVec w) (hm : Memory.wf m = true) :
    Memory.wf (Memory.write m a v) = true := by
  induction m with
  | nil => exact Memory.wf_single (by simp) rfl
  | cons d m ih =>
    obtain ⟨b, x⟩ := d
    obtain ⟨hx, hb, hm'⟩ := Memory.wf_cons.1 hm
    simp only [Memory.write]
    split
    · next hab =>
      refine Memory.wf_single (fun c hc => ?_) hm
      rcases List.mem_cons.1 hc with rfl | hc
      · exact hab
      · exact hab.trans (hb c hc)
    · split
      · next hab => subst hab; exact Memory.wf_single hb hm'
      · next h1 h2 =>
        refine Memory.wf_cons.2 ⟨hx, fun c hc => ?_, ih hm'⟩
        rcases Memory.mem_write hc with rfl | hc
        · show b < a; omega
        · exact hb c hc

/-- What a read gives after a write, on a canonical memory. -/
theorem Memory.read_write {m : Memory w} (hm : Memory.wf m = true) (a b : Nat) (v : BitVec w) :
    Memory.read (Memory.write m a v) b = if a = b then v else Memory.read m b := by
  induction m with
  | nil => exact Memory.read_single (by simp)
  | cons d m ih =>
    obtain ⟨k, x⟩ := d
    obtain ⟨hx, hb, hm'⟩ := Memory.wf_cons.1 hm
    simp only [Memory.write]
    split
    · next hak =>
      refine Memory.read_single fun c hc => ?_
      rcases List.mem_cons.1 hc with rfl | hc
      · exact hak
      · exact hak.trans (hb c hc)
    · split
      · next h1 h2 =>
        subst h2
        rw [Memory.read_single hb, Memory.read_cons]
        split <;> rfl
      · next h1 h2 =>
        rw [Memory.read_cons, Memory.read_cons, ih hm']
        split
        · next h => subst h; rw [if_neg h2]
        · rfl

/-- A write of any memory leaves every other address alone. -/
theorem Memory.read_write_ne {m : Memory w} {a b : Nat} (v : BitVec w) (h : a ≠ b) :
    Memory.read (Memory.write m a v) b = Memory.read m b := by
  have hs : ∀ m : Memory w, Memory.read (Memory.single a v m) b = Memory.read m b := by
    intro m
    unfold Memory.single
    split
    · rfl
    · rw [Memory.read_cons, if_neg h]
  induction m with
  | nil => exact hs []
  | cons d m ih =>
    obtain ⟨k, x⟩ := d
    simp only [Memory.write]
    split
    · exact hs _
    · split
      · next h1 h2 => subst h2; rw [hs, Memory.read_cons, if_neg h]
      · rw [Memory.read_cons, Memory.read_cons, ih]

theorem Memory.below_iff {n : Nat} {m : Memory w} : Memory.below n m = true ↔ ∀ c ∈ m, c.1 < n := by
  simp [Memory.below]

theorem Memory.below_write {n : Nat} {m : Memory w} {a : Nat} {v : BitVec w} (ha : a < n)
    (h : Memory.below n m = true) : Memory.below n (Memory.write m a v) = true := by
  refine Memory.below_iff.2 fun c hc => ?_
  rcases Memory.mem_write hc with rfl | hc
  · exact ha
  · exact Memory.below_iff.1 h c hc

theorem Memory.read_of_below {n : Nat} {m : Memory w} {a : Nat} (h : Memory.below n m = true) (ha : n ≤ a) :
    Memory.read m a = BitVec.allOnes w :=
  Memory.read_of_not_mem fun c hc => by have := Memory.below_iff.1 h c hc; omega

/-! ### A list of values -/

theorem Memory.mem_ofValues {vs : List (BitVec w)} {a : Nat} {c : Nat × BitVec w}
    (h : c ∈ Memory.ofValues a vs) : a ≤ c.1 ∧ c.1 < a + vs.length := by
  induction vs generalizing a with
  | nil => simp [Memory.ofValues] at h
  | cons v vs ih =>
    rcases Memory.mem_single h with rfl | h
    · simp
    · have := ih h
      simp only [List.length_cons]
      omega

theorem Memory.wf_ofValues (vs : List (BitVec w)) (a : Nat) : Memory.wf (Memory.ofValues a vs) = true := by
  induction vs generalizing a with
  | nil => rfl
  | cons v vs ih =>
    exact Memory.wf_single (fun c hc => by have := Memory.mem_ofValues hc; omega) (ih (a + 1))

/-- What a memory made of a list of values reads as. -/
theorem Memory.read_ofValues (vs : List (BitVec w)) (a b : Nat) :
    Memory.read (Memory.ofValues a vs) b =
      if a ≤ b then vs.getD (b - a) (BitVec.allOnes w) else BitVec.allOnes w := by
  induction vs generalizing a with
  | nil => simp [Memory.ofValues]
  | cons v vs ih =>
    simp only [Memory.ofValues]
    rw [Memory.read_single (fun c hc => by have := Memory.mem_ofValues hc; omega), ih]
    rcases Nat.lt_trichotomy a b with h | h | h
    · rw [if_neg (by omega), if_pos (by omega), if_pos (by omega)]
      obtain ⟨k, hk⟩ : ∃ k, b - a = k + 1 := ⟨b - a - 1, by omega⟩
      rw [hk, List.getD_cons_succ]
      congr 1
      omega
    · subst h
      simp
    · rw [if_neg (by omega), if_neg (by omega), if_neg (by omega)]

theorem Memory.below_ofValues {vs : List (BitVec w)} {n : Nat} (h : vs.length ≤ n) :
    Memory.below n (Memory.ofValues 0 vs) = true :=
  Memory.below_iff.2 fun c hc => by have := Memory.mem_ofValues hc; omega

/-! ### Restore -/

theorem Memory.wf_filter {m : Memory w} (p : Nat × BitVec w → Bool) (hm : Memory.wf m = true) :
    Memory.wf (m.filter p) = true := by
  induction m with
  | nil => rfl
  | cons c m ih =>
    obtain ⟨a, v⟩ := c
    obtain ⟨hv, ha, hm'⟩ := Memory.wf_cons.1 hm
    rw [List.filter_cons]
    split
    · exact Memory.wf_cons.2 ⟨hv, fun c hc => ha c (List.mem_filter.1 hc).1, ih hm'⟩
    · exact ih hm'

theorem Memory.wf_append {m n : Memory w} (hm : Memory.wf m = true) (hn : Memory.wf n = true)
    (h : ∀ c ∈ m, ∀ d ∈ n, c.1 < d.1) : Memory.wf (m ++ n : Memory w) = true := by
  induction m with
  | nil => exact hn
  | cons c m ih =>
    obtain ⟨a, v⟩ := c
    obtain ⟨hv, ha, hm'⟩ := Memory.wf_cons.1 hm
    refine Memory.wf_cons.2 ⟨hv, fun d hd => ?_, ih hm' fun c hc => h c (by simp [hc])⟩
    rcases List.mem_append.1 hd with hd | hd
    · exact ha d hd
    · exact h (a, v) (by simp) d hd

theorem Memory.wf_restore {m : Memory w} (vs : List (BitVec w)) (hm : Memory.wf m = true) :
    Memory.wf (Memory.restore m vs) = true := by
  refine Memory.wf_append (Memory.wf_ofValues vs 0) (Memory.wf_filter _ hm) fun c hc d hd => ?_
  have h1 := Memory.mem_ofValues hc
  have h2 : vs.length ≤ d.1 := by simpa using (List.mem_filter.1 hd).2
  omega

theorem Memory.below_restore {m : Memory w} {vs : List (BitVec w)} {n : Nat} (hn : vs.length ≤ n)
    (hm : Memory.below n m = true) : Memory.below n (Memory.restore m vs) = true := by
  refine Memory.below_iff.2 fun c hc => ?_
  rcases List.mem_append.1 hc with hc | hc
  · have := Memory.mem_ofValues hc; omega
  · exact Memory.below_iff.1 hm c (List.mem_filter.1 hc).1

theorem Memory.read_append {m n : Memory w} (a : Nat) :
    Memory.read (m ++ n : Memory w) a = if m.any (fun c => decide (c.1 = a)) then Memory.read m a else Memory.read n a := by
  induction m with
  | nil => rfl
  | cons c m ih =>
    obtain ⟨b, v⟩ := c
    show Memory.read ((b, v) :: (m ++ n)) a = _
    rw [Memory.read_cons, Memory.read_cons, ih]
    by_cases h : b = a <;> simp [h]

theorem Memory.read_filter {m : Memory w} {p : Nat → Bool} (a : Nat) :
    Memory.read (m.filter fun c => p c.1) a = if p a then Memory.read m a else BitVec.allOnes w := by
  induction m with
  | nil => simp
  | cons c m ih =>
    obtain ⟨b, v⟩ := c
    rw [List.filter_cons]
    by_cases hb : b = a
    · subst hb
      by_cases hp : p b = true
      · simp [hp, Memory.read_cons]
      · simp only [hp] at ih ⊢
        simpa using ih
    · split
      · rw [Memory.read_cons, Memory.read_cons, if_neg hb, if_neg hb, ih]
      · rw [Memory.read_cons, if_neg hb, ih]

/-- What a restored memory reads as: the values below their count, the old units from there on. -/
theorem Memory.read_restore {m : Memory w} (vs : List (BitVec w)) (a : Nat) :
    Memory.read (Memory.restore m vs) a = if h : a < vs.length then vs[a] else Memory.read m a := by
  unfold Memory.restore
  rw [Memory.read_append, Memory.read_filter (p := fun k => decide (vs.length ≤ k))]
  by_cases h : a < vs.length
  · rw [dif_pos h]
    have hv : Memory.read (Memory.ofValues 0 vs) a = vs[a] := by
      rw [Memory.read_ofValues]; simp [h]
    split
    · exact hv
    · next hn =>
      have : Memory.read (Memory.ofValues 0 vs) a = BitVec.allOnes w :=
        Memory.read_of_not_mem fun c hc e => hn (by simpa using ⟨c.2, by rw [← e]; exact hc⟩)
      rw [if_neg (by simpa using h), ← hv, this]
  · rw [dif_neg h, if_neg, if_pos (by simpa using h)]
    simp only [List.any_eq_true, decide_eq_true_eq, not_exists, not_and]
    intro c hc e
    have := Memory.mem_ofValues hc
    omega

/-! ### Equality -/

/-- Two canonical memories that read alike at every address are equal. -/
theorem Memory.ext_of_read {m n : Memory w} (hm : Memory.wf m = true) (hn : Memory.wf n = true)
    (h : ∀ a, Memory.read m a = Memory.read n a) : m = n := by
  induction m generalizing n with
  | nil =>
    cases n with
    | nil => rfl
    | cons d n =>
      obtain ⟨b, y⟩ := d
      have := h b
      rw [Memory.read_cons, if_pos rfl, Memory.read_nil] at this
      exact absurd this.symm (Memory.wf_cons.1 hn).1
  | cons c m ih =>
    obtain ⟨a, x⟩ := c
    obtain ⟨hx, ha, hm'⟩ := Memory.wf_cons.1 hm
    cases n with
    | nil =>
      have := h a
      rw [Memory.read_cons, if_pos rfl, Memory.read_nil] at this
      exact absurd this hx
    | cons d n =>
      obtain ⟨b, y⟩ := d
      obtain ⟨hy, hb, hn'⟩ := Memory.wf_cons.1 hn
      have h1 := h a
      have h2 := h b
      simp only [Memory.read_cons, if_pos] at h1 h2
      have hab : a = b := by
        rcases Nat.lt_trichotomy a b with l | l | l
        · rw [if_neg (by omega), Memory.read_of_lt_all fun c hc => l.trans (hb c hc)] at h1
          exact absurd h1 hx
        · exact l
        · rw [if_neg (by omega), Memory.read_of_lt_all fun c hc => l.trans (ha c hc)] at h2
          exact absurd h2.symm hy
      subst hab
      have hxy : x = y := by simpa using h1
      subst hxy
      congr 1
      refine ih hm' hn' fun k => ?_
      by_cases hk : a = k
      · subst hk
        rw [Memory.read_of_lt_all ha, Memory.read_of_lt_all hb]
      · have := h k
        rwa [Memory.read_cons, Memory.read_cons, if_neg hk, if_neg hk] at this

end Sys2Proof.Machine
end

