-- ==== Sys2Proof/Laws/State.lean ====
section
/-! SUPPORT. One lemma per field per named update of the state, true by rfl, so that no later proof unfolds a record
update. -/

namespace Sys2Proof.Machine

variable (s : State) (r : Result) (f : Eeprom → Eeprom) (c : BitVec 16) (b : Banks) (e : Eeprom)

/-! ### `State.returning` -/

@[simp] theorem State.returning_regs : (s.returning r).regs = s.regs := rfl
@[simp] theorem State.returning_banks : (s.returning r).banks = s.banks := rfl
@[simp] theorem State.returning_eeprom : (s.returning r).eeprom = s.eeprom := rfl
@[simp] theorem State.returning_result : (s.returning r).result = r := rfl
@[simp] theorem State.returning_pending : (s.returning r).pending = s.pending := rfl
@[simp] theorem State.returning_position : (s.returning r).position = s.position := rfl
@[simp] theorem State.returning_returning (q : Result) : (s.returning r).returning q = s.returning q := rfl
@[simp] theorem State.operand_returning : (s.returning r).operand = s.operand := rfl
@[simp] theorem State.addressFor_returning (k : SlotId) : (s.returning r).addressFor k = s.addressFor k := rfl
@[simp] theorem State.contentByte_returning (k : SlotId) (a : Nat) : (s.returning r).contentByte k a = s.contentByte k a := rfl
@[simp] theorem State.wf_returning : (s.returning r).wf = s.wf := rfl

/-! ### `State.advancePosition` -/

@[simp] theorem State.advancePosition_regs : s.advancePosition.regs = s.regs := rfl
@[simp] theorem State.advancePosition_banks : s.advancePosition.banks = s.banks := rfl
@[simp] theorem State.advancePosition_eeprom : s.advancePosition.eeprom = s.eeprom := rfl
@[simp] theorem State.advancePosition_result : s.advancePosition.result = s.result := rfl
@[simp] theorem State.advancePosition_pending : s.advancePosition.pending = s.pending.tail := rfl
@[simp] theorem State.advancePosition_position : s.advancePosition.position = s.position + 1 := rfl
@[simp] theorem State.addressFor_advancePosition (k : SlotId) : s.advancePosition.addressFor k = s.addressFor k := rfl
@[simp] theorem State.contentByte_advancePosition (k : SlotId) (a : Nat) : s.advancePosition.contentByte k a = s.contentByte k a := rfl
@[simp] theorem State.wf_advancePosition : s.advancePosition.wf = s.wf := rfl

/-! ### `State.mapEeprom` and `State.notify` -/

@[simp] theorem State.mapEeprom_regs : (s.mapEeprom f).regs = s.regs := rfl
@[simp] theorem State.mapEeprom_banks : (s.mapEeprom f).banks = s.banks := rfl
@[simp] theorem State.mapEeprom_eeprom : (s.mapEeprom f).eeprom = s.eeprom.map f := rfl
@[simp] theorem State.mapEeprom_result : (s.mapEeprom f).result = s.result := rfl
@[simp] theorem State.mapEeprom_pending : (s.mapEeprom f).pending = s.pending := rfl
@[simp] theorem State.mapEeprom_position : (s.mapEeprom f).position = s.position := rfl
@[simp] theorem State.operand_mapEeprom : (s.mapEeprom f).operand = s.operand := rfl
@[simp] theorem State.addressFor_mapEeprom (k : SlotId) : (s.mapEeprom f).addressFor k = s.addressFor k := rfl
@[simp] theorem State.contentByte_mapEeprom (k : SlotId) (a : Nat) : (s.mapEeprom f).contentByte k a = s.contentByte k a := rfl
@[simp] theorem State.notify_regs : (s.notify c).regs = s.regs := rfl
@[simp] theorem State.notify_banks : (s.notify c).banks = s.banks := rfl
@[simp] theorem State.notify_eeprom : (s.notify c).eeprom = s.eeprom.map (Eeprom.notify · c) := rfl
@[simp] theorem State.notify_result : (s.notify c).result = s.result := rfl
@[simp] theorem State.notify_pending : (s.notify c).pending = s.pending := rfl
@[simp] theorem State.notify_position : (s.notify c).position = s.position := rfl

/-! ### `Banks.setSlot` and `Banks.storeB1` -/

@[simp] theorem Banks.setSlot_isRam (k : SlotId) (v : Slot) : (b.setSlot k v).isRam = b.isRam := by cases k <;> rfl
@[simp] theorem Banks.setSlot_writeEnabled (k : SlotId) (v : Slot) : (b.setSlot k v).writeEnabled = b.writeEnabled := by cases k <;> rfl
@[simp] theorem Banks.setSlot_shadow (k : SlotId) (v : Slot) : (b.setSlot k v).shadow = b.shadow := by cases k <;> rfl
@[simp] theorem Banks.setSlot_dirty (k : SlotId) (v : Slot) : (b.setSlot k v).dirty = b.dirty := by cases k <;> rfl
@[simp] theorem Banks.slot_setSlot_self (k : SlotId) (v : Slot) : (b.setSlot k v).slot k = v := by cases k <;> rfl

theorem Banks.slot_setSlot_of_ne {k j : SlotId} (v : Slot) (h : k ≠ j) : (b.setSlot k v).slot j = b.slot j := by
  cases k <;> cases j <;> first | rfl | exact absurd rfl h

@[simp] theorem Banks.storeB1_b0 (a : Nat) (v : Byte) : (b.storeB1 a v).b0 = b.b0 := rfl
@[simp] theorem Banks.storeB1_b0a (a : Nat) (v : Byte) : (b.storeB1 a v).b0a = b.b0a := rfl
@[simp] theorem Banks.storeB1_b1a (a : Nat) (v : Byte) : (b.storeB1 a v).b1a = b.b1a := rfl
@[simp] theorem Banks.storeB1_isRam (a : Nat) (v : Byte) : (b.storeB1 a v).isRam = b.isRam := rfl
@[simp] theorem Banks.storeB1_writeEnabled (a : Nat) (v : Byte) : (b.storeB1 a v).writeEnabled = b.writeEnabled := rfl
@[simp] theorem Banks.storeB1_shadow (a : Nat) (v : Byte) : (b.storeB1 a v).shadow = b.shadow := rfl
@[simp] theorem Banks.storeB1_b1 (a : Nat) (v : Byte) : (b.storeB1 a v).b1 = { b.b1 with content := b.b1.content.write a v } := rfl
@[simp] theorem Banks.storeB1_dirty (a : Nat) (v : Byte) : (b.storeB1 a v).dirty = true := rfl

/-! ### EEPROM updates -/

@[simp] theorem Eeprom.beginBusy_device : (e.beginBusy).device = e.device := rfl
@[simp] theorem Eeprom.beginBusy_eightBit : (e.beginBusy).eightBit = e.eightBit := rfl
@[simp] theorem Eeprom.beginBusy_protocolState : (e.beginBusy).protocolState = e.protocolState := rfl
@[simp] theorem Eeprom.beginBusy_shiftAccumulator : (e.beginBusy).shiftAccumulator = e.shiftAccumulator := rfl
@[simp] theorem Eeprom.beginBusy_selectedAddress : (e.beginBusy).selectedAddress = e.selectedAddress := rfl
@[simp] theorem Eeprom.beginBusy_pendingReadValue : (e.beginBusy).pendingReadValue = e.pendingReadValue := rfl
@[simp] theorem Eeprom.beginBusy_storage : (e.beginBusy).storage = e.storage := rfl
@[simp] theorem Eeprom.beginBusy_writeProtected : (e.beginBusy).writeProtected = e.writeProtected := rfl
@[simp] theorem Eeprom.beginBusy_isDirty : (e.beginBusy).isDirty = e.isDirty := rfl
@[simp] theorem Eeprom.beginBusy_inProgrammingCycle : (e.beginBusy).inProgrammingCycle = true := rfl
@[simp] theorem Eeprom.beginBusy_busyCounter : (e.beginBusy).busyCounter = 0 := rfl
@[simp] theorem Eeprom.beginBusy_lastCs : (e.beginBusy).lastCs = e.lastCs := rfl
@[simp] theorem Eeprom.beginBusy_lastClk : (e.beginBusy).lastClk = e.lastClk := rfl
@[simp] theorem Eeprom.beginBusy_outputBit : (e.beginBusy).outputBit = false := rfl
@[simp] theorem Eeprom.beginBusy_iodir : (e.beginBusy).iodir = e.iodir := rfl
@[simp] theorem Eeprom.beginBusy_iodat : (e.beginBusy).iodat = e.iodat := rfl

@[simp] theorem Eeprom.shift_device (di : Bool) : (e.shift di).device = e.device := rfl
@[simp] theorem Eeprom.shift_eightBit (di : Bool) : (e.shift di).eightBit = e.eightBit := rfl
@[simp] theorem Eeprom.shift_protocolState (di : Bool) : (e.shift di).protocolState = e.protocolState := rfl
@[simp] theorem Eeprom.shift_shiftAccumulator (di : Bool) : (e.shift di).shiftAccumulator = (e.shiftAccumulator <<< 1) ||| (BitVec.ofBool di).zeroExtend 32 := rfl
@[simp] theorem Eeprom.shift_selectedAddress (di : Bool) : (e.shift di).selectedAddress = e.selectedAddress := rfl
@[simp] theorem Eeprom.shift_pendingReadValue (di : Bool) : (e.shift di).pendingReadValue = e.pendingReadValue := rfl
@[simp] theorem Eeprom.shift_storage (di : Bool) : (e.shift di).storage = e.storage := rfl
@[simp] theorem Eeprom.shift_writeProtected (di : Bool) : (e.shift di).writeProtected = e.writeProtected := rfl
@[simp] theorem Eeprom.shift_isDirty (di : Bool) : (e.shift di).isDirty = e.isDirty := rfl
@[simp] theorem Eeprom.shift_inProgrammingCycle (di : Bool) : (e.shift di).inProgrammingCycle = e.inProgrammingCycle := rfl
@[simp] theorem Eeprom.shift_busyCounter (di : Bool) : (e.shift di).busyCounter = e.busyCounter := rfl
@[simp] theorem Eeprom.shift_lastCs (di : Bool) : (e.shift di).lastCs = e.lastCs := rfl
@[simp] theorem Eeprom.shift_lastClk (di : Bool) : (e.shift di).lastClk = e.lastClk := rfl
@[simp] theorem Eeprom.shift_outputBit (di : Bool) : (e.shift di).outputBit = e.outputBit := rfl
@[simp] theorem Eeprom.shift_iodir (di : Bool) : (e.shift di).iodir = e.iodir := rfl
@[simp] theorem Eeprom.shift_iodat (di : Bool) : (e.shift di).iodat = e.iodat := rfl

@[simp] theorem Eeprom.readCmd_device (a : Nat) : (e.readCmd a).device = e.device := rfl
@[simp] theorem Eeprom.readCmd_eightBit (a : Nat) : (e.readCmd a).eightBit = e.eightBit := rfl
@[simp] theorem Eeprom.readCmd_protocolState (a : Nat) : (e.readCmd a).protocolState = .wait := rfl
@[simp] theorem Eeprom.readCmd_shiftAccumulator (a : Nat) : (e.readCmd a).shiftAccumulator = e.shiftAccumulator := rfl
@[simp] theorem Eeprom.readCmd_selectedAddress (a : Nat) : (e.readCmd a).selectedAddress = e.selectedAddress := rfl
@[simp] theorem Eeprom.readCmd_pendingReadValue (a : Nat) : (e.readCmd a).pendingReadValue = e.cell a := rfl
@[simp] theorem Eeprom.readCmd_storage (a : Nat) : (e.readCmd a).storage = e.storage := rfl
@[simp] theorem Eeprom.readCmd_writeProtected (a : Nat) : (e.readCmd a).writeProtected = e.writeProtected := rfl
@[simp] theorem Eeprom.readCmd_isDirty (a : Nat) : (e.readCmd a).isDirty = e.isDirty := rfl
@[simp] theorem Eeprom.readCmd_inProgrammingCycle (a : Nat) : (e.readCmd a).inProgrammingCycle = e.inProgrammingCycle := rfl
@[simp] theorem Eeprom.readCmd_busyCounter (a : Nat) : (e.readCmd a).busyCounter = e.busyCounter := rfl
@[simp] theorem Eeprom.readCmd_lastCs (a : Nat) : (e.readCmd a).lastCs = e.lastCs := rfl
@[simp] theorem Eeprom.readCmd_lastClk (a : Nat) : (e.readCmd a).lastClk = e.lastClk := rfl
@[simp] theorem Eeprom.readCmd_outputBit (a : Nat) : (e.readCmd a).outputBit = false := rfl
@[simp] theorem Eeprom.readCmd_iodir (a : Nat) : (e.readCmd a).iodir = e.iodir := rfl
@[simp] theorem Eeprom.readCmd_iodat (a : Nat) : (e.readCmd a).iodat = e.iodat := rfl

@[simp] theorem Eeprom.writeCmd_device : (e.writeCmd).device = e.device := rfl
@[simp] theorem Eeprom.writeCmd_eightBit : (e.writeCmd).eightBit = e.eightBit := rfl
@[simp] theorem Eeprom.writeCmd_protocolState : (e.writeCmd).protocolState = .data := rfl
@[simp] theorem Eeprom.writeCmd_shiftAccumulator : (e.writeCmd).shiftAccumulator = 1#32 := rfl
@[simp] theorem Eeprom.writeCmd_selectedAddress : (e.writeCmd).selectedAddress = e.selectedAddress := rfl
@[simp] theorem Eeprom.writeCmd_pendingReadValue : (e.writeCmd).pendingReadValue = e.pendingReadValue := rfl
@[simp] theorem Eeprom.writeCmd_storage : (e.writeCmd).storage = e.storage := rfl
@[simp] theorem Eeprom.writeCmd_writeProtected : (e.writeCmd).writeProtected = e.writeProtected := rfl
@[simp] theorem Eeprom.writeCmd_isDirty : (e.writeCmd).isDirty = e.isDirty := rfl
@[simp] theorem Eeprom.writeCmd_inProgrammingCycle : (e.writeCmd).inProgrammingCycle = e.inProgrammingCycle := rfl
@[simp] theorem Eeprom.writeCmd_busyCounter : (e.writeCmd).busyCounter = e.busyCounter := rfl
@[simp] theorem Eeprom.writeCmd_lastCs : (e.writeCmd).lastCs = e.lastCs := rfl
@[simp] theorem Eeprom.writeCmd_lastClk : (e.writeCmd).lastClk = e.lastClk := rfl
@[simp] theorem Eeprom.writeCmd_outputBit : (e.writeCmd).outputBit = e.outputBit := rfl
@[simp] theorem Eeprom.writeCmd_iodir : (e.writeCmd).iodir = e.iodir := rfl
@[simp] theorem Eeprom.writeCmd_iodat : (e.writeCmd).iodat = e.iodat := rfl

@[simp] theorem Eeprom.setCell_device (a : Nat) (v : BitVec 16) : (e.setCell a v).device = e.device := rfl
@[simp] theorem Eeprom.setCell_eightBit (a : Nat) (v : BitVec 16) : (e.setCell a v).eightBit = e.eightBit := rfl
@[simp] theorem Eeprom.setCell_protocolState (a : Nat) (v : BitVec 16) : (e.setCell a v).protocolState = e.protocolState := rfl
@[simp] theorem Eeprom.setCell_shiftAccumulator (a : Nat) (v : BitVec 16) : (e.setCell a v).shiftAccumulator = e.shiftAccumulator := rfl
@[simp] theorem Eeprom.setCell_selectedAddress (a : Nat) (v : BitVec 16) : (e.setCell a v).selectedAddress = e.selectedAddress := rfl
@[simp] theorem Eeprom.setCell_pendingReadValue (a : Nat) (v : BitVec 16) : (e.setCell a v).pendingReadValue = e.pendingReadValue := rfl
@[simp] theorem Eeprom.setCell_storage (a : Nat) (v : BitVec 16) : (e.setCell a v).storage = (if e.eightBit then setCell8 e.storage a (v.truncate 8) else e.storage.write a v) := rfl
@[simp] theorem Eeprom.setCell_writeProtected (a : Nat) (v : BitVec 16) : (e.setCell a v).writeProtected = e.writeProtected := rfl
@[simp] theorem Eeprom.setCell_isDirty (a : Nat) (v : BitVec 16) : (e.setCell a v).isDirty = e.isDirty := rfl
@[simp] theorem Eeprom.setCell_inProgrammingCycle (a : Nat) (v : BitVec 16) : (e.setCell a v).inProgrammingCycle = e.inProgrammingCycle := rfl
@[simp] theorem Eeprom.setCell_busyCounter (a : Nat) (v : BitVec 16) : (e.setCell a v).busyCounter = e.busyCounter := rfl
@[simp] theorem Eeprom.setCell_lastCs (a : Nat) (v : BitVec 16) : (e.setCell a v).lastCs = e.lastCs := rfl
@[simp] theorem Eeprom.setCell_lastClk (a : Nat) (v : BitVec 16) : (e.setCell a v).lastClk = e.lastClk := rfl
@[simp] theorem Eeprom.setCell_outputBit (a : Nat) (v : BitVec 16) : (e.setCell a v).outputBit = e.outputBit := rfl
@[simp] theorem Eeprom.setCell_iodir (a : Nat) (v : BitVec 16) : (e.setCell a v).iodir = e.iodir := rfl
@[simp] theorem Eeprom.setCell_iodat (a : Nat) (v : BitVec 16) : (e.setCell a v).iodat = e.iodat := rfl

@[simp] theorem Eeprom.program_device (a : Nat) (v : BitVec 16) : (e.program a v).device = e.device := by
  unfold Eeprom.program; split <;> rfl
@[simp] theorem Eeprom.program_eightBit (a : Nat) (v : BitVec 16) : (e.program a v).eightBit = e.eightBit := by
  unfold Eeprom.program; split <;> rfl
@[simp] theorem Eeprom.program_protocolState (a : Nat) (v : BitVec 16) : (e.program a v).protocolState = e.protocolState := by
  unfold Eeprom.program; split <;> rfl
@[simp] theorem Eeprom.program_shiftAccumulator (a : Nat) (v : BitVec 16) : (e.program a v).shiftAccumulator = e.shiftAccumulator := by
  unfold Eeprom.program; split <;> rfl
@[simp] theorem Eeprom.program_selectedAddress (a : Nat) (v : BitVec 16) : (e.program a v).selectedAddress = e.selectedAddress := by
  unfold Eeprom.program; split <;> rfl
@[simp] theorem Eeprom.program_pendingReadValue (a : Nat) (v : BitVec 16) : (e.program a v).pendingReadValue = e.pendingReadValue := by
  unfold Eeprom.program; split <;> rfl
@[simp] theorem Eeprom.program_writeProtected (a : Nat) (v : BitVec 16) : (e.program a v).writeProtected = e.writeProtected := by
  unfold Eeprom.program; split <;> rfl
@[simp] theorem Eeprom.program_inProgrammingCycle (a : Nat) (v : BitVec 16) : (e.program a v).inProgrammingCycle = e.inProgrammingCycle := by
  unfold Eeprom.program; split <;> rfl
@[simp] theorem Eeprom.program_busyCounter (a : Nat) (v : BitVec 16) : (e.program a v).busyCounter = e.busyCounter := by
  unfold Eeprom.program; split <;> rfl
@[simp] theorem Eeprom.program_lastCs (a : Nat) (v : BitVec 16) : (e.program a v).lastCs = e.lastCs := by
  unfold Eeprom.program; split <;> rfl
@[simp] theorem Eeprom.program_lastClk (a : Nat) (v : BitVec 16) : (e.program a v).lastClk = e.lastClk := by
  unfold Eeprom.program; split <;> rfl
@[simp] theorem Eeprom.program_outputBit (a : Nat) (v : BitVec 16) : (e.program a v).outputBit = e.outputBit := by
  unfold Eeprom.program; split <;> rfl
@[simp] theorem Eeprom.program_iodir (a : Nat) (v : BitVec 16) : (e.program a v).iodir = e.iodir := by
  unfold Eeprom.program; split <;> rfl
@[simp] theorem Eeprom.program_iodat (a : Nat) (v : BitVec 16) : (e.program a v).iodat = e.iodat := by
  unfold Eeprom.program; split <;> rfl

end Sys2Proof.Machine
end

