-- ==== Sys2Proof/Laws/Bank.lean ====
section
/-! SUPPORT. The laws of the bank slots: what one slot's well-formedness says, what the store of a WRITE and an admitted
configuration do to the banks, and that both keep them well-formed. -/

namespace Sys2Proof.Machine

/-! ### Slots -/

theorem Slot.wf_iff {v : Slot} :
    v.wf = true ↔ v.content.wf = true ∧ v.content.below v.geometry.size = true := by simp [Slot.wf]

/-- A byte at or beyond the size reads as FILL in a well-formed slot. -/
theorem Slot.read_beyond {v : Slot} (h : v.wf = true) {a : Nat} (ha : v.geometry.size ≤ a) :
    v.content.read a = 0xFF#8 := Memory.read_of_below (Slot.wf_iff.1 h).2 ha

theorem Slot.wf_unconfigured : Slot.unconfigured.wf = true := rfl

theorem Slot.wf_configuredSlot (g : Geometry) (data : List Byte) : (configuredSlot g data).wf = true := by
  refine Slot.wf_iff.2 ⟨Memory.wf_ofValues _ _, Memory.below_ofValues ?_⟩
  exact (List.length_take_le _ _)

/-- A byte of a configured slot below its size is the byte of the data. -/
theorem Slot.read_configuredSlot (g : Geometry) (data : List Byte) {a : Nat} (ha : a < g.size) :
    (configuredSlot g data).content.read a = data.getD a 0xFF#8 := by
  rw [configuredSlot, Memory.read_ofValues]
  by_cases h : a < data.length
  · simp [h, ha]
  · simp [h]

/-! ### Banks -/

/-- The well-formedness of the banks, clause by clause. -/
theorem Banks.wf_iff {b : Banks} :
    b.wf = true ↔ (∀ k, (b.slot k).wf = true)
      ∧ (b.isRam = true → b.b1.geometry ≠ .empty)
      ∧ (b.shadow = true → b.isRam = true ∧ b.b1.geometry = .pages Config.shadowShift)
      ∧ (b.dirty = true → b.isRam = true ∧ b.writeEnabled = true) := by
  have hk : (∀ k, (b.slot k).wf = true) ↔
      b.b0.wf = true ∧ b.b1.wf = true ∧ b.b0a.wf = true ∧ b.b1a.wf = true :=
    ⟨fun h => ⟨h .b0, h .b1, h .b0a, h .b1a⟩, fun ⟨h1, h2, h3, h4⟩ k => by cases k <;> assumption⟩
  rw [hk]
  unfold Banks.wf
  cases b.isRam <;> cases b.shadow <;> cases b.dirty <;> cases b.writeEnabled <;> simp [and_assoc]

theorem Banks.stores_iff {b : Banks} {k : SlotId} :
    b.stores k = true ↔ k = .b1 ∧ b.isRam = true ∧ b.writeEnabled = true ∧ 0 < b.b1.geometry.size := by
  simp [Banks.stores, and_assoc]

/-- The store of a WRITE, in one line for both cases. -/
theorem State.offer_eq (s : State) (k : SlotId) (v : Byte) :
    s.offer k v = { s with banks := if s.banks.stores k then s.banks.storeB1 (s.addressFor .b1) v else s.banks } := by
  unfold State.offer
  split <;> rfl

theorem Banks.wf_storeB1 {b : Banks} (h : b.wf = true) (hs : b.stores .b1 = true) {a : Nat}
    (ha : a < b.b1.geometry.size) (v : Byte) : (b.storeB1 a v).wf = true := by
  obtain ⟨hk, h1, h2, -⟩ := Banks.wf_iff.1 h
  obtain ⟨-, hr, hw, -⟩ := Banks.stores_iff.1 hs
  have hb := Slot.wf_iff.1 (hk .b1)
  refine Banks.wf_iff.2 ⟨fun k => ?_, h1, h2, fun _ => ⟨hr, hw⟩⟩
  cases k with
  | b0 => exact hk .b0
  | b1 => exact Slot.wf_iff.2 ⟨Memory.wf_write _ _ hb.1, Memory.below_write ha hb.2⟩
  | b0a => exact hk .b0a
  | b1a => exact hk .b1a

/-! ### The counter advance -/

theorem State.advance_regs (s : State) :
    s.advance.regs = if s.regs.strobeLevel then s.regs else { s.regs with pageOffset := s.regs.pageOffset + 1#11 } := by
  unfold State.advance; split <;> rfl

@[simp] theorem State.advance_banks (s : State) : s.advance.banks = s.banks := by unfold State.advance; split <;> rfl

theorem State.advance_eeprom (s : State) :
    s.advance.eeprom = if s.regs.strobeLevel then s.eeprom
      else s.eeprom.map (Eeprom.notify · ((s.regs.pageOffset + 1#11).zeroExtend 16)) := by
  unfold State.advance; split <;> rfl

@[simp] theorem State.advance_result (s : State) : s.advance.result = s.result := by unfold State.advance; split <;> rfl

@[simp] theorem State.advance_pending (s : State) : s.advance.pending = s.pending := by
  unfold State.advance; split <;> rfl

@[simp] theorem State.advance_position (s : State) : s.advance.position = s.position := by
  unfold State.advance; split <;> rfl

@[simp] theorem State.strobeReset_banks (s : State) (l : Bool) : (s.strobeReset l).banks = s.banks := by
  cases l <;> rfl

/-! ### Configuration -/

/-- Everything an admitted configuration meets: the requested geometry, and none of the conditions 2 to 5 of
40_bank_engine.md R142. -/
theorem admissible_some {k : SlotId} {ps : BitVec 16} {ram shadow we : Bool} {n : Nat} {g : Geometry}
    (h : admissible k ps ram shadow we n = some g) :
    requestedGeometry k ps shadow = some g ∧ (k ≠ .b1 → ram = false ∧ shadow = false ∧ we = false)
      ∧ (shadow = true → ps = 0#16) ∧ (ram = true → ps ≠ 0#16) ∧ g.size ≤ n := by
  unfold admissible at h
  split at h
  · cases h
  · next g' hg =>
    split at h
    · cases h
    · next h2 =>
      split at h
      · cases h
      · next h3 =>
        split at h
        · cases h
        · next h4 =>
          split at h
          · cases h
          · next h5 =>
            cases h
            refine ⟨hg, fun hk => ?_, fun hs => ?_, fun hr hp => h4 ⟨hr, hp⟩, Nat.le_of_not_lt h5⟩
            · cases ram <;> cases shadow <;> cases we <;> simp_all
            · by_contra hp
              exact h3 ⟨hs, hp⟩

/-- The banks after an admitted configuration, slot by slot and attribute by attribute. -/
theorem Banks.configure_slot (b : Banks) (k j : SlotId) (g : Geometry) (ram shadow we : Bool) (data : List Byte) :
    (b.configure k g ram shadow we data).slot j = if j = k then configuredSlot g data else b.slot j := by
  cases k <;> cases j <;> rfl

theorem Banks.configure_attributes (b : Banks) (k : SlotId) (g : Geometry) (ram shadow we : Bool) (data : List Byte) :
    ((b.configure k g ram shadow we data).isRam = if k = .b1 then shadow || ram else b.isRam)
    ∧ ((b.configure k g ram shadow we data).writeEnabled = if k = .b1 then we else b.writeEnabled)
    ∧ ((b.configure k g ram shadow we data).shadow = if k = .b1 then shadow else b.shadow)
    ∧ ((b.configure k g ram shadow we data).dirty = if k = .b1 then false else b.dirty) := by
  cases k <;> exact ⟨rfl, rfl, rfl, rfl⟩

end Sys2Proof.Machine
end

