-- ==== Sys2Proof/Laws/Eeprom.lean ====
section
/-! SUPPORT. The laws of the EEPROM engine: cells and their addresses, the accumulator as a number, what one clock edge
can change, and that every operation keeps the storage well-formed. -/

namespace Sys2Proof.Machine

/-! ### Quantities of a device -/

theorem Eeprom.addrMask_and (e : Eeprom) (x : Nat) : x &&& e.addrMask = x % 2 ^ e.addrBits := by
  rw [Eeprom.addrMask, Nat.one_shiftLeft, Nat.and_two_pow_sub_one_eq_mod]

theorem Eeprom.addrBits_bounds (e : Eeprom) : 6 ≤ e.addrBits ∧ e.addrBits ≤ 11 := by
  unfold Eeprom.addrBits
  cases e.device <;> cases e.eightBit <;> decide

/-- The 16-bit cells the protocol reaches: all address values, or half of them in 8-bit mode (20_memory.md R85). -/
def Eeprom.reach (e : Eeprom) : Nat := if e.eightBit then 2 ^ (e.addrBits - 1) else 2 ^ e.addrBits

/-- The reachable cells are among the persisted ones (20_memory.md R85, R86). -/
theorem Eeprom.reach_le_cells (e : Eeprom) : e.reach ≤ deviceCells e.device := by
  unfold Eeprom.reach Eeprom.addrBits
  cases e.device <;> cases e.eightBit <;> decide

/-! ### Cells -/

theorem shiftRight_one (a : Nat) : a >>> 1 = a / 2 := by simp [Nat.shiftRight_succ]

theorem and_one (a : Nat) : a &&& 1 = a % 2 := by simp [Nat.and_one_is_mod]

theorem cell8_even (m : Memory 16) (a : Nat) : cell8 m (2 * a) = (m.read a).extractLsb' 0 8 := by
  have h1 : (2 * a) >>> 1 = a := by rw [shiftRight_one]; omega
  have h2 : 2 * a &&& 1 = 0 := by rw [and_one]; omega
  rw [cell8, h1, h2]
  ext j hj
  simp

theorem cell8_odd (m : Memory 16) (a : Nat) : cell8 m (2 * a + 1) = (m.read a).extractLsb' 8 8 := by
  have h1 : (2 * a + 1) >>> 1 = a := by rw [shiftRight_one]; omega
  have h2 : (2 * a + 1) &&& 1 = 1 := by rw [and_one]; omega
  rw [cell8, h1, h2]
  ext j hj
  simp

theorem setCell8_even (m : Memory 16) (a : Nat) (v : BitVec 8) :
    setCell8 m (2 * a) v = m.write a ((m.read a).extractLsb' 8 8 ++ v) := by
  have h1 : (2 * a) >>> 1 = a := by rw [shiftRight_one]; omega
  have h2 : 2 * a &&& 1 = 0 := by rw [and_one]; omega
  rw [setCell8, h1, h2]
  congr 1
  refine BitVec.eq_of_getLsbD_eq fun j hj => ?_
  rw [BitVec.getLsbD_append]
  interval_cases j <;> simp

theorem setCell8_odd (m : Memory 16) (a : Nat) (v : BitVec 8) :
    setCell8 m (2 * a + 1) v = m.write a (v ++ (m.read a).extractLsb' 0 8) := by
  have h1 : (2 * a + 1) >>> 1 = a := by rw [shiftRight_one]; omega
  have h2 : (2 * a + 1) &&& 1 = 1 := by rw [and_one]; omega
  rw [setCell8, h1, h2]
  congr 1
  refine BitVec.eq_of_getLsbD_eq fun j hj => ?_
  rw [BitVec.getLsbD_append]
  interval_cases j <;> simp

/-- The half of a 16-bit cell that a byte cell is, and the cell that a byte store writes. -/
theorem even_or_odd (a : Nat) : a = 2 * (a / 2) ∨ a = 2 * (a / 2) + 1 := by omega

theorem setCell8_write (m : Memory 16) (a : Nat) (v : BitVec 8) : ∃ x, setCell8 m a v = m.write (a / 2) x := by
  rcases even_or_odd a with h | h
  · exact ⟨_, by rw [h, setCell8_even]; congr 1; omega⟩
  · exact ⟨_, by rw [h, setCell8_odd]; congr 1; omega⟩

/-- A store writes one 16-bit cell: the addressed one, or the one whose half is addressed. -/
theorem Eeprom.setCell_write (e : Eeprom) (a : Nat) (v : BitVec 16) :
    ∃ x, e.setCell a v = { e with storage := e.storage.write (if e.eightBit then a / 2 else a) x } := by
  unfold Eeprom.setCell
  cases h : e.eightBit
  · exact ⟨v, by simp⟩
  · obtain ⟨x, hx⟩ := setCell8_write e.storage a (v.truncate 8)
    exact ⟨x, by simp only [if_true, hx]⟩

theorem Eeprom.cell_index_lt (e : Eeprom) {a : Nat} (h : a < 2 ^ e.addrBits) :
    (if e.eightBit then a / 2 else a) < e.reach := by
  have hb := e.addrBits_bounds
  unfold Eeprom.reach
  split
  · have : 2 ^ e.addrBits = 2 * 2 ^ (e.addrBits - 1) := by
      rw [← Nat.pow_succ']; congr 1; omega
    omega
  · exact h

/-! ### The accumulator as a number -/

theorem Eeprom.shift_toNat (e : Eeprom) (di : Bool) :
    (e.shift di).shiftAccumulator.toNat = (2 * e.shiftAccumulator.toNat + di.toNat) % 2 ^ 32 := by
  have hs : (e.shift di).shiftAccumulator = e.shiftAccumulator <<< 1 + (BitVec.ofBool di).zeroExtend 32 := by
    rw [Eeprom.shift_shiftAccumulator, BitVec.add_eq_or_of_and_eq_zero]
    ext j hj
    simp only [BitVec.getElem_and, BitVec.getElem_shiftLeft, BitVec.getElem_zero, Bool.and_eq_false_imp]
    intro h
    cases di
    · simp
    · simp at h ⊢; omega
  rw [hs, BitVec.toNat_add, BitVec.toNat_shiftLeft]
  have hd : ((BitVec.ofBool di).zeroExtend 32).toNat = di.toNat := by cases di <;> rfl
  rw [hd, Nat.shiftLeft_eq]
  omega

theorem Eeprom.shift_of_lt (e : Eeprom) (di : Bool) {x : Nat} (hx : e.shiftAccumulator = BitVec.ofNat 32 x)
    (h : 2 * x + 1 < 2 ^ 32) : e.shift di = { e with shiftAccumulator := BitVec.ofNat 32 (2 * x + di.toNat) } := by
  have hd : di.toNat ≤ 1 := di.toNat_le
  have : (e.shift di).shiftAccumulator = BitVec.ofNat 32 (2 * x + di.toNat) := by
    apply BitVec.eq_of_toNat_eq
    rw [Eeprom.shift_toNat, hx, BitVec.toNat_ofNat, BitVec.toNat_ofNat, Nat.mod_eq_of_lt (a := x) (by omega)]
  exact congrArg (fun x => { e with shiftAccumulator := x }) this

/-- A mask of one bit: the accumulator meets it exactly when the bit is set. -/
theorem and_one_shiftLeft_eq_zero (x : BitVec 32) {k : Nat} (hk : k < 32) :
    x &&& (1#32 <<< k) = 0#32 ↔ x.toNat.testBit k = false := by
  constructor
  · intro h
    have := congrArg (·.getLsbD k) h
    simpa [hk, BitVec.testBit_toNat] using this
  · intro h
    ext j hj
    by_cases hjk : j = k
    · subst hjk
      have : x[j] = false := by rw [← BitVec.getLsbD_eq_getElem hj, ← BitVec.testBit_toNat]; exact h
      simp [this]
    · simp only [BitVec.getElem_and, BitVec.getElem_shiftLeft, BitVec.getElem_zero, Bool.and_eq_false_imp,
        Bool.not_eq_true', decide_eq_false_iff_not]
      intro _
      by_cases hlt : j < k
      · simp [hlt]
      · simp [hlt]
        omega

theorem testBit_of_lt {x k : Nat} (h : x < 2 ^ k) : x.testBit k = false := Nat.testBit_lt_two_pow h

theorem testBit_of_between {x k : Nat} (h : 2 ^ k ≤ x) (h' : x < 2 ^ (k + 1)) : x.testBit k = true := by
  have hx : x = 2 ^ k + (x - 2 ^ k) := by omega
  have h2 : (x - 2 ^ k).testBit k = false := Nat.testBit_lt_two_pow (by rw [Nat.pow_succ] at h'; omega)
  rw [hx, Nat.testBit_two_pow_add_eq, h2]
  rfl

/-! ### What one clock edge can change -/

theorem Eeprom.masked_lt (e : Eeprom) (x : Nat) : x &&& e.addrMask < 2 ^ e.addrBits := by
  rw [e.addrMask_and]; exact Nat.mod_lt _ (by positivity)

/-- Everything the decode of a command can do: one of the four commands on the selected address. -/
theorem Eeprom.decodeCmd_cases (e : Eeprom) {P : Eeprom → Prop}
    (h : ∀ (f : Eeprom) (a : Nat), f = { e with selectedAddress := BitVec.ofNat 16 a } → a < 2 ^ f.addrBits →
      P (f.readCmd a) ∧ P f.writeCmd ∧ P (f.eraseCmd a) ∧ P { f with writeProtected := true, protocolState := .idle }
      ∧ P { f with writeProtected := false, protocolState := .idle } ∧ P { f with protocolState := .idle }) :
    P e.decodeCmd := by
  obtain ⟨h1, h2, h3, h4, h5, h6⟩ := h _ (e.shiftAccumulator.toNat &&& e.addrMask) rfl (e.masked_lt _)
  unfold Eeprom.decodeCmd
  dsimp only
  split
  · exact h1
  · split
    · exact h2
    · split
      · exact h3
      · unfold Eeprom.extendedCmd
        split
        · exact h4
        · split
          · exact h5
          · exact h6

/-- Everything one clock edge can do: a property holds after it if it holds of the state unchanged or shifted with or
without the step's effect. -/
theorem Eeprom.clockEdge_cases (e : Eeprom) (di : Bool) {P : Eeprom → Prop}
    (hidle : e.protocolState = .idle → P e ∧ P { e with shiftAccumulator := 1#32, protocolState := .address })
    (hshift : e.protocolState ≠ .idle → P (e.shift di))
    (hcmd : e.protocolState = .address → ∀ (f : Eeprom) (a : Nat),
      f = { e.shift di with selectedAddress := BitVec.ofNat 16 a } → a < 2 ^ f.addrBits →
      P (f.readCmd a) ∧ P f.writeCmd ∧ P (f.eraseCmd a) ∧ P { f with writeProtected := true, protocolState := .idle }
      ∧ P { f with writeProtected := false, protocolState := .idle } ∧ P { f with protocolState := .idle })
    (hdata : e.protocolState = .data → ∀ a v, a < 2 ^ e.addrBits →
      P { ((e.shift di).program a v).beginBusy with protocolState := .wait })
    (hwait : e.protocolState = .wait → e.inProgrammingCycle = false → ∀ o,
      P { e.shift di with outputBit := o, pendingReadValue := e.pendingReadValue <<< 1 }) :
    P (e.clockEdge di) := by
  unfold Eeprom.clockEdge
  split
  · next hs =>
    unfold Eeprom.startBit
    split
    · exact (hidle hs).2
    · exact (hidle hs).1
  · next hs =>
    unfold Eeprom.addressStep
    split
    · exact hshift (by simp [hs])
    · exact Eeprom.decodeCmd_cases _ (hcmd hs)
  · next hs =>
    unfold Eeprom.dataStep
    split
    · exact hshift (by simp [hs])
    · exact hdata hs _ _ ((e.shift di).masked_lt _)
  · next hs =>
    unfold Eeprom.waitStep
    split
    · exact hshift (by simp [hs])
    · next hp => exact hwait hs (by simpa using hp) _

/-- One clock edge changes neither the device, nor its mode, nor the last lines, nor the latches. -/
theorem Eeprom.clockEdge_keeps (e : Eeprom) (di : Bool) :
    (e.clockEdge di).device = e.device ∧ (e.clockEdge di).eightBit = e.eightBit
    ∧ (e.clockEdge di).lastCs = e.lastCs ∧ (e.clockEdge di).lastClk = e.lastClk
    ∧ (e.clockEdge di).iodir = e.iodir ∧ (e.clockEdge di).iodat = e.iodat := by
  refine Eeprom.clockEdge_cases e di
    (P := fun g => g.device = e.device ∧ g.eightBit = e.eightBit ∧ g.lastCs = e.lastCs ∧ g.lastClk = e.lastClk
      ∧ g.iodir = e.iodir ∧ g.iodat = e.iodat)
    (fun _ => by simp) (fun _ => by simp) (fun _ f a hf _ => ?_) (fun _ a v _ => by simp) (fun _ _ o => by simp)
  subst hf
  simp [Eeprom.eraseCmd]

/-- One clock edge writes at most one cell, one the address mask admits, and only when the device is not
write-protected (20_memory.md R85, 10_state.md R63). -/
theorem Eeprom.clockEdge_storage (e : Eeprom) (di : Bool) :
    ((e.clockEdge di).storage = e.storage ∧ (e.clockEdge di).isDirty = e.isDirty)
    ∨ ∃ k x, k < e.reach ∧ e.writeProtected = false ∧ (e.clockEdge di).storage = e.storage.write k x
      ∧ (e.clockEdge di).isDirty = true := by
  have hp : ∀ (f : Eeprom) (a : Nat) (v : BitVec 16), a < 2 ^ f.addrBits →
      ((f.program a v).storage = f.storage ∧ (f.program a v).isDirty = f.isDirty)
      ∨ ∃ k x, k < f.reach ∧ f.writeProtected = false ∧ (f.program a v).storage = f.storage.write k x
        ∧ (f.program a v).isDirty = true := by
    intro f a v ha
    obtain ⟨x, hx⟩ := f.setCell_write a v
    unfold Eeprom.program
    split
    · exact .inl ⟨rfl, rfl⟩
    · next hw => exact .inr ⟨_, x, f.cell_index_lt ha, by simpa using hw, by rw [hx], rfl⟩
  refine Eeprom.clockEdge_cases e di
    (P := fun g => (g.storage = e.storage ∧ g.isDirty = e.isDirty)
      ∨ ∃ k x, k < e.reach ∧ e.writeProtected = false ∧ g.storage = e.storage.write k x ∧ g.isDirty = true)
    (fun _ => by simp) (fun _ => by simp) (fun _ f a hf ha => ?_) (fun _ a v ha => hp (e.shift di) a v ha)
    (fun _ _ o => by simp)
  subst hf
  exact ⟨.inl ⟨rfl, rfl⟩, .inl ⟨rfl, rfl⟩, hp _ a _ ha, .inl ⟨rfl, rfl⟩, .inl ⟨rfl, rfl⟩, .inl ⟨rfl, rfl⟩⟩

/-- The notification as the CS step and then, on a processed edge, one clock edge. -/
theorem Eeprom.notify_eq (e : Eeprom) (c : BitVec 16) :
    e.notify c =
      if risingEdge (counterCs c) (counterClk c) e.lastClk then
        Eeprom.clockEdge { e.csStep (counterCs c) with lastClk := counterClk c } e.dataIn
      else { e.csStep (counterCs c) with lastClk := counterClk c } := by
  unfold Eeprom.notify
  dsimp only
  have : ({ e.csStep (counterCs c) with lastClk := counterClk c } : Eeprom).dataIn = e.dataIn := by
    unfold Eeprom.csStep Eeprom.dataIn; split <;> rfl
  rw [this]

theorem Eeprom.csStep_eq (e : Eeprom) (cs : Bool) :
    e.csStep cs = { e with
      protocolState := if cs = e.lastCs then e.protocolState else .idle
      shiftAccumulator := if cs = e.lastCs then e.shiftAccumulator else 0#32
      lastCs := cs } := by
  unfold Eeprom.csStep
  by_cases h : cs = e.lastCs
  · subst h; simp
  · simp [h]

/-- A notification keeps the device, its mode and the latches, and takes both lines from the counter. -/
theorem Eeprom.notify_keeps (e : Eeprom) (c : BitVec 16) :
    (e.notify c).device = e.device ∧ (e.notify c).eightBit = e.eightBit
    ∧ (e.notify c).lastCs = counterCs c ∧ (e.notify c).lastClk = counterClk c
    ∧ (e.notify c).iodir = e.iodir ∧ (e.notify c).iodat = e.iodat := by
  rw [Eeprom.notify_eq, Eeprom.csStep_eq]
  split
  · obtain ⟨h1, h2, h3, h4, h5, h6⟩ := Eeprom.clockEdge_keeps
      { e with
        protocolState := if counterCs c = e.lastCs then e.protocolState else .idle
        shiftAccumulator := if counterCs c = e.lastCs then e.shiftAccumulator else 0#32
        lastCs := counterCs c
        lastClk := counterClk c } e.dataIn
    exact ⟨h1, h2, h3, h4, h5, h6⟩
  · simp

/-- A notification writes at most one cell, as one clock edge does. -/
theorem Eeprom.notify_storage (e : Eeprom) (c : BitVec 16) :
    ((e.notify c).storage = e.storage ∧ (e.notify c).isDirty = e.isDirty)
    ∨ ∃ k x, k < e.reach ∧ e.writeProtected = false ∧ (e.notify c).storage = e.storage.write k x
      ∧ (e.notify c).isDirty = true := by
  rw [Eeprom.notify_eq, Eeprom.csStep_eq]
  split
  · exact Eeprom.clockEdge_storage
      { e with
        protocolState := if counterCs c = e.lastCs then e.protocolState else .idle
        shiftAccumulator := if counterCs c = e.lastCs then e.shiftAccumulator else 0#32
        lastCs := counterCs c
        lastClk := counterClk c } e.dataIn
  · exact .inl ⟨rfl, rfl⟩

theorem Eeprom.tick_keeps (e : Eeprom) :
    ∃ n o p, e.tick = { e with busyCounter := n, outputBit := o, inProgrammingCycle := p } := by
  unfold Eeprom.tick
  split
  · split
    · exact ⟨_, true, false, rfl⟩
    · exact ⟨_, e.outputBit, e.inProgrammingCycle, rfl⟩
  · exact ⟨e.busyCounter, e.outputBit, e.inProgrammingCycle, rfl⟩

/-! ### The storage stays well-formed -/

theorem Eeprom.wf_iff (e : Eeprom) :
    e.wf = true ↔ e.storage.wf = true ∧ e.storage.below (deviceCells e.device) = true := by
  simp [Eeprom.wf]

theorem Eeprom.wf_notify {e : Eeprom} (c : BitVec 16) (h : e.wf = true) : (e.notify c).wf = true := by
  obtain ⟨h1, h2⟩ := e.wf_iff.1 h
  rw [Eeprom.wf_iff, (e.notify_keeps c).1]
  rcases e.notify_storage c with ⟨hs, -⟩ | ⟨k, x, hk, -, hs, -⟩
  · rw [hs]; exact ⟨h1, h2⟩
  · rw [hs]
    exact ⟨Memory.wf_write k x h1, Memory.below_write (hk.trans_le e.reach_le_cells) h2⟩

theorem Eeprom.wf_tick {e : Eeprom} (h : e.wf = true) : e.tick.wf = true := by
  obtain ⟨n, o, p, ht⟩ := e.tick_keeps
  rw [ht]; exact h

theorem Eeprom.wf_fresh (d : Device) (e8 : Bool) : (Eeprom.fresh d e8).wf = true := rfl

end Sys2Proof.Machine
end

