-- ==== Sys2Proof/Laws/Clock.lean ====
section
/-! SUPPORT. The laws of a bit sequence clocked into the EEPROM: sequences split, the bits of a number, and what the bits
before the end of a command or of a payload do. -/

namespace Sys2Proof.Machine

/-! ### Bit sequences -/

@[simp] theorem Eeprom.clockBits_nil (e : Eeprom) : e.clockBits [] = e := rfl

@[simp] theorem Eeprom.clockBits_cons (e : Eeprom) (b : Bool) (bs : List Bool) :
    e.clockBits (b :: bs) = (e.clockEdge b).clockBits bs := rfl

theorem Eeprom.clockBits_append (e : Eeprom) (bs cs : List Bool) :
    e.clockBits (bs ++ cs) = (e.clockBits bs).clockBits cs := by
  simp [Eeprom.clockBits, List.foldl_append]

/-- Clocked bits change neither the device, nor its mode, nor the last lines, nor the latches. -/
theorem Eeprom.clockBits_keeps (bs : List Bool) : ∀ e : Eeprom,
    (e.clockBits bs).device = e.device ∧ (e.clockBits bs).eightBit = e.eightBit
    ∧ (e.clockBits bs).lastCs = e.lastCs ∧ (e.clockBits bs).lastClk = e.lastClk
    ∧ (e.clockBits bs).iodir = e.iodir ∧ (e.clockBits bs).iodat = e.iodat := by
  induction bs with
  | nil => simp
  | cons b bs ih =>
    intro e
    obtain ⟨h1, h2, h3, h4, h5, h6⟩ := ih (e.clockEdge b)
    obtain ⟨g1, g2, g3, g4, g5, g6⟩ := e.clockEdge_keeps b
    exact ⟨h1.trans g1, h2.trans g2, h3.trans g3, h4.trans g4, h5.trans g5, h6.trans g6⟩

@[simp] theorem length_msbBits (n v : Nat) : (msbBits n v).length = n := by
  induction n with
  | zero => rfl
  | succ n ih => simp [msbBits, ih]

/-- A number's bits from the top: those above position `m`, then the rest. -/
theorem msbBits_add (n m v : Nat) : msbBits (n + m) v = msbBits n (v / 2 ^ m) ++ msbBits m v := by
  induction n with
  | zero => simp [msbBits]
  | succ n ih =>
    have : n + 1 + m = (n + m) + 1 := by omega
    rw [this, msbBits, msbBits, ih, ← Nat.shiftRight_eq_div_pow, Nat.testBit_shiftRight, Nat.add_comm m n]
    rfl

theorem msbBits_mod (n m v : Nat) (h : n ≤ m) : msbBits n (v % 2 ^ m) = msbBits n v := by
  induction n with
  | zero => rfl
  | succ n ih =>
    rw [msbBits, msbBits, ih (by omega), Nat.testBit_mod_two_pow]
    simp [show n < m by omega]

/-- Appending a number's bits to other bits gives the bits of the two numbers together. -/
theorem msbBits_append (n m x v : Nat) (hv : v < 2 ^ m) :
    msbBits n x ++ msbBits m v = msbBits (n + m) (x * 2 ^ m + v) := by
  have hd : (x * 2 ^ m + v) / 2 ^ m = x := by
    rw [Nat.add_comm, Nat.add_mul_div_right _ _ (by positivity), Nat.div_eq_of_lt hv, Nat.zero_add]
  have hm : (x * 2 ^ m + v) % 2 ^ m = v := by
    rw [Nat.add_comm, Nat.add_mul_mod_self_right, Nat.mod_eq_of_lt hv]
  rw [msbBits_add, hd, ← msbBits_mod m m (x * 2 ^ m + v) le_rfl, hm]

/-! ### Bits before the end of a command or of a payload -/

/-- The accumulator after the bits of `v`, most significant first. -/
theorem clocked_step (x n v : Nat) :
    (2 * x + (v.testBit n).toNat) * 2 ^ n + v % 2 ^ n = x * 2 ^ (n + 1) + v % 2 ^ (n + 1) := by
  have h := Nat.mod_mul (a := 2 ^ n) (b := 2) (x := v)
  rw [Nat.pow_succ, h, Nat.toNat_testBit]
  ring

/-- In a state in which a bit whose accumulator stays below `2^k` only shifts, a whole sequence only shifts. -/
theorem Eeprom.clockBits_shift_only {e : Eeprom} {k : Nat}
    (hedge : ∀ (y : Nat) (di : Bool), 2 * y + di.toNat < 2 ^ k →
      Eeprom.clockEdge { e with shiftAccumulator := BitVec.ofNat 32 y } di
        = { e with shiftAccumulator := BitVec.ofNat 32 (2 * y + di.toNat) }) :
    ∀ (n x v : Nat), (x + 1) * 2 ^ n ≤ 2 ^ k →
      Eeprom.clockBits { e with shiftAccumulator := BitVec.ofNat 32 x } (msbBits n v)
        = { e with shiftAccumulator := BitVec.ofNat 32 (x * 2 ^ n + v % 2 ^ n) } := by
  intro n
  induction n with
  | zero => intro x v _; simp [msbBits, Nat.mod_one]
  | succ n ih =>
    intro x v h
    have hb : (v.testBit n).toNat ≤ 1 := Bool.toNat_le _
    have h2 : (2 * x + (v.testBit n).toNat + 1) * 2 ^ n ≤ 2 ^ k := by
      refine le_trans ?_ h
      rw [Nat.pow_succ, show (x + 1) * (2 ^ n * 2) = (2 * x + 2) * 2 ^ n by ring]
      exact Nat.mul_le_mul_right _ (by omega)
    have h1 : 2 * x + (v.testBit n).toNat < 2 ^ k :=
      lt_of_lt_of_le (Nat.lt_succ_self _) (le_trans (Nat.le_mul_of_pos_right _ (by positivity)) h2)
    rw [msbBits, Eeprom.clockBits_cons, hedge x _ h1, ih _ _ h2, clocked_step]

theorem Eeprom.clockEdge_of_address {e : Eeprom} (he : e.protocolState = .address) (di : Bool) :
    e.clockEdge di = (e.shift di).addressStep := by
  rw [Eeprom.clockEdge, he]

theorem Eeprom.clockEdge_of_data {e : Eeprom} (he : e.protocolState = .data) (di : Bool) :
    e.clockEdge di = (e.shift di).dataStep := by
  rw [Eeprom.clockEdge, he]

theorem Eeprom.clockEdge_of_wait {e : Eeprom} (he : e.protocolState = .wait) (di : Bool) :
    e.clockEdge di = (e.shift di).waitStep := by
  rw [Eeprom.clockEdge, he]

/-- A bit that leaves a command incomplete only shifts (41_eeprom.md R192). -/
theorem Eeprom.clockEdge_address {e : Eeprom} (he : e.protocolState = .address) (x : Nat) (di : Bool)
    (h : 2 * x + di.toNat < 2 ^ (e.addrBits + 2)) :
    Eeprom.clockEdge { e with shiftAccumulator := BitVec.ofNat 32 x } di
      = { e with shiftAccumulator := BitVec.ofNat 32 (2 * x + di.toNat) } := by
  have hb := e.addrBits_bounds
  have hp : 2 ^ (e.addrBits + 2) ≤ 2 ^ 13 := Nat.pow_le_pow_right (by omega) (by omega)
  have hd : di.toNat ≤ 1 := di.toNat_le
  have hs := Eeprom.shift_of_lt { e with shiftAccumulator := BitVec.ofNat 32 x } di (x := x) rfl (by omega)
  rw [Eeprom.clockEdge_of_address (e := { e with shiftAccumulator := BitVec.ofNat 32 x }) he, hs, Eeprom.addressStep]
  refine if_pos ?_
  rw [Eeprom.doneMask, and_one_shiftLeft_eq_zero _ (show _ < 32 by show e.addrBits + 2 < 32; omega)]
  show (BitVec.ofNat 32 _).toNat.testBit (e.addrBits + 2) = false
  rw [BitVec.toNat_ofNat, Nat.mod_eq_of_lt (by omega)]
  exact testBit_of_lt h

/-- The bit that completes a command decodes it (41_eeprom.md R192). -/
theorem Eeprom.clockEdge_address_last {e : Eeprom} (he : e.protocolState = .address) (x : Nat) (di : Bool)
    (h : 2 ^ (e.addrBits + 2) ≤ 2 * x + di.toNat) (h' : 2 * x + di.toNat < 2 ^ (e.addrBits + 3)) :
    Eeprom.clockEdge { e with shiftAccumulator := BitVec.ofNat 32 x } di
      = Eeprom.decodeCmd { e with shiftAccumulator := BitVec.ofNat 32 (2 * x + di.toNat) } := by
  have hb := e.addrBits_bounds
  have hp : 2 ^ (e.addrBits + 3) ≤ 2 ^ 14 := Nat.pow_le_pow_right (by omega) (by omega)
  have hd : di.toNat ≤ 1 := di.toNat_le
  have hs := Eeprom.shift_of_lt { e with shiftAccumulator := BitVec.ofNat 32 x } di (x := x) rfl (by omega)
  rw [Eeprom.clockEdge_of_address (e := { e with shiftAccumulator := BitVec.ofNat 32 x }) he, hs, Eeprom.addressStep]
  refine if_neg ?_
  rw [Eeprom.doneMask, and_one_shiftLeft_eq_zero _ (show _ < 32 by show e.addrBits + 2 < 32; omega)]
  show ¬ (BitVec.ofNat 32 _).toNat.testBit (e.addrBits + 2) = false
  rw [BitVec.toNat_ofNat, Nat.mod_eq_of_lt (by omega), testBit_of_between h h']
  simp

/-- The decode of an accumulator that holds the start bit, an opcode and an address. -/
theorem Eeprom.decodeCmd_of {e : Eeprom} {op a : Nat} (hop : op < 4) (ha : a < 2 ^ e.addrBits)
    (hacc : e.shiftAccumulator.toNat = (4 + op) * 2 ^ e.addrBits + a) :
    e.decodeCmd =
      let f := { e with selectedAddress := BitVec.ofNat 16 a }
      if op = 2 then f.readCmd a else if op = 1 then f.writeCmd else if op = 3 then f.eraseCmd a else f.extendedCmd a := by
  have hp : 0 < 2 ^ e.addrBits := by positivity
  have hm : ((4 + op) * 2 ^ e.addrBits + a) % 2 ^ e.addrBits = a := by
    rw [Nat.add_comm, Nat.add_mul_mod_self_right, Nat.mod_eq_of_lt ha]
  have hd : ((4 + op) * 2 ^ e.addrBits + a) / 2 ^ e.addrBits = 4 + op := by
    rw [Nat.add_comm, Nat.add_mul_div_right _ _ hp, Nat.div_eq_of_lt ha, Nat.zero_add]
  have h3 : ((4 + op) * 2 ^ e.addrBits + a) >>> e.addrBits &&& 3 = op := by
    rw [Nat.shiftRight_eq_div_pow, hd, show (3 : Nat) = 2 ^ 2 - 1 from rfl, Nat.and_two_pow_sub_one_eq_mod]
    omega
  unfold Eeprom.decodeCmd
  dsimp only
  rw [hacc, Eeprom.addrMask_and, hm, h3]

theorem Eeprom.dataMask_eq (e : Eeprom) : e.dataMask = 1#32 <<< e.dataBits := by
  unfold Eeprom.dataMask Eeprom.dataBits
  cases e.eightBit <;> rfl

theorem Eeprom.dataBits_bounds (e : Eeprom) : 8 ≤ e.dataBits ∧ e.dataBits ≤ 16 := by
  unfold Eeprom.dataBits
  cases e.eightBit <;> decide

/-- A bit that leaves a payload incomplete only shifts (41_eeprom.md R197). -/
theorem Eeprom.clockEdge_data {e : Eeprom} (he : e.protocolState = .data) (x : Nat) (di : Bool)
    (h : 2 * x + di.toNat < 2 ^ e.dataBits) :
    Eeprom.clockEdge { e with shiftAccumulator := BitVec.ofNat 32 x } di
      = { e with shiftAccumulator := BitVec.ofNat 32 (2 * x + di.toNat) } := by
  have hb := e.dataBits_bounds
  have hp : 2 ^ e.dataBits ≤ 2 ^ 16 := Nat.pow_le_pow_right (by omega) (by omega)
  have hd : di.toNat ≤ 1 := di.toNat_le
  have hs := Eeprom.shift_of_lt { e with shiftAccumulator := BitVec.ofNat 32 x } di (x := x) rfl (by omega)
  rw [Eeprom.clockEdge_of_data (e := { e with shiftAccumulator := BitVec.ofNat 32 x }) he, hs, Eeprom.dataStep]
  refine if_pos ?_
  rw [Eeprom.dataMask_eq, and_one_shiftLeft_eq_zero _ (show _ < 32 by show e.dataBits < 32; omega)]
  show (BitVec.ofNat 32 _).toNat.testBit e.dataBits = false
  rw [BitVec.toNat_ofNat, Nat.mod_eq_of_lt (by omega)]
  exact testBit_of_lt h

end Sys2Proof.Machine
end

