-- ==== Sys2Proof/Laws/Decode.lean ====
section
/-! SUPPORT. The opcode table has no two rows that match one word, so a row that matches a word is the row the decoder
takes. -/

namespace Sys2Proof

/-- No word matches both rows: where both masks look, the two patterns differ. -/
def OpcodeRow.disjoint (r q : OpcodeRow) : Bool := r.bits &&& q.mask != q.bits &&& r.mask

theorem OpcodeRow.not_both_match {r q : OpcodeRow} {w : Word} (h : r.disjoint q = true) (hr : r.matchesWord w = true) :
    q.matchesWord w = false := by
  simp only [OpcodeRow.disjoint, OpcodeRow.matchesWord, bne_iff_ne, ne_eq, beq_iff_eq, beq_eq_false_iff_ne] at *
  intro hq
  refine h ?_
  rw [← hr, ← hq]
  ac_rfl

/-- The rows of the table are pairwise disjoint (30_encoding.md R121). -/
theorem opcodeRows_disjoint : opcodeRows.Pairwise (fun r q => r.disjoint q = true) := by decide

theorem find_of_mem {l : List OpcodeRow} (hl : l.Pairwise fun r q => r.disjoint q = true) {r : OpcodeRow} {w : Word}
    (hr : r ∈ l) (hw : r.matchesWord w = true) : l.find? (·.matchesWord w) = some r := by
  induction l with
  | nil => simp at hr
  | cons q l ih =>
    rw [List.pairwise_cons] at hl
    rcases List.mem_cons.1 hr with rfl | hr
    · simp [hw]
    · have hd := hl.1 r hr
      have hq : q.matchesWord w = false := by
        cases hq : q.matchesWord w with
        | false => rfl
        | true => rw [OpcodeRow.not_both_match hd hq] at hw; simp at hw
      rw [List.find?_cons, hq]
      exact ih hl.2 hr

/-- The decoder gives what the matching row gives. -/
theorem decode_of_row {r : OpcodeRow} {w : Word} (hr : r ∈ opcodeRows) (hw : r.matchesWord w = true) :
    decode w = r.operands w := by
  simp only [decode, find_of_mem opcodeRows_disjoint hr hw]

/-- What the decoder admits, a row of the table matches and gives. -/
theorem row_of_decode {w : Word} {i : Instr} (h : decode w = some i) :
    ∃ r ∈ opcodeRows, r.matchesWord w = true ∧ r.operands w = some i := by
  simp only [decode] at h
  split at h
  · simp at h
  · next r hr => exact ⟨r, List.mem_of_find?_eq_some hr, List.find?_some (p := fun r : OpcodeRow => r.matchesWord w) hr, h⟩

/-- A word that agrees with a row's pattern wherever its mask looks matches the row. -/
theorem matches_of_bits {w m b : Word} (h : ∀ j < 32, m.getLsbD j = true → w.getLsbD j = b.getLsbD j) (hb : b &&& m = b) :
    w &&& m = b := by
  rw [← hb]
  refine BitVec.eq_of_getLsbD_eq fun j hj => ?_
  rw [BitVec.getLsbD_and, BitVec.getLsbD_and]
  cases hm : m.getLsbD j
  · simp
  · simp [h j hj hm]

/-- A word that matches a row has the pattern's bits wherever the mask looks. -/
theorem bits_of_matches {w m b : Word} (h : w &&& m = b) {j : Nat} (hj : m.getLsbD j = true) :
    w.getLsbD j = b.getLsbD j := by
  rw [← h, BitVec.getLsbD_and, hj, Bool.and_true]

@[simp] theorem SlotId.ofSelector_selector (k : SlotId) : SlotId.ofSelector k.selector = k := by
  cases k <;> rfl

theorem SlotId.selector_ofSelector (b : BitVec 2) : (SlotId.ofSelector b).selector = b := by
  revert b; decide

@[simp] theorem deviceOfCode_deviceCode (d : Option Device) : deviceOfCode (deviceCode d) = some d := by
  rcases d with _ | d
  · rfl
  · cases d <;> rfl

end Sys2Proof
end

