-- ==== Sys2Proof/Laws/PerInstr.lean ====
section
/-! SUPPORT. Family EncodedRow: the word of every well-formed operation matches a row of the opcode table whose operand
fields give the operation back. -/

namespace Sys2Proof.Laws.EncodedRow

/-- The encoded word matches a row whose operands are the operation (30_encoding.md R121, R122). -/
def Statement (i : Instr) : Prop :=
  i.wellFormed = true → ∃ r ∈ opcodeRows, r.matchesWord (encode i) = true ∧ r.operands (encode i) = some i

/-- A row of the table, by its place in it. -/
theorem of_row {i : Instr} (n : Nat) (h : n < opcodeRows.length)
    (hm : encode i &&& (opcodeRows[n]'h).mask = (opcodeRows[n]'h).bits)
    (ho : (opcodeRows[n]'h).operands (encode i) = some i) : Statement i :=
  fun _ => ⟨opcodeRows[n]'h, List.getElem_mem h, by simpa [OpcodeRow.matchesWord] using hm, ho⟩

theorem read (b : SlotId) : Statement (.read b) := of_row 0 (by decide) (by cases b <;> decide) (by cases b <;> decide)
theorem peek (b : SlotId) : Statement (.peek b) := of_row 1 (by decide) (by cases b <;> decide) (by cases b <;> decide)

theorem write (b : SlotId) (v : Byte) : Statement (.write b v) := by
  refine of_row 2 (by decide) ?_ ?_
  · show (0x30000000#32 ||| (b.selector.zeroExtend 32 <<< 8) ||| v.zeroExtend 32) &&& 0xFFFFFC00#32 = 0x30000000#32
    ext j hj
    interval_cases j <;> simp
  · have h1 : (encode (.write b v)).extractLsb' 8 2 = b.selector := by
      ext j hj; interval_cases j <;> simp [encode]
    have h2 : (encode (.write b v)).extractLsb' 0 8 = v := by
      ext j hj; interval_cases j <;> simp [encode]
    show some (Instr.write (.ofSelector ((encode (.write b v)).extractLsb' 8 2)) ((encode (.write b v)).extractLsb' 0 8)) = _
    rw [h1, h2, SlotId.ofSelector_selector]

theorem strobe (l : Bool) : Statement (.strobe l) := of_row 3 (by decide) (by cases l <;> decide) (by cases l <;> decide)
theorem setBit (l : Bool) : Statement (.setBit l) := of_row 4 (by decide) (by cases l <;> decide) (by cases l <;> decide)

theorem setIo (dir dat : Byte) : Statement (.setIo dir dat) := by
  refine of_row 5 (by decide) ?_ ?_
  · show (0x60000000#32 ||| (dir.zeroExtend 32 <<< 8) ||| dat.zeroExtend 32) &&& 0xFFFF0000#32 = 0x60000000#32
    ext j hj
    interval_cases j <;> simp
  · have h1 : (encode (.setIo dir dat)).extractLsb' 8 8 = dir := by
      ext j hj; interval_cases j <;> simp [encode]
    have h2 : (encode (.setIo dir dat)).extractLsb' 0 8 = dat := by
      ext j hj; interval_cases j <;> simp [encode]
    show some (Instr.setIo ((encode (.setIo dir dat)).extractLsb' 8 8) ((encode (.setIo dir dat)).extractLsb' 0 8)) = _
    rw [h1, h2]

theorem notifyCounter (c : BitVec 16) : Statement (.notifyCounter c) := by
  refine of_row 6 (by decide) ?_ ?_
  · show (0x90000000#32 ||| c.zeroExtend 32) &&& 0xFFFF0000#32 = 0x90000000#32
    ext j hj
    interval_cases j <;> simp
  · have h1 : (encode (.notifyCounter c)).extractLsb' 0 16 = c := by
      ext j hj; interval_cases j <;> simp [encode]
    show some (Instr.notifyCounter ((encode (.notifyCounter c)).extractLsb' 0 16)) = _
    rw [h1]

section configureBankFields

variable (cb : SlotId) (ps : BitVec 16) (ram shadow we : Bool)

theorem configureBank_row : encode (.configureBank cb ps ram shadow we) &&& 0xFFE00000#32 = 0xC0000000#32 := by
  ext j hj
  interval_cases j <;> simp [encode, levelBit]

theorem configureBank_cb : (encode (.configureBank cb ps ram shadow we)).extractLsb' 16 2 = cb.selector := by
  ext j hj
  interval_cases j <;> simp [encode, levelBit]

theorem configureBank_ps : (encode (.configureBank cb ps ram shadow we)).extractLsb' 0 16 = ps := by
  ext j hj
  interval_cases j <;> simp [encode, levelBit]

theorem configureBank_flags :
    (encode (.configureBank cb ps ram shadow we)).getLsbD 18 = ram
    ∧ (encode (.configureBank cb ps ram shadow we)).getLsbD 19 = shadow
    ∧ (encode (.configureBank cb ps ram shadow we)).getLsbD 20 = we := by
  simp [encode, levelBit]

end configureBankFields

theorem configureBank (cb : SlotId) (ps : BitVec 16) (ram shadow we : Bool) :
    Statement (.configureBank cb ps ram shadow we) := by
  refine of_row 7 (by decide) (configureBank_row cb ps ram shadow we) ?_
  obtain ⟨h3, h4, h5⟩ := configureBank_flags cb ps ram shadow we
  show some (Instr.configureBank (.ofSelector ((encode (.configureBank cb ps ram shadow we)).extractLsb' 16 2))
    ((encode (.configureBank cb ps ram shadow we)).extractLsb' 0 16)
    ((encode (.configureBank cb ps ram shadow we)).getLsbD 18)
    ((encode (.configureBank cb ps ram shadow we)).getLsbD 19)
    ((encode (.configureBank cb ps ram shadow we)).getLsbD 20)) = _
  rw [configureBank_cb, configureBank_ps, h3, h4, h5, SlotId.ofSelector_selector]

theorem configureEeprom (type : Option Device) (e8 : Bool) : Statement (.configureEeprom type e8) := by
  intro h
  refine of_row 8 (by decide) ?_ ?_ h
  · rcases type with _ | d
    · cases e8 <;> decide
    · cases d <;> cases e8 <;> decide
  · rcases type with _ | d
    · cases e8
      · decide
      · simp [Instr.wellFormed] at h
    · cases d <;> cases e8 <;> decide

theorem tickBusy : Statement .tickBusy := of_row 9 (by decide) (by decide) (by decide)
theorem readOutput : Statement .readOutput := of_row 10 (by decide) (by decide) (by decide)
theorem clearDirtyBank1 : Statement .clearDirtyBank1 := of_row 11 (by decide) (by decide) (by decide)
theorem clearDirtyEeprom : Statement .clearDirtyEeprom := of_row 12 (by decide) (by decide) (by decide)
theorem queryDirtyBank1 : Statement .queryDirtyBank1 := of_row 13 (by decide) (by decide) (by decide)
theorem queryDirtyEeprom : Statement .queryDirtyEeprom := of_row 14 (by decide) (by decide) (by decide)
theorem softReset : Statement .softReset := of_row 15 (by decide) (by decide) (by decide)
theorem saveState : Statement .saveState := of_row 16 (by decide) (by decide) (by decide)
theorem loadState : Statement .loadState := of_row 17 (by decide) (by decide) (by decide)
theorem saveEeprom : Statement .saveEeprom := of_row 18 (by decide) (by decide) (by decide)
theorem loadEeprom : Statement .loadEeprom := of_row 19 (by decide) (by decide) (by decide)

end Sys2Proof.Laws.EncodedRow
end

