-- ==== Sys2Proof/Laws/Record.lean ====
section
/-! SUPPORT. The laws of record fields: each field is read back from the bytes that hold it, and the lengths of the
records. -/

namespace Sys2Proof.Machine

/-! ### One field -/

@[simp] theorem append_bytes16 (v : BitVec 16) : v.extractLsb' 8 8 ++ v.extractLsb' 0 8 = v := by
  refine BitVec.eq_of_getLsbD_eq fun j hj => ?_
  rw [BitVec.getLsbD_append]
  by_cases h : j < 8
  · simp [h]
  · simp [h, show j - 8 < 8 by omega, show 8 + (j - 8) = j by omega]

@[simp] theorem append_bytes32 (v : BitVec 32) :
    v.extractLsb' 24 8 ++ v.extractLsb' 16 8 ++ v.extractLsb' 8 8 ++ v.extractLsb' 0 8 = v := by
  refine BitVec.eq_of_getLsbD_eq fun j hj => ?_
  rw [BitVec.getLsbD_append, BitVec.getLsbD_append, BitVec.getLsbD_append]
  by_cases h1 : j < 8
  · simp [h1]
  · by_cases h2 : j < 16
    · simp [h1, show j - 8 < 8 by omega, show 8 + (j - 8) = j by omega]
    · by_cases h3 : j < 24
      · simp [h1, show ¬(j - 8 < 8) by omega, show j - 8 - 8 < 8 by omega, show 16 + (j - 8 - 8) = j by omega]
      · simp [h1, show ¬(j - 8 < 8) by omega, show ¬(j - 8 - 8 < 8) by omega, show j - 8 - 8 - 8 < 8 by omega,
          show 24 + (j - 8 - 8 - 8) = j by omega]

@[simp] theorem flagByte_isFlagByte (b : Bool) : isFlagByte (flagByte b) = true := by cases b <;> rfl

@[simp] theorem flagByte_eq_one (b : Bool) : (flagByte b == 0x01#8) = b := by cases b <;> rfl

theorem isFlagByte_iff {b : Byte} : isFlagByte b = true ↔ b = 0x00#8 ∨ b = 0x01#8 := by simp [isFlagByte]

@[simp] theorem ProtocolState.ofTag_tag (p : ProtocolState) : ProtocolState.ofTag p.tag = p := by cases p <;> rfl

/-- A u16 as a number: the first byte is the least significant (42_persistence_and_control.md R242). -/
theorem u16At_toNat (bs : List Byte) (i : Nat) :
    (u16At bs i).toNat = (byteAt bs i).toNat + 256 * (byteAt bs (i + 1)).toNat := by
  rw [u16At, BitVec.toNat_append, ← Nat.shiftLeft_add_eq_or_of_lt (byteAt bs i).isLt, Nat.shiftLeft_eq]
  omega

/-- Writing a field read from a record gives its bytes back. -/
theorem bytes16_u16At (bs : List Byte) (i : Nat) : bytes16 (u16At bs i) = [byteAt bs i, byteAt bs (i + 1)] := by
  refine congrArg₂ (fun a b => [a, b]) ?_ ?_
  · refine BitVec.eq_of_getLsbD_eq fun j hj => ?_
    rw [BitVec.getLsbD_extractLsb', u16At, BitVec.getLsbD_append]
    simp [hj]
  · refine BitVec.eq_of_getLsbD_eq fun j hj => ?_
    rw [BitVec.getLsbD_extractLsb', u16At, BitVec.getLsbD_append]
    simp [hj]

theorem flagByte_flagAt {bs : List Byte} {i : Nat} (h : isFlagByte (byteAt bs i) = true) :
    flagByte (flagAt bs i) = byteAt bs i := by
  rcases isFlagByte_iff.1 h with h | h <;> rw [flagAt, h] <;> rfl

theorem ProtocolState.tag_ofTag {t : Byte} (h : t.toNat ≤ 3) : (ProtocolState.ofTag t).tag = t := by
  revert t; decide

/-- The first `n` bytes of a record, by offset. -/
theorem take_eq_map_byteAt {bs : List Byte} {n : Nat} (h : n ≤ bs.length) :
    bs.take n = (List.range n).map (byteAt bs) := by
  refine List.ext_getElem (by simp [h]) fun i h1 h2 => ?_
  have hi : i < bs.length := by simp at h1; omega
  simp [byteAt, hi]

/-! ### Cells -/

@[simp] theorem cellsOfBytes_bytes16 (v : BitVec 16) (bs : List Byte) :
    cellsOfBytes (bytes16 v ++ bs) = v :: cellsOfBytes bs := by
  simp [bytes16, cellsOfBytes]

theorem cellsOfBytes_flatMap (vs : List (BitVec 16)) : cellsOfBytes (vs.flatMap bytes16) = vs := by
  induction vs with
  | nil => rfl
  | cons v vs ih => rw [List.flatMap_cons, cellsOfBytes_bytes16, ih]

/-- The cells of a storage image are the cells `0 .. t - 1`. -/
theorem cellsOfBytes_storageBytes (m : Memory 16) (t : Nat) :
    cellsOfBytes (storageBytes m t) = (List.range t).map m.read := by
  have : storageBytes m t = ((List.range t).map m.read).flatMap bytes16 := by
    rw [storageBytes, List.flatMap_map]
  rw [this, cellsOfBytes_flatMap]

theorem length_cellsOfBytes : ∀ (bs : List Byte), (cellsOfBytes bs).length = bs.length / 2
  | [] => rfl
  | [_] => by simp [cellsOfBytes]
  | _ :: _ :: bs => by
    rw [cellsOfBytes, List.length_cons, length_cellsOfBytes bs, List.length_cons, List.length_cons]
    omega

/-- Cell `a` of a byte sequence is its bytes `2a` and `2a + 1`, least significant first. -/
theorem getD_cellsOfBytes : ∀ (bs : List Byte) (a : Nat), 2 * a + 1 < bs.length →
    (cellsOfBytes bs)[a]? = some (bs.getD (2 * a + 1) 0#8 ++ bs.getD (2 * a) 0#8)
  | [], a, h => by simp at h
  | [_], a, h => by simp at h
  | lo :: hi :: bs, 0, _ => rfl
  | lo :: hi :: bs, a + 1, h => by
    rw [cellsOfBytes, List.getElem?_cons_succ, getD_cellsOfBytes bs a (by simp at h; omega)]
    rfl

theorem length_storageBytes (m : Memory 16) (t : Nat) : (storageBytes m t).length = 2 * t := by
  simp [storageBytes, List.length_flatMap, bytes16, Nat.mul_comm]

/-! ### Lengths of the records -/

@[simp] theorem length_bankRecord (r : AddressRegs) : (bankRecord r).length = 5 := rfl

@[simp] theorem length_eepromHeader (e : Eeprom) : (eepromHeader e).length = 18 := rfl

@[simp] theorem length_eepromRecord (e : Eeprom) : (eepromRecord e).length = 18 + 2 * deviceCells e.device := by
  rw [eepromRecord, List.length_append, length_eepromHeader, length_storageBytes]

@[simp] theorem drop_eepromRecord (e : Eeprom) :
    (eepromRecord e).drop 18 = storageBytes e.storage (deviceCells e.device) := by
  rw [eepromRecord, ← length_eepromHeader e, List.drop_left]

/-- The header bytes of a record are read from the header. -/
theorem byteAt_eepromRecord (e : Eeprom) {i : Nat} (h : i < 18) :
    byteAt (eepromRecord e) i = byteAt (eepromHeader e) i := by
  simp only [byteAt, eepromRecord, List.getD_eq_getElem?_getD]
  rw [List.getElem?_append_left (by simpa using h)]

/-- Restoring the image of a storage gives its cells where it reaches and keeps the others. -/
theorem Memory.read_restore_storageBytes (m n : Memory 16) (t a : Nat) :
    (m.restore (cellsOfBytes (storageBytes n t))).read a = if a < t then n.read a else m.read a := by
  rw [cellsOfBytes_storageBytes, Memory.read_restore]
  by_cases h : a < t <;> simp [h]

end Sys2Proof.Machine
end

