-- ==== Sys2Proof/Laws/Step.lean ====
section
/-! SUPPORT. What one step can do, said once: a step to a next state ran the first pending command's operation, which its
agent may issue, and then moved on. -/

namespace Sys2Proof.Machine

theorem completed_next {o : Host.Outcome State Fault Refusal} {t : State} :
    completed o = .next t ↔ ∃ u, o = .next u ∧ t = u.advancePosition := by
  cases o with
  | next u => simp [completed, eq_comm]
  | fault r => simp [completed]
  | refused r => simp [completed]

/-- The boundary lets an operation through exactly when its agent may issue it. -/
theorem boundaryRefusal_eq_none {a : Agent} {i : Instr} : boundaryRefusal a i = none ↔ a.mayIssue i = true := by
  unfold boundaryRefusal
  split
  · next h => simp [h]
  · next h =>
    split
    · simp [h]
    · split <;> simp [h]

/-- Everything a step to a next state can have done. -/
theorem step_next {s t : State} (h : step s = .next t) :
    ∃ (c : Command) (rest : List Command) (i : Instr) (u : State), s.pending = c :: rest ∧ decode c.word = some i
      ∧ c.agent.mayIssue i = true ∧ exec i s = .next u ∧ t = u.advancePosition := by
  unfold step issueNext at h
  split at h
  · cases h
  · next c rest hp =>
    unfold issue at h
    split at h
    · cases h
    · next i hd =>
      split at h
      · cases h
      · next hb =>
        obtain ⟨u, hu, ht⟩ := completed_next.1 h
        exact ⟨c, rest, i, u, hp, hd, boundaryRefusal_eq_none.1 hb, hu, ht⟩

/-! ### The three operations that can refuse -/

/-- Everything a CONFIGURE_BANK that completes did. -/
theorem configureBank_next {cb : SlotId} {ps : BitVec 16} {ram shadow we : Bool} {s t : State}
    (h : execConfigureBank cb ps ram shadow we s = .next t) :
    ∃ g, admissible cb ps ram shadow we s.operand.length = some g
      ∧ t = { s with banks := s.banks.configure cb g ram shadow we s.operand }.returning .nothing := by
  unfold execConfigureBank at h
  split at h
  · cases h
  · next g hg => cases h; exact ⟨g, hg, rfl⟩

/-- Everything a LOAD_STATE that completes did. -/
theorem loadState_next {s t : State} (h : execLoadState s = .next t) :
    s.validRecord s.operand = true
      ∧ t = ({ s with regs := regsOfRecord s.operand }.mapEeprom (·.load (s.operand.drop 5))).returning .nothing := by
  unfold execLoadState at h
  split at h
  · next hv => cases h; exact ⟨hv, rfl⟩
  · cases h

/-- Everything a LOAD_EEPROM that completes did. -/
theorem loadEeprom_next {s t : State} (h : execLoadEeprom s = .next t) :
    s.validImage s.operand = true ∧ t = (s.mapEeprom (·.load s.operand)).returning .nothing := by
  unfold execLoadEeprom at h
  split at h
  · next hv => cases h; exact ⟨hv, rfl⟩
  · cases h

/-! ### Well-formedness of the whole state -/

theorem State.wf_iff (s : State) : s.wf = true ↔ s.banks.wf = true ∧ ∀ e, s.eeprom = some e → e.wf = true := by
  unfold State.wf
  cases s.eeprom <;> simp

/-- Reset has canonical memories: every slot is empty. -/
theorem reset_slots_wf (k : SlotId) : (State.reset.banks.slot k).content.wf = true := by cases k <;> rfl

end Sys2Proof.Machine
end

