-- ==== Sys2Proof/Tests/Slice0.lean ====
section
/-! SUPPORT. Our own tests. Expected results come from spec/95_test_vectors.md (the vector is named at each test) and from
the encoding tables of 30_encoding.md. Each test is about one operation on a small state. The last
section shows, for every statement with hypotheses, a state and operands that meet them. -/

namespace Sys2Proof.Tests

open Sys2Proof.Machine

/-! ### Small states -/

/-- The block with the four address registers set: `sv`, `po`, `sl`, `bl`. -/
def block (sv : BitVec 8) (po : BitVec 11) (sl bl : Bool) : State :=
  { State.reset with regs := { shiftValue := sv, pageOffset := po, strobeLevel := sl, bitLevel := bl } }

/-- The block with one slot's geometry and content set. -/
def withSlot (s : State) (k : SlotId) (g : Geometry) (m : Memory 8) : State :=
  { s with banks := s.banks.setSlot k { geometry := g, content := m } }

/-- The block with a RAM B1 of 256-byte pages and the given write enable. -/
def withRam (s : State) (we : Bool) (m : Memory 8) : State :=
  { s with banks := { s.banks with
      b1 := { geometry := .pages 8, content := m }
      isRam := true
      writeEnabled := we } }

/-- The block with an EEPROM fitted. -/
def fitted (s : State) (e : Eeprom) : State := { s with eeprom := some e }

/-- The block with operand bytes beside the next operation. -/
def withOperand (s : State) (bs : List Byte) : State :=
  { s with pending := [{ agent := .host, word := 0#32, operand := bs }] }

/-- The block whose next operation is a word of an agent. -/
def issuing (s : State) (a : Agent) (w : Word) : State :=
  { s with pending := [{ agent := a, word := w, operand := [] }] }

/-- A fresh 93C46 in 16-bit mode (V10's start). -/
def chip : Eeprom := Eeprom.fresh .c46 false

/-- A fresh 93C46 whose data-in line is 1 (start of 95_test_vectors.md section 2.3). -/
def chipDi : Eeprom := { chip with iodir := 0x10#8, iodat := 0x10#8 }

/-- The operation completes in a state with the property. -/
def completes (i : Instr) (s : State) (p : State → Bool) : Bool :=
  match exec i s with
  | .next t => p t
  | .fault _ => false
  | .refused _ => false

/-- The operation is refused for the reason. -/
def refuses (i : Instr) (s : State) (r : Refusal) : Bool :=
  match exec i s with
  | .next _ => false
  | .fault _ => false
  | .refused q => decide (q = r)

/-- The EEPROM of the state has the property. -/
def onChip (s : State) (p : Eeprom → Bool) : Bool :=
  match s.eeprom with
  | none => false
  | some e => p e

/-! ### WellFormed smoke -/

/-- 30_encoding.md R116: `e8 = 1` with type NONE is refused by the check, and the two well-formed neighbours are not. -/
theorem test_illformed_refused :
    (Instr.configureEeprom none true).wellFormed = false ∧ (Instr.configureEeprom none false).wellFormed = true
      ∧ (Instr.configureEeprom (some .c46) true).wellFormed = true := by decide

/-! ### Decoding: words written out from the encoding tables, V34 -/

theorem test_decode_read : decode 0x10000300#32 = some (.read .b1a) := by decide
theorem test_decode_peek : decode 0x20000200#32 = some (.peek .b0a) := by decide
theorem test_decode_write : decode 0x300001A5#32 = some (.write .b1 0xA5#8) := by decide
theorem test_decode_strobe : decode 0x40000001#32 = some (.strobe true) := by decide
theorem test_decode_setBit : decode 0x50000000#32 = some (.setBit false) := by decide
/-- 30_encoding.md R112: `dir` in bits 15..8, `dat` in bits 7..0. -/
theorem test_decode_setIo : decode 0x60001020#32 = some (.setIo 0x10#8 0x20#8) := by decide
theorem test_decode_tickBusy : decode 0x70000000#32 = some .tickBusy := by decide
theorem test_decode_readOutput : decode 0x80000000#32 = some .readOutput := by decide
theorem test_decode_notifyCounter : decode 0x90000082#32 = some (.notifyCounter 0x0082#16) := by decide
theorem test_decode_clearDirtyBank1 : decode 0xA0000000#32 = some .clearDirtyBank1 := by decide
theorem test_decode_clearDirtyEeprom : decode 0xA0000001#32 = some .clearDirtyEeprom := by decide
theorem test_decode_queryDirtyBank1 : decode 0xA0000002#32 = some .queryDirtyBank1 := by decide
theorem test_decode_queryDirtyEeprom : decode 0xA0000003#32 = some .queryDirtyEeprom := by decide
theorem test_decode_softReset : decode 0xB0000000#32 = some .softReset := by decide
theorem test_decode_configureBank :
    decode 0xC0000200#32 = some (.configureBank .b0 512#16 false false false)
      ∧ decode 0xC0190000#32 = some (.configureBank .b1 0#16 false true true) := by decide
theorem test_decode_configureEeprom :
    decode 0xD0000001#32 = some (.configureEeprom (some .c46) false)
      ∧ decode 0xD0000009#32 = some (.configureEeprom (some .c46) true)
      ∧ decode 0xD0000005#32 = some (.configureEeprom (some .c86) false) := by decide
theorem test_decode_saveState : decode 0xE0000000#32 = some .saveState := by decide
theorem test_decode_loadState : decode 0xE0000001#32 = some .loadState := by decide
theorem test_decode_saveEeprom : decode 0xE0000002#32 = some .saveEeprom := by decide
theorem test_decode_loadEeprom : decode 0xE0000003#32 = some .loadEeprom := by decide

/-- V34's reserved words. -/
theorem test_decode_reserved :
    [0x10000301#32, 0x30000400#32, 0x40000002#32, 0xC0200000#32, 0xD0000008#32, 0xD0000006#32, 0x00000000#32,
      0xF0000000#32].all (fun w => decode w == none) = true := by decide

/-- A table word of 32 bits is the decoder's word; a word with a bit above bit 31 is none. -/
theorem test_decodeTableWord :
    decodeTableWord 32 0x300001A5 = some (.write .b1 0xA5#8) ∧ decodeTableWord 40 0x1300001A5 = none := by decide

/-! ### The bank engine -/

/-- V1: the formed offset for seven page sizes at `sv = A5`, `po = 7FF`. -/
theorem test_address_v1 :
    ([0, 1, 8, 9, 11, 12, 15] : List (Fin 16)).map
        (fun k => addressIn (.pages k) { shiftValue := 0xA5#8, pageOffset := 0x7FF#11, strobeLevel := false, bitLevel := false })
      = [0xA5, 0x14B, 0xA5FF, 0x14BFF, 0x52FFF, 0xA57FF, 0x5287FF] := by decide

/-- R148's example, 40_bank_engine.md section 3: the byte before the advance; and V4's wrap. -/
theorem test_read :
    completes (.read .b0) (withSlot (block 0x05#8 0x002#11 false true) .b0 (.pages 9) [(0xA02, 0x0C#8)])
        (fun t => decide (t.result = .byte 0x0C#8) && decide (t.regs.pageOffset = 0x003#11)) = true
      ∧ completes (.read .b0) (fitted (block 0#8 0x7FF#11 false false) { chip with lastCs := true, protocolState := .address })
        (fun t => decide (t.regs.pageOffset = 0#11) && onChip t (fun e => decide (e.protocolState = .idle) && !e.lastCs))
        = true := by decide

/-- V9: PEEK of an empty slot, with no advance; and P1 row 13. -/
theorem test_peek :
    completes (.peek .b1a) State.reset (fun t => decide (t.result = .byte 0xFF#8) && decide (t.regs.pageOffset = 0#11)) = true
      ∧ completes (.peek .b0) (withSlot (block 0x05#8 0x003#11 false true) .b0 (.pages 9) [(0xA03, 0x0D#8)])
        (fun t => decide (t.result = .byte 0x0D#8) && decide (t.regs.pageOffset = 0x003#11)) = true := by decide

/-- V8: a writable B1 stores at 1234 and is dirty; a B1 without write enable stores nothing; both advance. -/
theorem test_write :
    completes (.write .b1 0x77#8) (withRam (block 0x12#8 0x034#11 false false) true [])
        (fun t => decide (t.banks.b1.content = [(0x1234, 0x77#8)]) && t.banks.dirty
          && decide (t.regs.pageOffset = 0x035#11)) = true
      ∧ completes (.write .b1 0x77#8) (withRam (block 0x12#8 0x034#11 false false) false [])
        (fun t => decide (t.banks.b1.content = []) && !t.banks.dirty && decide (t.regs.pageOffset = 0x035#11)) = true := by
  decide

/-- V5 and P4 row 5: with strobe high a stored write stays at its offset, and nothing advances. -/
theorem test_write_held :
    completes (.write .b1 0x99#8) (withRam (block 0x24#8 0x000#11 true false) true [])
        (fun t => decide (t.banks.b1.content = [(0x2400, 0x99#8)]) && decide (t.regs.pageOffset = 0#11)) = true := by decide

/-- V6, every row: `(sv, bl, sl, po, l)` gives `(sv, sl, po)`. -/
theorem test_strobe_v6 :
    [(block 0x05#8 0x123#11 false true, true, 0x0B#8, true, 0#11), (block 0x05#8 0x123#11 false false, true, 0x0A#8, true, 0#11),
      (block 0x0B#8 0x000#11 true true, true, 0x0B#8, true, 0#11), (block 0x0B#8 0x000#11 true true, false, 0x0B#8, false, 0#11),
      (block 0x80#8 0x7FF#11 false true, true, 0x01#8, true, 0#11),
      (block 0x0B#8 0x010#11 false true, false, 0x0B#8, false, 0x010#11)].all
      (fun r => completes (.strobe r.2.1) r.1 (fun t => decide (t.regs.shiftValue = r.2.2.1)
        && decide (t.regs.strobeLevel = r.2.2.2.1) && decide (t.regs.pageOffset = r.2.2.2.2))) = true := by decide

/-- V19: STROBE 1 drops CS. -/
theorem test_strobe_drops_cs :
    completes (.strobe true)
      (fitted (block 0#8 0x082#11 false false)
        { chip with protocolState := .address, shiftAccumulator := 1#32, lastCs := true, lastClk := true })
      (fun t => onChip t (fun e => decide (e.protocolState = .idle) && decide (e.shiftAccumulator = 0#32)
        && !e.lastCs && !e.lastClk)) = true := by decide

/-- R166's example: `SET_BIT 1` changes the bit line only. -/
theorem test_setBit :
    completes (.setBit true) State.reset (fun t => decide (t = block 0#8 0#11 false true)) = true := by decide

set_option maxRecDepth 8000 in
/-- V2's refusals: not a power of two, RAM off B1, shadow with a page size, RAM of size 0, too few data bytes. -/
theorem test_configureBank_refusals :
    [Instr.configureBank .b0 3#16 false false false, .configureBank .b0a 256#16 true false false,
      .configureBank .b1 256#16 false true false, .configureBank .b1 0#16 true false false,
      .configureBank .b0 512#16 false false false].all
      (fun i => refuses i (withOperand State.reset (List.replicate 300 0#8)) .configInvalid) = true := by decide

set_option maxRecDepth 8000 in
/-- R141 on a one-byte-page slot of 256 bytes: the content is the data and the geometry's size 256. -/
theorem test_configureBank :
    completes (.configureBank .b1 1#16 true false true) (withOperand State.reset (0x11#8 :: List.replicate 255 0xFF#8))
      (fun t => decide (t.banks.b1 = { geometry := .pages 0, content := [(0, 0x11#8)] }) && t.banks.isRam
        && t.banks.writeEnabled && !t.banks.dirty) = true := by decide

/-! ### The EEPROM engine -/

/-- 10_state.md R70: a fresh device is write-protected, erased and idle. -/
theorem test_configureEeprom :
    completes (.configureEeprom (some .c46) true) State.reset
      (fun t => onChip t (fun e => e.writeProtected && decide (e.storage = []) && e.eightBit && decide (e.addrBits = 7))) = true
      ∧ completes (.configureEeprom none false) (fitted State.reset chip) (fun t => decide (t.eeprom = none)) = true := by decide

/-- V12: the data-in line needs bit 4 of both latches. -/
theorem test_setIo_gating :
    [(0x00#8, 0x10#8, false), (0x10#8, 0xEF#8, false), (0x10#8, 0x10#8, true), (0xFF#8, 0xFF#8, true)].all
      (fun r => completes (.setIo r.1 r.2.1) (fitted State.reset chip) (fun t => onChip t (fun e => e.dataIn == r.2.2))) = true := by
  decide

/-- V25's second row: a rising clock with CS high captures the start bit. -/
theorem test_notifyCounter :
    completes (.notifyCounter 0x0082#16) (fitted State.reset { chipDi with lastCs := true })
      (fun t => onChip t (fun e => decide (e.protocolState = .address) && decide (e.shiftAccumulator = 1#32)
        && e.lastCs && e.lastClk)) = true := by decide

/-- V26 and V27: a CS edge and a clock edge in one call; a clock with CS low only updates the last level. -/
theorem test_notifyCounter_edges :
    chipDi.notify 0x0082#16
        = { chipDi with protocolState := .address, shiftAccumulator := 1#32, lastCs := true, lastClk := true }
      ∧ chipDi.notify 0x0002#16 = { chipDi with lastClk := true } := by decide

/-- V10: the end of each command of a 93C46 after its start bit: EWEN, WRAL, WRITE 5, READ 5, ERASE 5. -/
theorem test_commands_v10 :
    let open' : Eeprom := { chip with protocolState := .address, shiftAccumulator := 1#32 }
    let bits (n : Nat) : List Bool := msbBits 8 n
    ((open'.clockBits (bits 0x30)).writeProtected = false ∧ (open'.clockBits (bits 0x30)).shiftAccumulator = 0x130#32)
      ∧ ((open'.clockBits (bits 0x10)).protocolState = .idle ∧ (open'.clockBits (bits 0x10)).selectedAddress = 0x10#16)
      ∧ ((open'.clockBits (bits 0x45)).protocolState = .data ∧ (open'.clockBits (bits 0x45)).selectedAddress = 5#16)
      ∧ ((open'.clockBits (bits 0x85)).pendingReadValue = 0xFFFF#16 ∧ (open'.clockBits (bits 0x85)).protocolState = .wait)
      ∧ ((open'.clockBits (bits 0xC5)).inProgrammingCycle = true ∧ (open'.clockBits (bits 0xC5)).isDirty = false) := by decide

/-- V20: in 8-bit mode byte cell 3 is the high half of `storage[1]`. -/
theorem test_byte_cell_v20 : setCell8 [] 3 0x5A#8 = [(1, 0x5AFF#16)] ∧ cell8 [(1, 0x5AFF#16)] 2 = 0xFF#8 := by decide

/-- V13 and V15: the tick that reaches 100 ends the cycle; a cycle restored at 100 ends at once. -/
theorem test_tickBusy :
    completes .tickBusy (fitted State.reset { chip with inProgrammingCycle := true, busyCounter := 99 })
        (fun t => onChip t (fun e => e.outputBit && !e.inProgrammingCycle && decide (e.busyCounter = 100))) = true
      ∧ completes .tickBusy (fitted State.reset { chip with inProgrammingCycle := true, busyCounter := 100 })
        (fun t => onChip t (fun e => e.outputBit && !e.inProgrammingCycle && decide (e.busyCounter = 100))) = true := by decide

/-- V18: READ_OUTPUT with no device is 0; with a device it is the output bit. -/
theorem test_readOutput :
    completes .readOutput State.reset (fun t => decide (t.result = .bit false)) = true
      ∧ completes .readOutput (fitted State.reset { chip with outputBit := true }) (fun t => decide (t.result = .bit true))
        = true := by decide

/-! ### Persistence and control -/

/-- V29. -/
theorem test_saveState :
    completes .saveState (block 0x05#8 0x123#11 false true)
      (fun t => decide (t.result = .bytes [0x05#8, 0x23#8, 0x01#8, 0x00#8, 0x01#8])) = true := by decide

set_option maxRecDepth 8000 in
/-- V30: 274 bytes; the first 18 as listed, then FF. -/
theorem test_saveEeprom :
    completes .saveEeprom (fitted State.reset chip) (fun t => decide (t.result = .bytes
      ([0, 0, 0, 0, 0, 0, 0, 0, 0, 0, 1, 0, 0, 0, 0, 0, 0, 0] ++ List.replicate 256 0xFF#8))) = true := by decide

/-- V31 with no device: a bad strobe byte, a bad counter and a bad length are refused. -/
theorem test_loadState_refusals :
    [[0x00#8, 0x00#8, 0x00#8, 0x02#8, 0x00#8], [0x00#8, 0x00#8, 0x08#8, 0x00#8, 0x00#8], [0x00#8, 0x00#8, 0x00#8, 0x00#8]].all
      (fun bs => refuses .loadState (withOperand State.reset bs) .recordInvalid) = true := by decide

/-- V29's record loaded back. -/
theorem test_loadState :
    completes .loadState (withOperand State.reset [0x05#8, 0x23#8, 0x01#8, 0x00#8, 0x01#8])
      (fun t => decide (t.regs = (block 0x05#8 0x123#11 false true).regs)) = true := by decide

set_option maxRecDepth 8000 in
/-- V31's last line and V30's record: a selected address FFFF is accepted; the tag 4 and the busy byte 101 are not. -/
theorem test_loadEeprom :
    completes .loadEeprom (withOperand (fitted State.reset chip)
        ([0, 0, 0, 0, 0, 0xFF#8, 0xFF#8, 0, 0, 0, 1, 0, 0, 0, 0, 0, 0, 0] ++ List.replicate 256 0xFF#8))
        (fun t => onChip t (fun e => decide (e = { chip with selectedAddress := 0xFFFF#16 }))) = true
      ∧ refuses .loadEeprom (withOperand (fitted State.reset chip)
        ([4, 0, 0, 0, 0, 0, 0, 0, 0, 0, 1, 0, 0, 0, 0, 0, 0, 0] ++ List.replicate 256 0xFF#8)) .recordInvalid = true
      ∧ refuses .loadEeprom (withOperand (fitted State.reset chip)
        ([0, 0, 0, 0, 0, 0, 0, 0, 0, 0, 1, 0, 0, 101, 0, 0, 0, 0] ++ List.replicate 256 0xFF#8)) .recordInvalid = true := by
  decide

/-- V32, the bank flag. -/
theorem test_dirty_bank1 :
    completes .queryDirtyBank1 { State.reset with banks := { State.reset.banks with dirty := true } }
        (fun t => decide (t.result = .bit true) && t.banks.dirty) = true
      ∧ completes .clearDirtyBank1 { State.reset with banks := { State.reset.banks with dirty := true } }
        (fun t => !t.banks.dirty) = true := by decide

/-- V32, the EEPROM's flag, and V18 with no device. -/
theorem test_dirty_eeprom :
    completes .queryDirtyEeprom (fitted State.reset { chip with isDirty := true })
        (fun t => decide (t.result = .bit true) && onChip t (·.isDirty)) = true
      ∧ completes .clearDirtyEeprom (fitted State.reset { chip with isDirty := true }) (fun t => onChip t (!·.isDirty)) = true
      ∧ completes .queryDirtyEeprom State.reset (fun t => decide (t.result = .bit false)) = true := by decide

/-- V33 and V24: SOFT_RESET clears the four registers and does not notify the EEPROM. -/
theorem test_softReset :
    completes .softReset (block 0x5A#8 0x7FF#11 true true) (fun t => decide (t.regs = State.reset.regs)) = true
      ∧ completes .softReset (fitted (block 0#8 0x082#11 false false) { chipDi with protocolState := .address, lastCs := true })
        (fun t => onChip t (fun e => decide (e.protocolState = .address) && e.lastCs)) = true := by decide

/-! ### The step -/

/-- 30_encoding.md R118 and R119, 60_exceptions.md R285 and R290: the boundary's refusals, and the end of the sequence. -/
theorem test_step_boundary :
    step (issuing State.reset .mutator 0xF0000000#32) = .refused .reservedEncoding
      ∧ step (issuing State.reset .mutator 0x90000082#32) = .refused .internalOperation
      ∧ step (issuing State.reset .observer 0x10000000#32) = .refused .observerEffect
      ∧ step (issuing State.reset .mutator 0xB0000000#32) = .refused .agentRestricted
      ∧ step State.reset = .fault .endOfProgram := ⟨rfl, rfl, rfl, rfl, rfl⟩

/-- 10_state.md R31: an operation advances the position by one and leaves the sequence. -/
theorem test_step_moves_on :
    step (issuing State.reset .observer 0x20000000#32)
      = .next { State.reset with result := .byte 0xFF#8, position := 1 } := rfl

set_option maxRecDepth 8000 in
/-- A word placed for the next step is the one that runs, also an operation of another agent and one with operand bytes. -/
theorem test_withFetchWord :
    [0x50000001, 0x90000082, 0xC0010001, 0xD0000001, 0xE0000001, 0xE0000003].all (fun w =>
      match step (State.reset.withFetchWord 32 w) with
      | .next t => decide (t.position = 1)
      | .fault _ => false
      | .refused _ => false) = true := by decide

/-- The memory of reset and of a device fresh from CONFIGURE_EEPROM is canonical. -/
theorem test_reset_wf : State.reset.wf = true ∧ chip.wf = true := by decide

/-! ### Witnesses: for every statement with hypotheses, concrete states and operands that meet them, clause by clause -/

/-- A completed operation with a property of its next state, as a proposition over the next state. -/
theorem exists_next {i : Instr} {s : State} {p : State → Bool} (h : completes i s p = true) :
    ∃ t, exec i s = .next t ∧ p t = true := by
  unfold completes at h
  split at h
  · next t ht => exact ⟨t, ht, h⟩
  · cases h
  · cases h

theorem witness_DecodeOfEncodeGivesTheOperation :
    (Instr.configureEeprom (some .c86) true).wellFormed = true ∧ (Instr.write .b1a 0xFF#8).wellFormed = true := by decide

theorem witness_EncodeOfDecodeGivesTheWord :
    decode 0xC01FFFFF#32 = some (.configureBank .b1a 0xFFFF#16 true true true) := by decide

theorem witness_ExactlyOneOpcodeRowMatchesAnAdmittedWord : decode 0xD000000D#32 = some (.configureEeprom (some .c86) true) := by
  decide

theorem witness_StepRunsTheIssuedOperation :
    let s := issuing State.reset .mutator 0x40000001#32
    s.pending = [⟨.mutator, 0x40000001#32, []⟩] ∧ decode 0x40000001#32 = some (.strobe true)
      ∧ Agent.mutator.mayIssue (.strobe true) = true ∧ completes (.strobe true) s (fun _ => true) = true := by decide

theorem witness_StepRunsTheIssuedOperation_refused :
    decode 0xC0000003#32 = some (.configureBank .b0 3#16 false false false)
      ∧ Agent.host.mayIssue (.configureBank .b0 3#16 false false false) = true
      ∧ refuses (.configureBank .b0 3#16 false false false) (issuing State.reset .host 0xC0000003#32) .configInvalid = true := by
  decide

theorem witness_StepRefusesAtTheBoundary :
    State.reset.pending = [] ∧ decode 0x10000301#32 = none
      ∧ (decode 0x9000FFFF#32 = some (.notifyCounter 0xFFFF#16) ∧ Agent.host ≠ .harness)
      ∧ (decode 0x70000000#32 = some .tickBusy ∧ Agent.observer.mayIssue .tickBusy = false)
      ∧ Agent.harness.mayIssue .tickBusy = false := by decide

theorem witness_AddressIsPageAndOffsetBelowSize :
    ((withSlot State.reset .b0 (.pages 0) []).banks.slot .b0).geometry = .pages 0
      ∧ ((withSlot State.reset .b1a (.pages 15) []).banks.slot .b1a).geometry = .pages 15 := by decide

theorem witness_PeekGivesTheByteOfReadAndChangesNothing :
    let s := withSlot (block 0#8 0#11 true false) .b0 (.pages 0) [(0, 0x12#8)]
    s.regs.strobeLevel = true ∧ completes (.read .b0) s (fun _ => true) = true
      ∧ completes (.peek .b0) s (fun _ => true) = true := by decide

theorem witness_EmptySlotReadsFillAndStoresNothing : (State.reset.banks.slot .b1).geometry.size = 0 := by decide

theorem witness_WriteStoresExactlyInWritableB1 :
    let s := withRam State.reset true []
    s.wf = true ∧ s.banks.isRam = true ∧ s.banks.writeEnabled = true ∧ (withRam State.reset false []).wf = true := by decide

theorem witness_StoredByteIsReadAtTheSameOffset :
    let s := withRam (block 0#8 0#11 true false) true []
    (s.wf = true ∧ s.banks.isRam = true ∧ s.banks.writeEnabled = true)
      ∧ ∃ t, exec (.write .b1 0x77#8) s = .next t ∧ (t.addressFor .b1 == s.addressFor .b1) = true :=
  ⟨by decide, exists_next (p := fun t => t.addressFor .b1 == 0) (by decide)⟩

theorem witness_StrobeOneAgainChangesNothing :
    (fitted (block 7#8 0#11 true true) chip).strobeCoherent = true
      ∧ (fitted (block 7#8 0#11 true true) chip).regs.strobeLevel = true := by decide

theorem witness_CounterAndShiftLaws :
    (∃ t, exec (.strobe true) (block 1#8 5#11 false true) = .next t ∧ (t.regs.shiftValue != 1#8) = true)
      ∧ (∃ t, exec (.write .b0 0#8) (block 1#8 0x7FF#11 false true) = .next t ∧ true = true)
      ∧ (∃ t, exec .loadState (withOperand State.reset [0xFF#8, 0xFF#8, 0x07#8, 0x01#8, 0x01#8]) = .next t ∧ true = true) :=
  ⟨exists_next (p := fun t => t.regs.shiftValue != 1#8) (by decide), exists_next (p := fun _ => true) (by decide),
    exists_next (p := fun _ => true) (by decide)⟩

theorem witness_PageSizeFixesTheGeometry :
    Geometry.ofPageSize 0#16 = some .empty ∧ Geometry.ofPageSize 1#16 = some (.pages 0)
      ∧ Geometry.ofPageSize 0x8000#16 = some (.pages 15) ∧ Geometry.ofPageSize 0x8001#16 = none
      ∧ Geometry.ofPageSize 0xFFFF#16 = none := by decide

/-- Each of R142's conditions at its boundary, and the admissible neighbours. -/
theorem witness_ConfigureBankRefusesExactlyTheInadmissible :
    configInadmissible .b0 3#16 false false false 1000 ∧ configInadmissible .b1a 1#16 false false true 256
      ∧ configInadmissible .b1 1#16 false true false 65536 ∧ configInadmissible .b1 0#16 true true false 65536
      ∧ configInadmissible .b0 1#16 false false false 255 ∧ configInadmissible .b1 0#16 false true true 65535
      ∧ ¬ configInadmissible .b0 1#16 false false false 256 ∧ ¬ configInadmissible .b1 0#16 false true true 65536
      ∧ ¬ configInadmissible .b1a 0#16 false false false 0 := by
  unfold configInadmissible
  refine ⟨?_, ?_, ?_, ?_, ?_, ?_, ?_, ?_, ?_⟩ <;> decide

set_option maxRecDepth 8000 in
theorem witness_ConfigureBankSetsOneSlot :
    ¬ configInadmissible .b1 1#16 true false true (withOperand State.reset (List.replicate 256 0#8)).operand.length
      ∧ ¬ configInadmissible .b0 0#16 false false false State.reset.operand.length := by
  unfold configInadmissible
  refine ⟨?_, ?_⟩ <;> decide

theorem witness_OnlyWriteAndConfigureChangeContent :
    ∃ t, exec (.write .b1 0x77#8) (withRam State.reset true []) = .next t ∧ (t.contentByte .b1 0 != 0xFF#8) = true :=
  exists_next (by decide)

theorem witness_BanksAndDirtyChangeOnlyByTheirOperations :
    (∃ t, exec (.write .b1 0xFF#8) (withRam State.reset true []) = .next t ∧ t.banks.dirty = true)
      ∧ ∃ t, exec .readOutput { State.reset with banks := { State.reset.banks with dirty := true } } = .next t
        ∧ t.banks.dirty = true :=
  ⟨exists_next (p := fun t => t.banks.dirty) (by decide), exists_next (p := fun t => t.banks.dirty) (by decide)⟩

set_option maxRecDepth 8000 in
/-- An operation of the bank engine, an admitted CONFIGURE_BANK that completes, and an EEPROM operation. -/
theorem witness_BankAndEepromMeetOnlyInTheNotification :
    completes (.write .b1 0x77#8) (fitted State.reset chip) (fun _ => true) = true
      ∧ (∃ t, exec (.configureBank .b1 1#16 true false true) (withOperand (fitted State.reset chip) (List.replicate 256 0x11#8))
          = .next t ∧ t.banks.isRam = true)
      ∧ completes .tickBusy (withRam (fitted State.reset chip) true [(0, 0x12#8)]) (fun _ => true) = true :=
  ⟨by decide, exists_next (p := fun t => t.banks.isRam) (by decide), by decide⟩

theorem witness_WithoutADeviceNothingHappens : State.reset.eeprom = none := by decide

theorem witness_WithADevice :
    (fitted State.reset chip).eeprom = some chip
      ∧ (fitted State.reset { chip with inProgrammingCycle := true, busyCounter := 98 }).eeprom
        = some { chip with inProgrammingCycle := true, busyCounter := 98 } := by decide

/-- The hypotheses of LatchOutputAndNotificationOperations and DirtyFlagOperations. -/
theorem witness_LatchOutputAndNotificationOperations : (fitted State.reset chip).eeprom = some chip := by decide

/-- Below, at and above the last tick of a cycle. -/
theorem witness_TickBusyCountsToReady :
    [98, 99, 100].all (fun n => onChip (fitted State.reset { chip with inProgrammingCycle := true, busyCounter := n })
      (·.inProgrammingCycle)) = true := by decide

theorem witness_ReadyComesAtTheHundredthTick : 99 < 100 ∧ 100 ≤ 100 := by decide

theorem witness_CsEdgeResetsTheProtocolAndNothingElse :
    (true ≠ chip.lastCs) ∧ ((0x0080#16).getLsbD 7 = true ∧ ¬(true = true ∧ (0x0080#16).getLsbD 1 = true ∧ chip.lastClk = false))
      ∧ (false ≠ { chip with lastCs := true }.lastCs) ∧ ((0x0002#16).getLsbD 7 = false) ∧ (false = chip.lastCs) := by decide

theorem witness_StartBitIsCapturedInIdle : chip.protocolState = .idle := by decide

/-- A device that has just captured its start bit. -/
def started (e : Eeprom) : Eeprom := { e with protocolState := .address, shiftAccumulator := 1#32 }

theorem witness_CommandIsDecodedAfterExactlyAddrBitsPlusTwo :
    (started chip).protocolState = .address ∧ (started chip).shiftAccumulator = 1#32
      ∧ (7 < (started chip).addrBits + 2 ∧ 127 < 2 ^ 7) ∧ 255 < 2 ^ ((started chip).addrBits + 2) := by decide

/-- The general clause with an accumulator no start bit gives, and the sequence at the last address. -/
theorem witness_ReadCommandLoadsTheCell :
    (let e := { chip with protocolState := .address, shiftAccumulator := 0xFFFFFFC2#32 };
      e.protocolState = .address ∧ (e.shift true).shiftAccumulator &&& e.doneMask ≠ 0#32
        ∧ (e.shift true).shiftAccumulator.toNat / 2 ^ e.addrBits % 4 = 2)
      ∧ (started chip).protocolState = .address ∧ (started chip).shiftAccumulator = 1#32 ∧ 63 < 2 ^ (started chip).addrBits
      ∧ { started chip with inProgrammingCycle := true }.inProgrammingCycle = true := by decide

theorem witness_WriteCommandAwaitsTheData :
    (let e := { chip with protocolState := .address, shiftAccumulator := 0x000000A2#32 };
      e.protocolState = .address ∧ (e.shift true).shiftAccumulator &&& e.doneMask ≠ 0#32
        ∧ (e.shift true).shiftAccumulator.toNat / 2 ^ e.addrBits % 4 = 1)
      ∧ 0 < 2 ^ (started chip).addrBits := by decide

theorem witness_EraseCommandErasesOneCellAndBeginsBusy :
    (started chip).storage.wf = true ∧ (started chip).protocolState = .address ∧ (started chip).shiftAccumulator = 1#32
      ∧ 63 < 2 ^ (started chip).addrBits ∧ (started chip).writeProtected = true
      ∧ (started { chip with writeProtected := false, storage := [(63, 0#16)] }).storage.wf = true
      ∧ (started { chip with writeProtected := false }).writeProtected = false := by decide

theorem witness_ExtendedCommandsSetWriteProtection :
    (started chip).protocolState = .address ∧ (started chip).shiftAccumulator = 1#32 ∧ 3 < 4
      ∧ 15 < 2 ^ ((started chip).addrBits - 2) := by decide

theorem witness_DataPayloadIsStoredAndBeginsBusy :
    let e := { chip with protocolState := .data, shiftAccumulator := 1#32, selectedAddress := 0xFFFF#16 }
    e.storage.wf = true ∧ e.protocolState = .data ∧ e.shiftAccumulator = 1#32 ∧ 15 < e.dataBits ∧ 0xFFFF < 2 ^ e.dataBits
      ∧ e.writeProtected = true ∧ { e with writeProtected := false }.writeProtected = false := by decide

theorem witness_WaitShiftsTheReadValueOutMsbFirst :
    let e := { chip with protocolState := .wait, pendingReadValue := 0x8001#16 }
    e.protocolState = .wait ∧ e.inProgrammingCycle = false ∧ (List.replicate 16 true).length = 15 + 1
      ∧ (List.replicate 17 true).length = 16 + 1 := by decide

theorem witness_SecondProgrammingCommandRestartsTheCount :
    (let e := { chip with protocolState := .address, shiftAccumulator := 0xE2#32, inProgrammingCycle := true, busyCounter := 40 };
      (e.shift false).shiftAccumulator &&& e.doneMask ≠ 0#32 ∧ (e.shift false).shiftAccumulator.toNat / 2 ^ e.addrBits % 4 = 3)
      ∧ (let e := { chip with protocolState := .data, shiftAccumulator := 0x8000#32, inProgrammingCycle := true };
        (e.shift false).shiftAccumulator &&& e.dataMask ≠ 0#32) := by decide

/-- The hypotheses at the counter values before a CS rise (0x080), a processed clock (0x082), a clock fall (0x084), a clock
rise with CS low (0x002), a clock level that stays (0x081, 0x083), a CS fall (0x100) and the wrap. -/
theorem witness_AccessClocksTheEepromByTheCounter :
    ([0x07F#11, 0x081#11, 0x083#11, 0x001#11, 0x080#11, 0x082#11, 0x0FF#11, 0x7FF#11] : List (BitVec 11)).all (fun po =>
      let e := { chipDi with lastCs := po.getLsbD 7, lastClk := po.getLsbD 1 }
      let s := fitted (block 0#8 po false false) e
      !s.regs.strobeLevel && decide (s.eeprom = some e) && completes (.read .b0) s (fun _ => true)
        && completes (.write .b0 0#8) s (fun _ => true)) = true := by decide

theorem witness_CellReadAfterWrite : Memory.wf ([(5, 0xAAAA#16)] : Memory 16) = true := by decide

/-- The first cell out of reach, in 16-bit and in 8-bit mode, and a storage that differs only there. -/
theorem witness_ProtocolReachesOnlyMaskedCells :
    (if chip.eightBit then 2 ^ (chip.addrBits - 1) else 2 ^ chip.addrBits) ≤ 64
      ∧ (let e := Eeprom.fresh .c46 true;
        (if e.eightBit then 2 ^ (e.addrBits - 1) else 2 ^ e.addrBits) ≤ 64)
      ∧ (∀ a < (if chip.eightBit then 2 ^ (chip.addrBits - 1) else 2 ^ chip.addrBits),
          Memory.read ([(64, 0#16)] : Memory 16) a = chip.storage.read a)
      ∧ chip.storage.wf = true ∧ Memory.wf ([(64, 0#16)] : Memory 16) = true := by decide

theorem witness_WriteProtectedDeviceKeepsItsCells :
    chip.writeProtected = true
      ∧ (let e := { chipDi with protocolState := .address, shiftAccumulator := 0x98#32, lastCs := true };
        (e.notify 0x0082#16).writeProtected ≠ e.writeProtected)
      ∧ (let e := { chipDi with
            protocolState := .address
            shiftAccumulator := 0x98#32
            isDirty := true
            lastCs := true };
        e.writeProtected = true ∧ completes (.read .b0) (fitted (block 0#8 0x081#11 false false) e) (fun t =>
          onChip t (fun e' => e'.isDirty && (e'.writeProtected != e.writeProtected))) = true) := by decide

theorem witness_OnlyConfigureEepromChangesTheDevice :
    ∃ t, exec .tickBusy (fitted State.reset chip) = .next t ∧ t.eeprom.isSome = true :=
  exists_next (p := fun t => t.eeprom.isSome) (by decide)

theorem witness_WrittenCellIsReadBackOnlyIfEnabled :
    let e := { chip with writeProtected := false }
    e.storage.wf = true ∧ e.protocolState = .idle ∧ 63 < 2 ^ e.addrBits ∧ 0xFFFF < 2 ^ e.dataBits
      ∧ ((List.replicate 16 false).length = 15 + 1 ∧ 15 < e.dataBits) := by decide

theorem witness_SavesGiveTheRecordsAndChangeNothing :
    State.reset.eeprom = none ∧ (fitted State.reset chip).eeprom = some chip := by decide

/-- R247's conditions at their boundaries: the counter 7FF and 800, the tags 3 and 4, the busy bytes 100 and 101. -/
theorem witness_LoadsRefuseExactlyMalformedRecords :
    bankRecordOk [0xFF#8, 0xFF#8, 0x07#8, 0x01#8, 0x00#8] ∧ ¬ bankRecordOk [0x00#8, 0x00#8, 0x08#8, 0x00#8, 0x00#8]
      ∧ ¬ bankRecordOk [0x00#8, 0x00#8, 0x00#8, 0x02#8, 0x00#8] := by
  unfold bankRecordOk
  decide

set_option maxRecDepth 8000 in
theorem witness_eepromRecordOk :
    eepromRecordOk .c46 ([3, 0, 0, 0, 0, 0, 0, 0, 0, 1, 1, 1, 1, 100, 1, 1, 0, 0] ++ List.replicate 256 0xFF#8)
      ∧ ¬ eepromRecordOk .c46 ([4, 0, 0, 0, 0, 0, 0, 0, 0, 0, 1, 0, 0, 0, 0, 0, 0, 0] ++ List.replicate 256 0xFF#8)
      ∧ ¬ eepromRecordOk .c46 ([0, 0, 0, 0, 0, 0, 0, 0, 0, 0, 1, 0, 0, 101, 0, 0, 0, 0] ++ List.replicate 256 0xFF#8)
      ∧ ¬ eepromRecordOk .c46 [] := by
  unfold eepromRecordOk
  decide

/-- A full record of a block without a device. -/
theorem witness_LoadStateRestoresTheRecord :
    let s := withOperand State.reset [0x05#8, 0x23#8, 0x01#8, 0x00#8, 0x01#8]
    bankRecordOk s.operand ∧ s.eeprom = none ∧ s.operand.length = 5 := by
  unfold bankRecordOk
  decide

set_option maxRecDepth 8000 in
/-- A full record of a block with a device, and its image for LOAD_EEPROM. -/
theorem witness_LoadStateRestoresTheRecord_device :
    let image : List Byte := [3, 0, 0, 0, 0, 0, 0, 0, 0, 1, 1, 1, 1, 100, 1, 1, 0, 0] ++ List.replicate 256 0xFF#8
    let s := withOperand (fitted State.reset chip) ([0x05#8, 0x23#8, 0x01#8, 0x00#8, 0x01#8] ++ image)
    bankRecordOk s.operand ∧ s.eeprom = some chip ∧ eepromRecordOk chip.device (s.operand.drop 5) := by
  unfold bankRecordOk eepromRecordOk
  decide

set_option maxRecDepth 8000 in
theorem witness_LoadEepromRestoresTheImage :
    (let s := withOperand State.reset [];
      s.eeprom = none ∧ s.operand = [])
    ∧ (let s := withOperand (fitted State.reset chip)
        ([3, 0, 0, 0, 0, 0, 0, 0, 0, 1, 1, 1, 1, 100, 1, 1, 0, 0] ++ List.replicate 256 0xFF#8);
      s.eeprom = some chip ∧ eepromRecordOk chip.device s.operand) := by
  unfold eepromRecordOk
  decide

set_option maxRecDepth 8000 in
/-- Two blocks of one configuration with different registers and cells, and the record of the first as operand. -/
theorem witness_LoadOfSaveRestoresTheBlock :
    let s := fitted (block 0x0B#8 2#11 false true) { chip with protocolState := .data, storage := [(5, 0xAAAA#16)] }
    let s' := withOperand (fitted State.reset chip) s.record
    s.wf = true ∧ s'.wf = true ∧ (s.banks = s'.banks
      ∧ s.eeprom.map (fun e => (e.device, e.eightBit)) = s'.eeprom.map (fun e => (e.device, e.eightBit)))
      ∧ s'.operand = s.record := by decide

theorem witness_LoadOfSaveRestoresTheBlock_save :
    (∃ t, exec .saveState (fitted State.reset chip) = .next t ∧ t.result = .bytes (fitted State.reset chip).record)
      ∧ ∃ t, exec .saveEeprom (fitted State.reset chip) = .next t ∧ t.result = .bytes (fitted State.reset chip).eepromImage :=
  ⟨⟨_, rfl, rfl⟩, ⟨_, rfl, rfl⟩⟩

theorem witness_SoftResetClearsOnlyTheAddressRegisters :
    { chip with lastCs := true }.lastCs = true
      ∧ (fitted State.reset { chip with lastCs := true }).eeprom = some { chip with lastCs := true }
      ∧ completes (.write .b1 0#8) (fitted State.reset { chip with lastCs := true }) (fun _ => true) = true := by decide

theorem witness_StepKeepsTheStateWellFormed :
    (issuing (withRam State.reset true []) .mutator 0x300001A5#32).wf = true
      ∧ (match step (issuing (withRam State.reset true []) .mutator 0x300001A5#32) with
        | .next t => t.banks.dirty
        | .fault _ => false
        | .refused _ => false) = true := by decide

theorem witness_StrobeHighKeepsCounterAndLinesLow :
    isFromOutside (.write .b0 0#8) = false ∧ (fitted (block 0#8 0#11 true false) chip).strobeCoherent = true
      ∧ completes (.write .b0 0#8) (fitted (block 0#8 0#11 true false) chip) (·.regs.strobeLevel) = true := by decide

theorem witness_BusyCycleKeepsTheOutputLow :
    let s := fitted State.reset { chip with inProgrammingCycle := true, busyCounter := 99 }
    Instr.tickBusy ≠ .loadState ∧ Instr.tickBusy ≠ .loadEeprom ∧ s.busyCoherent = true
      ∧ completes .tickBusy s (fun _ => true) = true := by decide

end Sys2Proof.Tests
end

section
/-! PROOFS. An access to an empty slot (10_state.md R43): SlotByte gives FILL there and the store part of WRITE does
nothing, from which the obligation follows operation by operation. -/

namespace Sys2Proof.Machine

/-! ### The operations of an empty slot -/

theorem State.slotByte_of_empty {s : State} {k : SlotId} (h : (s.banks.slot k).geometry.size = 0) :
    s.slotByte k = 0xFF#8 := if_pos h

theorem Banks.stores_of_empty {b : Banks} {k : SlotId} (h : (b.slot k).geometry.size = 0) : b.stores k = false := by
  refine Bool.eq_false_iff.2 fun hs => ?_
  obtain ⟨rfl, -, -, hpos⟩ := Banks.stores_iff.1 hs
  exact hpos.ne' h

theorem State.offer_of_empty {s : State} {k : SlotId} (h : (s.banks.slot k).geometry.size = 0) (v : Byte) :
    s.offer k v = s := by
  simp [State.offer_eq, Banks.stores_of_empty h]

/-! ### The obligation -/

/-- Settles O13: READ and PEEK give SlotByte, which is FILL, and the banks after WRITE are those of its store part, since
the advance of the counter keeps them. -/
theorem emptySlotReadsFillAndStoresNothing : Obligations.EmptySlotReadsFillAndStoresNothing := by
  intro s b hempty
  have hbyte : Result.byte (s.slotByte b) = .byte 0xFF#8 := congrArg _ (State.slotByte_of_empty hempty)
  refine ⟨⟨_, rfl, hbyte⟩, ⟨_, rfl, hbyte⟩, fun v => ⟨_, rfl, ?_⟩⟩
  rw [State.returning_banks, State.advance_banks, State.offer_of_empty hempty]

end Sys2Proof.Machine
end

section
/-! PROOFS. The protocol and the cells out of its reach (20_memory.md R85): a relation of two EEPROMs that differ in their
storage alone, and a commuting lemma for each step of the protocol engine, from the cells up to the notification. -/

namespace Sys2Proof.Machine

/-! ### Storages alike in reach -/

/-- The storage `m` reads as that of `e` in every cell the protocol reaches (20_memory.md R85). -/
def Eeprom.AgreesInReach (e : Eeprom) (m : Memory 16) : Prop := ∀ a < e.reach, m.read a = e.storage.read a

/-- The two EEPROMs have the same registers and, under a condition, the same reachable cells. -/
def Eeprom.EqInReach (canonical : Prop) (e f : Eeprom) : Prop :=
  ∃ m, f = { e with storage := m } ∧ (canonical → e.AgreesInReach m)

theorem Eeprom.EqInReach.ite {p canonical : Prop} [Decidable p] {e₁ e₂ f₁ f₂ : Eeprom}
    (hpos : p → EqInReach canonical e₁ f₁) (hneg : ¬ p → EqInReach canonical e₂ f₂) :
    EqInReach canonical (if p then e₁ else e₂) (if p then f₁ else f₂) := by
  split
  · next h => exact hpos h
  · next h => exact hneg h

theorem Eeprom.EqInReach.beginBusy_wait {canonical : Prop} {e f : Eeprom} (h : EqInReach canonical e f) :
    EqInReach canonical { e.beginBusy with protocolState := .wait } { f.beginBusy with protocolState := .wait } := by
  obtain ⟨m, rfl, hm⟩ := h
  exact ⟨m, rfl, hm⟩

/-! ### Cells -/

/-- The 16-bit cell that is, or holds, the cell at an address the mask admits is in reach, so it reads alike. -/
theorem Eeprom.AgreesInReach.read_index {e : Eeprom} {m : Memory 16} (h : e.AgreesInReach m) {a : Nat}
    (ha : a < 2 ^ e.addrBits) :
    m.read (if e.eightBit then a >>> 1 else a) = e.storage.read (if e.eightBit then a >>> 1 else a) :=
  h _ (shiftRight_one a ▸ e.cell_index_lt ha)

theorem Eeprom.AgreesInReach.cell_eq {e : Eeprom} {m : Memory 16} (h : e.AgreesInReach m) {a : Nat}
    (ha : a < 2 ^ e.addrBits) : Eeprom.cell { e with storage := m } a = e.cell a := by
  have hread := h.read_index ha
  unfold Eeprom.cell cell8
  cases h8 : e.eightBit
  · simpa [h8] using hread
  · simp only [h8, if_true] at hread ⊢
    rw [hread]

/-- A store writes the same value to the same reachable 16-bit cell of both storages: the value depends on the storage
only through that cell, whose other half a byte store keeps. -/
theorem Eeprom.AgreesInReach.setCell_write {e : Eeprom} {m : Memory 16} (h : e.AgreesInReach m) {a : Nat}
    (ha : a < 2 ^ e.addrBits) (v : BitVec 16) :
    ∃ k x, e.setCell a v = { e with storage := e.storage.write k x }
      ∧ Eeprom.setCell { e with storage := m } a v = { e with storage := m.write k x } := by
  have hread := h.read_index ha
  unfold Eeprom.setCell setCell8
  cases h8 : e.eightBit
  · exact ⟨a, v, rfl, rfl⟩
  · simp only [h8, if_true] at hread
    exact ⟨a >>> 1, _, rfl, by simp only [if_true, hread]⟩

/-- The same write to both storages leaves them alike, when reads give what was written (`Memory.read_write`). -/
theorem Eeprom.AgreesInReach.write {e : Eeprom} {m : Memory 16} (h : e.AgreesInReach m)
    (hcanonical : e.storage.wf = true ∧ m.wf = true) (k : Nat) (x : BitVec 16) :
    Eeprom.AgreesInReach { e with storage := e.storage.write k x } (m.write k x) := by
  intro a ha
  show (m.write k x).read a = (e.storage.write k x).read a
  rw [Memory.read_write hcanonical.1, Memory.read_write hcanonical.2, h a ha]

/-! ### The protocol engine, step by step -/

theorem Eeprom.clockEdge_of_idle {e : Eeprom} (he : e.protocolState = .idle) (di : Bool) :
    e.clockEdge di = e.startBit di := by
  rw [Eeprom.clockEdge, he]

section
variable {e : Eeprom} {m : Memory 16} (h : e.AgreesInReach m)
include h

theorem Eeprom.AgreesInReach.program {a : Nat} (ha : a < 2 ^ e.addrBits) (v : BitVec 16) :
    EqInReach (e.storage.wf = true ∧ m.wf = true) (e.program a v) (Eeprom.program { e with storage := m } a v) := by
  obtain ⟨k, x, he, hm⟩ := h.setCell_write ha v
  refine .ite (fun _ => ⟨m, rfl, fun _ => h⟩) fun _ => ?_
  rw [he, hm]
  exact ⟨m.write k x, rfl, fun hcanonical => h.write hcanonical k x⟩

theorem Eeprom.AgreesInReach.extendedCmd (canonical : Prop) (a : Nat) :
    EqInReach canonical (e.extendedCmd a) (Eeprom.extendedCmd { e with storage := m } a) :=
  .ite (fun _ => ⟨m, rfl, fun _ => h⟩) fun _ => .ite (fun _ => ⟨m, rfl, fun _ => h⟩) fun _ => ⟨m, rfl, fun _ => h⟩

theorem Eeprom.AgreesInReach.readCmd (canonical : Prop) {a : Nat} (ha : a < 2 ^ e.addrBits) :
    EqInReach canonical (e.readCmd a) (Eeprom.readCmd { e with storage := m } a) := by
  refine ⟨m, ?_, fun _ => h⟩
  unfold Eeprom.readCmd
  rw [h.cell_eq ha]

/-- The decode selects the same command and the same address, which the mask admits. -/
theorem Eeprom.AgreesInReach.decodeCmd :
    EqInReach (e.storage.wf = true ∧ m.wf = true) e.decodeCmd (Eeprom.decodeCmd { e with storage := m }) := by
  have ha := e.masked_lt e.shiftAccumulator.toNat
  have hsel : AgreesInReach
      { e with selectedAddress := BitVec.ofNat 16 (e.shiftAccumulator.toNat &&& e.addrMask) } m := h
  exact .ite (fun _ => hsel.readCmd _ ha) fun _ => .ite (fun _ => ⟨m, rfl, fun _ => hsel⟩) fun _ =>
    .ite (fun _ => (hsel.program ha e.valueMask).beginBusy_wait) fun _ => hsel.extendedCmd _ _

theorem Eeprom.AgreesInReach.clockEdge (di : Bool) :
    EqInReach (e.storage.wf = true ∧ m.wf = true) (e.clockEdge di)
      (Eeprom.clockEdge { e with storage := m } di) := by
  have hshift : (e.shift di).AgreesInReach m := h
  obtain ⟨p, hs⟩ : ∃ p, e.protocolState = p := ⟨_, rfl⟩
  cases p with
  | idle =>
    rw [Eeprom.clockEdge_of_idle hs, Eeprom.clockEdge_of_idle (e := { e with storage := m }) hs]
    exact .ite (fun _ => ⟨m, rfl, fun _ => h⟩) fun _ => ⟨m, rfl, fun _ => h⟩
  | address =>
    rw [Eeprom.clockEdge_of_address hs, Eeprom.clockEdge_of_address (e := { e with storage := m }) hs]
    exact .ite (fun _ => ⟨m, rfl, fun _ => hshift⟩) fun _ => hshift.decodeCmd
  | data =>
    rw [Eeprom.clockEdge_of_data hs, Eeprom.clockEdge_of_data (e := { e with storage := m }) hs]
    exact .ite (fun _ => ⟨m, rfl, fun _ => hshift⟩) fun _ =>
      (hshift.program ((e.shift di).masked_lt _) _).beginBusy_wait
  | wait =>
    rw [Eeprom.clockEdge_of_wait hs, Eeprom.clockEdge_of_wait (e := { e with storage := m }) hs]
    exact .ite (fun _ => ⟨m, rfl, fun _ => hshift⟩) fun _ => ⟨m, rfl, fun _ => hshift⟩

theorem Eeprom.AgreesInReach.notify (c : BitVec 16) :
    EqInReach (e.storage.wf = true ∧ m.wf = true) (e.notify c) (Eeprom.notify { e with storage := m } c) := by
  rw [Eeprom.notify_eq, Eeprom.notify_eq, Eeprom.csStep_eq, Eeprom.csStep_eq]
  exact .ite (fun _ => AgreesInReach.clockEdge
    (e := { e with
      protocolState := if counterCs c = e.lastCs then e.protocolState else .idle
      shiftAccumulator := if counterCs c = e.lastCs then e.shiftAccumulator else 0#32
      lastCs := counterCs c
      lastClk := counterClk c }) h _) fun _ => ⟨m, rfl, fun _ => h⟩

end

/-! ### The obligation -/

theorem Eeprom.reach_notify (e : Eeprom) (c : BitVec 16) : (e.notify c).reach = e.reach := by
  obtain ⟨hdevice, hmode, -⟩ := e.notify_keeps c
  unfold Eeprom.reach Eeprom.addrBits
  rw [hdevice, hmode]

/-- A cell out of reach is never the one a notification writes. -/
theorem Eeprom.read_notify_of_reach_le (e : Eeprom) (c : BitVec 16) {a : Nat} (ha : e.reach ≤ a) :
    (e.notify c).storage.read a = e.storage.read a := by
  rcases e.notify_storage c with ⟨hsame, -⟩ | ⟨k, x, hk, -, hwrite, -⟩
  · rw [hsame]
  · rw [hwrite, Memory.read_write_ne x (hk.trans_le ha).ne]

/-- Settles O46: a notification writes a reachable cell if any, and it commutes with the replacement of the cells out of
reach, since every address it uses is masked. -/
theorem protocolReachesOnlyMaskedCells : Obligations.ProtocolReachesOnlyMaskedCells := by
  refine fun e c => ⟨fun a ha => e.read_notify_of_reach_le c ha, fun m hm => ?_⟩
  obtain ⟨m', hnotify, hagrees⟩ := Eeprom.AgreesInReach.notify (e := e) hm c
  exact ⟨m', hnotify, fun he hm a ha => hagrees ⟨he, hm⟩ a (by rwa [e.reach_notify c])⟩

end Sys2Proof.Machine
end

section
/-! PROOFS. The bank engine and the EEPROM (20_memory.md R96): two blocks that differ in the EEPROM alone are led by each
shared procedure of the bank engine to two such blocks, and the EEPROM moves only by the notification of the counter. -/

namespace Sys2Proof.Machine

/-- The two blocks differ in the EEPROM at most. -/
def State.EqButEeprom (t u : State) : Prop := u = { t with eeprom := u.eeprom }

/-- From `s` to `t` the EEPROM is kept, or notified with the counter value of `t` (20_memory.md R96). -/
def State.MovesEepromByCounter (s t : State) : Prop :=
  t.eeprom = s.eeprom ∨ t.eeprom = s.eeprom.map (Eeprom.notify · (t.regs.pageOffset.zeroExtend 16))

theorem State.EqButEeprom.returning {t u : State} (h : t.EqButEeprom u) (r : Result) :
    (t.returning r).EqButEeprom (u.returning r) := congrArg (State.returning · r) h

/-! ### The shared procedures -/

theorem State.advance_eqButEeprom (s : State) (e : Option Eeprom) :
    s.advance.EqButEeprom (State.advance { s with eeprom := e }) := by
  unfold State.advance
  cases h : s.regs.strobeLevel <;> simp [h, State.EqButEeprom, State.notify, State.mapEeprom]

theorem State.advance_movesEepromByCounter (s : State) : s.MovesEepromByCounter s.advance := by
  unfold State.MovesEepromByCounter
  rw [State.advance_eeprom, State.advance_regs]
  split
  · exact .inl rfl
  · exact .inr rfl

theorem State.offer_withEeprom (s : State) (e : Option Eeprom) (b : SlotId) (v : Byte) :
    State.offer { s with eeprom := e } b v = { s.offer b v with eeprom := e } := by
  rw [State.offer_eq, State.offer_eq]
  rfl

theorem State.offer_eeprom (s : State) (b : SlotId) (v : Byte) : (s.offer b v).eeprom = s.eeprom := by
  rw [State.offer_eq]

theorem AddressRegs.strobeShift_pageOffset (r : AddressRegs) (l : Bool) :
    (r.strobeShift l).pageOffset = r.pageOffset := by
  unfold AddressRegs.strobeShift
  split <;> rfl

/-! ### The operations of the bank engine -/

/-- R96's clause on one operation of the bank engine: whatever the EEPROM it completes, the blocks it leads to differ in
the EEPROM alone, and the EEPROM moves by the counter alone. -/
def TouchesEepromByCounterOnly (i : Instr) : Prop :=
  ∀ (s : State) (e : Option Eeprom), ∃ t u, exec i s = .next t ∧ exec i { s with eeprom := e } = .next u
    ∧ t.EqButEeprom u ∧ s.MovesEepromByCounter t

theorem read_touchesEepromByCounterOnly (b : SlotId) : TouchesEepromByCounterOnly (.read b) := fun s e =>
  ⟨_, _, rfl, rfl, (s.advance_eqButEeprom e).returning _, s.advance_movesEepromByCounter⟩

theorem write_touchesEepromByCounterOnly (b : SlotId) (v : Byte) : TouchesEepromByCounterOnly (.write b v) := by
  refine fun s e => ⟨_, _, rfl, rfl, ?_, ?_⟩
  · rw [s.offer_withEeprom e]
    exact ((s.offer b v).advance_eqButEeprom e).returning .nothing
  · have hmove := (s.offer b v).advance_movesEepromByCounter
    rwa [State.MovesEepromByCounter, State.offer_eeprom] at hmove

theorem strobe_touchesEepromByCounterOnly (l : Bool) : TouchesEepromByCounterOnly (.strobe l) := by
  intro s e
  cases l with
  | false => exact ⟨_, _, rfl, rfl, rfl, .inl rfl⟩
  | true =>
    refine ⟨_, _, rfl, rfl, rfl, .inr ?_⟩
    simp [State.strobeReset, AddressRegs.strobeShift_pageOffset]

theorem peek_touchesEepromByCounterOnly (b : SlotId) : TouchesEepromByCounterOnly (.peek b) :=
  fun _ _ => ⟨_, _, rfl, rfl, rfl, .inl rfl⟩

theorem setBit_touchesEepromByCounterOnly (l : Bool) : TouchesEepromByCounterOnly (.setBit l) :=
  fun _ _ => ⟨_, _, rfl, rfl, rfl, .inl rfl⟩

/-- An admitted CONFIGURE_BANK completes; the admission looks at no EEPROM. -/
theorem execConfigureBank_of_admissible {cb : SlotId} {ps : BitVec 16} {ram shadow we : Bool} {s : State} {g : Geometry}
    (h : admissible cb ps ram shadow we s.operand.length = some g) :
    execConfigureBank cb ps ram shadow we s
      = .next ({ s with banks := s.banks.configure cb g ram shadow we s.operand }.returning .nothing) := by
  rw [execConfigureBank, h]

theorem configureBank_withEeprom {cb : SlotId} {ps : BitVec 16} {ram shadow we : Bool} {s t : State}
    (h : exec (.configureBank cb ps ram shadow we) s = .next t) (e : Option Eeprom) :
    t.eeprom = s.eeprom
      ∧ exec (.configureBank cb ps ram shadow we) { s with eeprom := e } = .next { t with eeprom := e } := by
  obtain ⟨g, hadmissible, rfl⟩ := configureBank_next h
  exact ⟨rfl, execConfigureBank_of_admissible (s := { s with eeprom := e }) hadmissible⟩

/-! ### The obligation -/

/-- Settles O27: operation by operation; the meanings of the EEPROM operations name no bank, so their clause holds by
evaluation. -/
theorem bankAndEepromMeetOnlyInTheNotification : Obligations.BankAndEepromMeetOnlyInTheNotification := by
  refine fun i s e banks => ⟨?_, ?_, ?_⟩
  · rintro (⟨b, rfl⟩ | ⟨b, rfl⟩ | ⟨b, v, rfl⟩ | ⟨l, rfl⟩ | ⟨l, rfl⟩)
    · exact read_touchesEepromByCounterOnly b s e
    · exact peek_touchesEepromByCounterOnly b s e
    · exact write_touchesEepromByCounterOnly b v s e
    · exact strobe_touchesEepromByCounterOnly l s e
    · exact setBit_touchesEepromByCounterOnly l s e
  · rintro cb ps ram shadow we t rfl hnext
    exact configureBank_withEeprom hnext e
  · rintro (⟨d, v, rfl⟩ | rfl | rfl | ⟨c, rfl⟩ | ⟨d, e8, rfl⟩) <;> exact ⟨_, rfl, rfl, rfl⟩

end Sys2Proof.Machine
end

section
/-! PROOFS. The store of a WRITE (40_bank_engine.md R152, R153): when a well-formed block stores, what the store of one
byte does to every byte of every slot, and that the banks after WRITE are those of its store part. -/

namespace Sys2Proof.Machine

/-! ### When a WRITE stores -/

theorem Geometry.size_pos {g : Geometry} (h : g ≠ .empty) : 0 < g.size := by
  cases g with
  | empty => exact absurd rfl h
  | pages j => exact Nat.mul_pos (Nat.two_pow_pos j.val) (by decide)

/-- In well-formed banks a RAM B1 is not empty, so the size condition of a store is R153's `is_ram` already. -/
theorem Banks.stores_iff_of_wf {b : Banks} (h : b.wf = true) {k : SlotId} :
    b.stores k = true ↔ k = .b1 ∧ b.isRam = true ∧ b.writeEnabled = true := by
  obtain ⟨-, hram, -, -⟩ := Banks.wf_iff.1 h
  rw [Banks.stores_iff]
  exact ⟨fun ⟨hk, hr, hw, _⟩ => ⟨hk, hr, hw⟩, fun ⟨hk, hr, hw⟩ => ⟨hk, hr, hw, Geometry.size_pos (hram hr)⟩⟩

/-! ### The bytes after a store -/

theorem Banks.read_storeB1_same {b : Banks} (h : b.b1.content.wf = true) (a : Nat) (v : Byte) :
    ((b.storeB1 a v).slot .b1).content.read a = v :=
  (Memory.read_write h a a v).trans (if_pos rfl)

theorem Banks.read_storeB1_other (b : Banks) {k : SlotId} {a i : Nat} (v : Byte) (h : ¬(k = .b1 ∧ i = a)) :
    ((b.storeB1 a v).slot k).content.read i = (b.slot k).content.read i := by
  cases k with
  | b1 => exact Memory.read_write_ne v fun hai => h ⟨rfl, hai.symm⟩
  | b0 | b0a | b1a => rfl

/-! ### The obligation -/

theorem write_banks (s : State) (b : SlotId) (v : Byte) :
    ∃ t, exec (.write b v) s = .next t
      ∧ t.banks = if s.banks.stores b then s.banks.storeB1 (s.addressFor .b1) v else s.banks :=
  ⟨_, rfl, by rw [State.returning_banks, State.advance_banks, State.offer_eq]⟩

/-- Settles O14: the banks after WRITE are those after its store part, which stores under R153's condition and reads back
byte by byte. -/
theorem writeStoresExactlyInWritableB1 : Obligations.WriteStoresExactlyInWritableB1 := by
  intro s b v hwf
  have hbanks := ((State.wf_iff s).1 hwf).1
  obtain ⟨hslots, -⟩ := Banks.wf_iff.1 hbanks
  obtain ⟨t, hexec, ht⟩ := write_banks s b v
  refine ⟨t, hexec, ?_⟩
  simp only [Banks.stores_iff_of_wf hbanks] at ht
  split
  · next hstores =>
    rw [if_pos hstores] at ht
    unfold State.contentByte
    rw [ht]
    exact ⟨Banks.read_storeB1_same (Slot.wf_iff.1 (hslots .b1)).1 _ v,
      fun _ _ hother => Banks.read_storeB1_other s.banks v hother, rfl⟩
  · next hkeeps => rwa [if_neg hkeeps] at ht

end Sys2Proof.Machine
end

section
/-! PROOFS. The strobe (40_bank_engine.md R162 to R164): the reset and the shift each in one line for every level, the
shifted value as a number, and the two steps in either order. -/

namespace Sys2Proof.Machine

/-! ### The two steps of STROBE -/

/-- The reset moves the counter and the EEPROM alone. -/
theorem State.strobeReset_eq (s : State) (l : Bool) :
    s.strobeReset l = { s with
      regs := { s.regs with pageOffset := if l then 0#11 else s.regs.pageOffset }
      eeprom := if l then s.eeprom.map (Eeprom.notify · 0#16) else s.eeprom } := by
  cases l <;> rfl

/-- The shift moves `shift_value` alone, and looks at the two levels alone. -/
theorem AddressRegs.strobeShift_eq (r : AddressRegs) (l : Bool) :
    r.strobeShift l = { r with shiftValue :=
      if r.strobeLevel = false ∧ l = true then (r.shiftValue <<< 1) ||| (BitVec.ofBool r.bitLevel).zeroExtend 8
      else r.shiftValue } := by
  have hedge : (!r.strobeLevel && l) = true ↔ r.strobeLevel = false ∧ l = true := by simp
  simp only [AddressRegs.strobeShift, hedge]
  split <;> rfl

/-- The bit shifted in is the low bit of the doubled value, which has a 0 there, and bit 8 is dropped. -/
theorem toNat_shiftLeft_one_or_ofBool (x : Byte) (b : Bool) :
    ((x <<< 1) ||| (BitVec.ofBool b).zeroExtend 8).toNat = (x.toNat * 2 + if b then 1 else 0) % 256 := by
  have hdisjoint : (x <<< 1) &&& (BitVec.ofBool b).zeroExtend 8 = 0#8 := by
    ext i hi
    cases i <;> simp
  rw [← BitVec.add_eq_or_of_and_eq_zero _ _ hdisjoint]
  cases b <;> simp [BitVec.toNat_add, Nat.shiftLeft_eq]

/-! ### The obligation -/

/-- Settles O18: the reset and the shift change different registers, and neither looks at what the other changes. -/
theorem onlyARisingStrobeShiftsOneBit : Obligations.OnlyARisingStrobeShiftsOneBit := by
  refine fun s l => ⟨⟨_, rfl, ?_, rfl⟩, ?_⟩
  · simp only [State.returning_regs, State.strobeReset_eq, AddressRegs.strobeShift_eq]
    split
    · exact toNat_shiftLeft_one_or_ofBool _ _
    · rfl
  · simp only [State.strobeReset_eq, AddressRegs.strobeShift_eq]

end Sys2Proof.Machine
end

section
/-! PROOFS. The commands of the EEPROM from the start bit to the decode (41_eeprom.md R190 to R194): the bits IDLE ignores,
the decode by the opcode field of any complete accumulator, and the opcode and the address clocked in after a start bit. -/

namespace Sys2Proof.Machine

/-! ### The start bit -/

theorem Eeprom.clockBits_replicate_false_of_idle {e : Eeprom} (he : e.protocolState = .idle) (n : Nat) :
    e.clockBits (List.replicate n false) = e := by
  have hedge : e.clockEdge false = e := Eeprom.clockEdge_of_idle he false
  induction n with
  | zero => rfl
  | succ n ih => rw [List.replicate_succ, Eeprom.clockBits_cons, hedge, ih]

/-- Settles O35: each 0 bit leaves IDLE as it is, so the 1 bit meets the same state. -/
theorem startBitIsCapturedInIdle : Obligations.StartBitIsCapturedInIdle := by
  intro e n he
  have hzeros := Eeprom.clockBits_replicate_false_of_idle he n
  refine ⟨hzeros, ?_⟩
  rw [Eeprom.clockBits_append, hzeros]
  exact Eeprom.clockEdge_of_idle he true

/-! ### The decode of a complete command -/

/-- The command of an opcode, run on a decoded address (41_eeprom.md R192). -/
def Eeprom.runOpcode (e : Eeprom) (op a : Nat) : Eeprom :=
  let f := { e with selectedAddress := BitVec.ofNat 16 a }
  if op = 2 then f.readCmd a else if op = 1 then f.writeCmd else if op = 3 then f.eraseCmd a else f.extendedCmd a

theorem Eeprom.runOpcode_read (e : Eeprom) (a : Nat) :
    e.runOpcode 2 a = Eeprom.readCmd { e with selectedAddress := BitVec.ofNat 16 a } a := rfl

theorem Eeprom.runOpcode_write (e : Eeprom) (a : Nat) :
    e.runOpcode 1 a = Eeprom.writeCmd { e with selectedAddress := BitVec.ofNat 16 a } := rfl

/-- The decode of any accumulator: the opcode is the two bits above the address, whatever stands above them. -/
theorem Eeprom.decodeCmd_of_opcode {e : Eeprom} {op : Nat}
    (hop : e.shiftAccumulator.toNat / 2 ^ e.addrBits % 4 = op) :
    e.decodeCmd = e.runOpcode op (e.shiftAccumulator.toNat % 2 ^ e.addrBits) := by
  have hfield : e.shiftAccumulator.toNat >>> e.addrBits &&& 3 = op := by
    rw [Nat.shiftRight_eq_div_pow, show (3 : Nat) = 2 ^ 2 - 1 from rfl, Nat.and_two_pow_sub_one_eq_mod]
    exact hop
  unfold Eeprom.decodeCmd Eeprom.runOpcode
  rw [hfield, Eeprom.addrMask_and]

/-- A bit that sets the accumulator's done bit runs the command of the opcode field, whatever bits stand above it. -/
theorem Eeprom.clockEdge_runs_opcode {e : Eeprom} {di : Bool} {op : Nat} (he : e.protocolState = .address)
    (hdone : (e.shift di).shiftAccumulator &&& e.doneMask ≠ 0#32)
    (hop : (e.shift di).shiftAccumulator.toNat / 2 ^ e.addrBits % 4 = op) :
    e.clockEdge di = (e.shift di).runOpcode op ((e.shift di).shiftAccumulator.toNat % 2 ^ e.addrBits) :=
  calc e.clockEdge di
      = (e.shift di).addressStep := Eeprom.clockEdge_of_address he di
    _ = (e.shift di).decodeCmd := if_neg hdone
    _ = _ := Eeprom.decodeCmd_of_opcode hop

/-! ### A command clocked in after a start bit -/

/-- All `addr_bits + 2` bits of a command, the last of which decodes it. -/
theorem Eeprom.clockBits_whole_command {e : Eeprom} (he : e.protocolState = .address) (hacc : e.shiftAccumulator = 1#32)
    {v : Nat} (hv : v < 2 ^ (e.addrBits + 2)) :
    e.clockBits (msbBits (e.addrBits + 2) v)
      = Eeprom.decodeCmd { e with shiftAccumulator := BitVec.ofNat 32 (2 ^ (e.addrBits + 2) + v) } := by
  have hstart : e = { e with shiftAccumulator := BitVec.ofNat 32 1 } := by rw [← hacc]
  have hpow : 2 ^ (e.addrBits + 2) = 2 * 2 ^ (e.addrBits + 1) := Nat.pow_succ'
  have hcollect : e.clockBits (msbBits (e.addrBits + 1) (v / 2))
      = { e with shiftAccumulator := BitVec.ofNat 32 (2 ^ (e.addrBits + 1) + v / 2) } := by
    have h := Eeprom.clockBits_shift_only (Eeprom.clockEdge_address he) (e.addrBits + 1) 1 (v / 2) hpow.ge
    rwa [← hstart, Nat.one_mul, Nat.mod_eq_of_lt (by omega)] at h
  have hlast : 2 * (2 ^ (e.addrBits + 1) + v / 2) + (v.testBit 0).toNat = 2 ^ (e.addrBits + 2) + v := by
    rw [Nat.toNat_testBit, hpow]
    omega
  have hnext : 2 ^ (e.addrBits + 3) = 2 * 2 ^ (e.addrBits + 2) := Nat.pow_succ'
  calc e.clockBits (msbBits (e.addrBits + 2) v)
      = (e.clockBits (msbBits (e.addrBits + 1) (v / 2))).clockEdge (v.testBit 0) := by
        rw [msbBits_add (e.addrBits + 1) 1 v, Eeprom.clockBits_append, Nat.pow_one]
        rfl
    _ = Eeprom.decodeCmd { e with shiftAccumulator := BitVec.ofNat 32 (2 ^ (e.addrBits + 2) + v) } := by
        rw [hcollect, Eeprom.clockEdge_address_last he _ _ (by omega) (by omega), hlast]

/-- The opcode and the address after a start bit run the opcode's command on that address. -/
theorem Eeprom.clockBits_command {e : Eeprom} (he : e.protocolState = .address) (hacc : e.shiftAccumulator = 1#32)
    {op a : Nat} (hop : op < 4) (ha : a < 2 ^ e.addrBits) :
    ∃ x, e.clockBits (msbBits 2 op ++ msbBits e.addrBits a)
      = Eeprom.runOpcode { e with shiftAccumulator := x } op a := by
  have hpow : 2 ^ (e.addrBits + 2) = 4 * 2 ^ e.addrBits := by ring
  have hle : 2 ^ (e.addrBits + 2) ≤ 2 ^ 13 := Nat.pow_le_pow_right (by omega) (by have := e.addrBits_bounds; omega)
  have hv : op * 2 ^ e.addrBits + a < 2 ^ (e.addrBits + 2) := by
    have : op * 2 ^ e.addrBits ≤ 3 * 2 ^ e.addrBits := Nat.mul_le_mul_right _ (by omega)
    omega
  have htoNat : (BitVec.ofNat 32 (2 ^ (e.addrBits + 2) + (op * 2 ^ e.addrBits + a))).toNat
      = (4 + op) * 2 ^ e.addrBits + a := by
    rw [BitVec.toNat_ofNat, Nat.mod_eq_of_lt (by omega)]
    ring
  rw [msbBits_append _ _ _ _ ha, Nat.add_comm 2, Eeprom.clockBits_whole_command he hacc hv]
  exact ⟨_, Eeprom.decodeCmd_of hop ha htoNat⟩

/-! ### The READ command -/

/-- While a busy cycle runs, the clocked bits of WAIT move nothing but the accumulator (41_eeprom.md R198). -/
theorem Eeprom.clockBits_of_wait_busy (bs : List Bool) : ∀ {e : Eeprom}, e.protocolState = .wait →
    e.inProgrammingCycle = true → ∃ x, e.clockBits bs = { e with shiftAccumulator := x } := by
  induction bs with
  | nil => exact fun _ _ => ⟨_, rfl⟩
  | cons b bs ih =>
    intro e he hbusy
    have hedge : e.clockEdge b = e.shift b := (Eeprom.clockEdge_of_wait he b).trans (if_pos hbusy)
    rw [Eeprom.clockBits_cons, hedge]
    exact ih (e := e.shift b) he hbusy

/-- Settles O37: the opcode 10 runs the READ command on the selected address; in the WAIT it leads to, a busy cycle keeps
the output and the read value. -/
theorem readCommandLoadsTheCell : Obligations.ReadCommandLoadsTheCell := by
  refine ⟨fun e di he hdone hop => ?_, fun e a he hacc ha => ⟨_, rfl, ?_⟩⟩
  · rw [Eeprom.clockEdge_runs_opcode he hdone hop, Eeprom.runOpcode_read]
    rfl
  · obtain ⟨x, hread⟩ := Eeprom.clockBits_command he hacc (op := 2) (by decide) ha
    rw [show [true, false] = msbBits 2 2 from rfl, hread, Eeprom.runOpcode_read]
    refine ⟨rfl, fun hbusy bs => ?_⟩
    obtain ⟨y, hwait⟩ := Eeprom.clockBits_of_wait_busy bs
      (e := Eeprom.readCmd { e with shiftAccumulator := x, selectedAddress := BitVec.ofNat 16 a } a) rfl hbusy
    rw [hwait]
    exact ⟨rfl, rfl⟩

/-! ### The WRITE command -/

/-- Settles O38: the opcode 01 runs the WRITE command, which puts the start-bit value over the accumulator. -/
theorem writeCommandAwaitsTheData : Obligations.WriteCommandAwaitsTheData := by
  refine ⟨fun e di he hdone hop => ?_, fun e a he hacc ha => ?_⟩
  · rw [Eeprom.clockEdge_runs_opcode he hdone hop, Eeprom.runOpcode_write]
    rfl
  · obtain ⟨x, hwrite⟩ := Eeprom.clockBits_command he hacc (op := 1) (by decide) ha
    rw [show [false, true] = msbBits 2 1 from rfl, hwrite, Eeprom.runOpcode_write]
    rfl

end Sys2Proof.Machine
end

section
/-! PROOFS. The decoder and the encoder (30_encoding.md): the round trips in both directions, the one row that matches an
admitted word, and the reserved words, for which each row's mask is read as conditions on the fields of its format. -/

namespace Sys2Proof

/-! ### Decode of encode -/

theorem encodedRow_statement : ∀ i : Instr, Laws.EncodedRow.Statement i
  | .read b => Laws.EncodedRow.read b
  | .peek b => Laws.EncodedRow.peek b
  | .write b v => Laws.EncodedRow.write b v
  | .strobe l => Laws.EncodedRow.strobe l
  | .setBit l => Laws.EncodedRow.setBit l
  | .setIo dir dat => Laws.EncodedRow.setIo dir dat
  | .tickBusy => Laws.EncodedRow.tickBusy
  | .readOutput => Laws.EncodedRow.readOutput
  | .notifyCounter c => Laws.EncodedRow.notifyCounter c
  | .clearDirtyBank1 => Laws.EncodedRow.clearDirtyBank1
  | .clearDirtyEeprom => Laws.EncodedRow.clearDirtyEeprom
  | .queryDirtyBank1 => Laws.EncodedRow.queryDirtyBank1
  | .queryDirtyEeprom => Laws.EncodedRow.queryDirtyEeprom
  | .softReset => Laws.EncodedRow.softReset
  | .configureBank cb ps ram shadow we => Laws.EncodedRow.configureBank cb ps ram shadow we
  | .configureEeprom type e8 => Laws.EncodedRow.configureEeprom type e8
  | .saveState => Laws.EncodedRow.saveState
  | .loadState => Laws.EncodedRow.loadState
  | .saveEeprom => Laws.EncodedRow.saveEeprom
  | .loadEeprom => Laws.EncodedRow.loadEeprom

/-- Settles O1: the word of an operation matches the operation's row, and the decoder takes the one row that matches. -/
theorem decodeOfEncodeGivesTheOperation : Obligations.DecodeOfEncodeGivesTheOperation := by
  intro i hwf
  obtain ⟨r, hr, hmatch, hoperands⟩ := encodedRow_statement i hwf
  rw [decode_of_row hr hmatch, hoperands]

/-! ### Encode of decode -/

/-- A word that matches a row is the row's pattern with the word's own bits where the mask does not look. -/
theorem OpcodeRow.eq_bits_or_of_matchesWord {r : OpcodeRow} {w : Word} (h : r.matchesWord w = true) :
    w = r.bits ||| (w &&& ~~~r.mask) := by
  have hbits : w &&& r.mask = r.bits := by simpa [OpcodeRow.matchesWord] using h
  rw [← hbits]
  ext j hj
  simp only [BitVec.getElem_or, BitVec.getElem_and, BitVec.getElem_not]
  cases w[j] <;> cases r.mask[j] <;> rfl

/-- A field of a word, at its place in the word. -/
def fieldPart (w : Word) (lo len : Nat) : Word := (w.extractLsb' lo len).zeroExtend 32 <<< lo

theorem getLsbD_fieldPart (w : Word) (lo len : Nat) {j : Nat} (hj : j < 32) :
    (fieldPart w lo len).getLsbD j = (w.getLsbD j && decide (lo ≤ j ∧ j < lo + len)) := by
  unfold fieldPart
  by_cases hlo : lo ≤ j
  · by_cases hhi : j < lo + len
    · simp [hlo, hhi, hj, show ¬ j < lo by omega, show j - lo < len by omega, show lo + (j - lo) = j by omega]
    · simp [hhi, show ¬ (j - lo < len) by omega]
  · simp [hlo, show j < lo by omega]

/-- A flag of a word is its one-bit field. -/
theorem levelBit_getLsbD (w : Word) (k : Nat) : levelBit (w.getLsbD k) = (w.extractLsb' k 1).zeroExtend 32 := by
  unfold levelBit
  congr 1
  ext j hj
  obtain rfl : j = 0 := by omega
  simp

/-- Several fields of a word, each at its place. -/
def fieldParts (w : Word) : List (Nat × Nat) → Word
  | [] => 0#32
  | (lo, len) :: fs => fieldPart w lo len ||| fieldParts w fs

theorem getLsbD_fieldParts (w : Word) (fs : List (Nat × Nat)) {j : Nat} (hj : j < 32) :
    (fieldParts w fs).getLsbD j = (w.getLsbD j && fs.any fun f => decide (f.1 ≤ j ∧ j < f.1 + f.2)) := by
  induction fs with
  | nil => simp [fieldParts]
  | cons f fs ih =>
    rw [fieldParts, BitVec.getLsbD_or, getLsbD_fieldPart w f.1 f.2 hj, ih, List.any_cons, Bool.and_or_distrib_left]

/-- The row's operands encode to the word, and are well-formed. -/
def OpcodeRow.Encodes (r : OpcodeRow) : Prop :=
  ∀ w i, r.matchesWord w = true → r.operands w = some i → encode i = w ∧ i.wellFormed = true

/-- A row encodes when its operation's word is the pattern with the fields put back, and the fields are exactly the bits
at which the mask does not look (30_encoding.md R112). -/
theorem OpcodeRow.encodes_of_fields {r : OpcodeRow} (fs : List (Nat × Nat))
    (hmask : ∀ j < 32, (fs.any fun f => decide (f.1 ≤ j ∧ j < f.1 + f.2)) = !r.mask.getLsbD j)
    (hencode : ∀ w i, r.operands w = some i → encode i = r.bits ||| fieldParts w fs ∧ i.wellFormed = true) :
    r.Encodes := by
  intro w i hmatch hoperands
  obtain ⟨hword, hwf⟩ := hencode w i hoperands
  have hrest : fieldParts w fs = w &&& ~~~r.mask := by
    refine BitVec.eq_of_getLsbD_eq fun j hj => ?_
    rw [getLsbD_fieldParts w fs hj, hmask j hj, BitVec.getLsbD_and, BitVec.getLsbD_not, decide_eq_true hj, Bool.true_and]
  exact ⟨by rw [hword, hrest, ← r.eq_bits_or_of_matchesWord hmatch], hwf⟩

/-- The operations of the rows without fields are given by the pattern alone. -/
theorem plainRows_encode : ∀ r ∈ plainRows, r.Encodes := by
  intro r hr
  refine OpcodeRow.encodes_of_fields [] (by revert r; decide) fun w i hi => ?_
  simp only [plainRows, List.mem_cons, List.not_mem_nil, or_false] at hr
  rcases hr with rfl | rfl | rfl | rfl | rfl | rfl | rfl | rfl | rfl | rfl | rfl <;> cases hi <;>
    exact ⟨by simp [encode, fieldParts], rfl⟩

theorem deviceOfCode_some {t : BitVec 3} {d : Option Device} (h : deviceOfCode t = some d) : deviceCode d = t := by
  revert h
  have : ∀ t : BitVec 3, ∀ d ∈ deviceOfCode t, deviceCode d = t := by decide
  exact this t d

/-- What the CONFIGURE_EEPROM fields give is well-formed and has the fields' type code and flag. -/
theorem configureEepromOf_some {t : BitVec 3} {e8 : Bool} {i : Instr} (h : configureEepromOf t e8 = some i) :
    ∃ d, i = .configureEeprom d e8 ∧ deviceCode d = t ∧ i.wellFormed = true := by
  unfold configureEepromOf at h
  split at h
  · cases h
  · next d hd =>
    split at h
    · next hwf => cases h; exact ⟨d, rfl, deviceOfCode_some hd, hwf⟩
    · cases h

/-- The fields of each format in the order of 30_encoding.md R112 are those the encoder puts into the word. -/
theorem fieldRows_encode : ∀ r ∈ fieldRows, r.Encodes := by
  simp only [fieldRows, List.forall_mem_cons, List.not_mem_nil, false_implies, implies_true, and_true]
  refine ⟨?_, ?_, ?_, ?_, ?_, ?_, ?_, ?_, ?_⟩
  · refine OpcodeRow.encodes_of_fields [(8, 2)] (by decide) fun w i hi => ?_
    cases hi
    simp [encode, fieldParts, fieldPart, SlotId.selector_ofSelector, Instr.wellFormed]
  · refine OpcodeRow.encodes_of_fields [(8, 2)] (by decide) fun w i hi => ?_
    cases hi
    simp [encode, fieldParts, fieldPart, SlotId.selector_ofSelector, Instr.wellFormed]
  · refine OpcodeRow.encodes_of_fields [(8, 2), (0, 8)] (by decide) fun w i hi => ?_
    cases hi
    simp [encode, fieldParts, fieldPart, SlotId.selector_ofSelector, Instr.wellFormed, BitVec.or_assoc]
  · refine OpcodeRow.encodes_of_fields [(0, 1)] (by decide) fun w i hi => ?_
    cases hi
    simp [encode, fieldParts, fieldPart, levelBit_getLsbD w 0, Instr.wellFormed, -BitVec.getLsbD_eq_getElem]
  · refine OpcodeRow.encodes_of_fields [(0, 1)] (by decide) fun w i hi => ?_
    cases hi
    simp [encode, fieldParts, fieldPart, levelBit_getLsbD w 0, Instr.wellFormed, -BitVec.getLsbD_eq_getElem]
  · refine OpcodeRow.encodes_of_fields [(8, 8), (0, 8)] (by decide) fun w i hi => ?_
    cases hi
    simp [encode, fieldParts, fieldPart, Instr.wellFormed, BitVec.or_assoc]
  · refine OpcodeRow.encodes_of_fields [(0, 16)] (by decide) fun w i hi => ?_
    cases hi
    simp [encode, fieldParts, fieldPart, Instr.wellFormed]
  · refine OpcodeRow.encodes_of_fields [(20, 1), (19, 1), (18, 1), (16, 2), (0, 16)] (by decide) fun w i hi => ?_
    cases hi
    simp [encode, fieldParts, fieldPart, levelBit_getLsbD, SlotId.selector_ofSelector, Instr.wellFormed,
      BitVec.or_assoc, -BitVec.getLsbD_eq_getElem]
  · refine OpcodeRow.encodes_of_fields [(3, 1), (0, 3)] (by decide) fun w i hi => ?_
    obtain ⟨d, rfl, hcode, hwf⟩ := configureEepromOf_some hi
    refine ⟨?_, hwf⟩
    simp [encode, fieldParts, fieldPart, levelBit_getLsbD, hcode, BitVec.or_assoc, -BitVec.getLsbD_eq_getElem]

/-- Settles O2: the row that gave the operation encodes it to the word. -/
theorem encodeOfDecodeGivesTheWord : Obligations.EncodeOfDecodeGivesTheWord := by
  intro w i h
  obtain ⟨r, hr, hmatch, hoperands⟩ := row_of_decode h
  rcases List.mem_append.1 hr with hr | hr
  · exact fieldRows_encode r hr w i hmatch hoperands
  · exact plainRows_encode r hr w i hmatch hoperands

/-! ### Exactly one row -/

theorem filter_of_mem {l : List OpcodeRow} (hl : l.Pairwise fun r q => r.disjoint q = true) {r : OpcodeRow} {w : Word}
    (hr : r ∈ l) (hw : r.matchesWord w = true) : l.filter (·.matchesWord w) = [r] := by
  induction l with
  | nil => simp at hr
  | cons q l ih =>
    obtain ⟨hq, hl⟩ := List.pairwise_cons.1 hl
    rcases List.mem_cons.1 hr with rfl | hr
    · have hrest : l.filter (·.matchesWord w) = [] :=
        List.filter_eq_nil_iff.2 fun p hp => by simp [OpcodeRow.not_both_match (hq p hp) hw]
      rw [List.filter_cons_of_pos (p := fun x : OpcodeRow => x.matchesWord w) hw, hrest]
    · have hother : ¬ q.matchesWord w = true := fun hqw => by
        simp [OpcodeRow.not_both_match (hq r hr) hqw] at hw
      rw [List.filter_cons_of_neg (p := fun x : OpcodeRow => x.matchesWord w) hother, ih hl hr]

/-- Settles O3: the row that gave the operation matches, and the rows of the table are pairwise disjoint. -/
theorem exactlyOneOpcodeRowMatchesAnAdmittedWord : Obligations.ExactlyOneOpcodeRowMatchesAnAdmittedWord := by
  intro w i h
  obtain ⟨r, hr, hmatch, hoperands⟩ := row_of_decode h
  exact ⟨r, filter_of_mem opcodeRows_disjoint hr hmatch, hoperands⟩

/-! ### The reserved words -/

theorem decode_eq_none_iff (w : Word) :
    decode w = none ↔ ∀ r ∈ opcodeRows, r.matchesWord w = true → r.operands w = none := by
  constructor
  · intro h r hr hmatch
    rw [← decode_of_row hr hmatch, h]
  · intro h
    by_contra hsome
    obtain ⟨i, hi⟩ := Option.ne_none_iff_exists'.1 hsome
    obtain ⟨r, hr, hmatch, hoperands⟩ := row_of_decode hi
    rw [h r hr hmatch] at hoperands
    cases hoperands

theorem extractLsb'_eq_iff (w b : Word) (lo len : Nat) :
    w.extractLsb' lo len = b.extractLsb' lo len ↔ ∀ j, lo ≤ j ∧ j < lo + len → w.getLsbD j = b.getLsbD j := by
  constructor
  · intro h j hj
    have hbit := congrArg (·.getLsbD (j - lo)) h
    simpa [BitVec.getLsbD_extractLsb', show j - lo < len by omega, show lo + (j - lo) = j by omega] using hbit
  · intro h
    refine BitVec.eq_of_getLsbD_eq fun j hj => ?_
    rw [BitVec.getLsbD_extractLsb', BitVec.getLsbD_extractLsb', h (lo + j) (by omega)]

/-- A masked word is the pattern when each field at which the mask looks has the pattern's value. -/
theorem and_mask_eq_iff {m b : Word} (fs : List (Nat × Nat)) (hb : b &&& m = b)
    (hmask : ∀ j < 32, (fs.any fun f => decide (f.1 ≤ j ∧ j < f.1 + f.2)) = m.getLsbD j)
    (hlen : ∀ f ∈ fs, f.1 + f.2 ≤ 32) (w : Word) :
    w &&& m = b ↔ ∀ f ∈ fs, w.extractLsb' f.1 f.2 = b.extractLsb' f.1 f.2 := by
  simp only [extractLsb'_eq_iff]
  constructor
  · intro h f hf j hj
    have hj32 : j < 32 := by have := hlen f hf; omega
    refine bits_of_matches h ?_
    rw [← hmask j hj32]
    exact List.any_eq_true.2 ⟨f, hf, decide_eq_true hj⟩
  · intro h
    refine matches_of_bits (fun j hj32 hj => ?_) hb
    rw [← hmask j hj32] at hj
    obtain ⟨f, hf, hin⟩ := List.any_eq_true.1 hj
    exact h f hf j (of_decide_eq_true hin)

section formats

/-! The masks of the formats of 30_encoding.md R112. -/

variable {b : Word} (w : Word)

theorem and_maskBK (hb : b &&& 0xFFFFFCFF#32 = b) : w &&& 0xFFFFFCFF#32 = b ↔
    w.extractLsb' 28 4 = b.extractLsb' 28 4 ∧ w.extractLsb' 10 18 = b.extractLsb' 10 18
      ∧ w.extractLsb' 0 8 = b.extractLsb' 0 8 := by
  simpa using and_mask_eq_iff [(28, 4), (10, 18), (0, 8)] hb (by decide) (by decide) w

theorem and_maskBKv (hb : b &&& 0xFFFFFC00#32 = b) : w &&& 0xFFFFFC00#32 = b ↔
    w.extractLsb' 28 4 = b.extractLsb' 28 4 ∧ w.extractLsb' 10 18 = b.extractLsb' 10 18 := by
  simpa using and_mask_eq_iff [(28, 4), (10, 18)] hb (by decide) (by decide) w

theorem and_maskLV (hb : b &&& 0xFFFFFFFE#32 = b) : w &&& 0xFFFFFFFE#32 = b ↔
    w.extractLsb' 28 4 = b.extractLsb' 28 4 ∧ w.extractLsb' 1 27 = b.extractLsb' 1 27 := by
  simpa using and_mask_eq_iff [(28, 4), (1, 27)] hb (by decide) (by decide) w

theorem and_maskIO (hb : b &&& 0xFFFF0000#32 = b) : w &&& 0xFFFF0000#32 = b ↔
    w.extractLsb' 28 4 = b.extractLsb' 28 4 ∧ w.extractLsb' 16 12 = b.extractLsb' 16 12 := by
  simpa using and_mask_eq_iff [(28, 4), (16, 12)] hb (by decide) (by decide) w

theorem and_maskCB (hb : b &&& 0xFFE00000#32 = b) : w &&& 0xFFE00000#32 = b ↔
    w.extractLsb' 28 4 = b.extractLsb' 28 4 ∧ w.extractLsb' 21 7 = b.extractLsb' 21 7 := by
  simpa using and_mask_eq_iff [(28, 4), (21, 7)] hb (by decide) (by decide) w

theorem and_maskCE (hb : b &&& 0xFFFFFFF0#32 = b) : w &&& 0xFFFFFFF0#32 = b ↔
    w.extractLsb' 28 4 = b.extractLsb' 28 4 ∧ w.extractLsb' 4 24 = b.extractLsb' 4 24 := by
  simpa using and_mask_eq_iff [(28, 4), (4, 24)] hb (by decide) (by decide) w

/-- The sub-code of format SB is bits 1 and 0; in format N these bits are 0 as well. -/
theorem and_maskSB (hb : b &&& 0xFFFFFFFF#32 = b) : w &&& 0xFFFFFFFF#32 = b ↔
    w.extractLsb' 28 4 = b.extractLsb' 28 4 ∧ w.extractLsb' 2 26 = b.extractLsb' 2 26
      ∧ w.extractLsb' 0 2 = b.extractLsb' 0 2 := by
  simpa using and_mask_eq_iff [(28, 4), (2, 26), (0, 2)] hb (by decide) (by decide) w

theorem extract28_eq_zero : w.extractLsb' 0 28 = 0#28 ↔ w.extractLsb' 2 26 = 0#26 ∧ w.extractLsb' 0 2 = 0#2 := by
  have h := fun lo len => extractLsb'_eq_iff w 0#32 lo len
  simp only [BitVec.extractLsb'_zero] at h
  simp only [h, ← forall_and]
  refine forall_congr' fun j => ⟨fun h => ⟨fun hj => h (by omega), fun hj => h (by omega)⟩, fun ⟨h1, h2⟩ hj => ?_⟩
  rcases Nat.lt_or_ge j 2 with h | h
  · exact h2 (by omega)
  · exact h1 (by omega)

end formats

theorem configureEepromOf_eq_none_iff (t : BitVec 3) (e8 : Bool) :
    configureEepromOf t e8 = none ↔ t = 6#3 ∨ t = 7#3 ∨ (t = 0#3 ∧ e8 = true) := by
  revert t e8; decide

/-- Every value of a sub-code is that of a row of format SB. -/
theorem subCode_none_iff {p : Prop} (x : BitVec 2) :
    ((p → ¬ x = 0#2) ∧ (p → ¬ x = 1#2) ∧ (p → ¬ x = 2#2) ∧ (p → ¬ x = 3#2)) ↔ ¬ p := by
  have hx : x = 0#2 ∨ x = 1#2 ∨ x = 2#2 ∨ x = 3#2 := by revert x; decide
  tauto

theorem bitVec4_cases (m : BitVec 4) : m = 0#4 ∨ m = 1#4 ∨ m = 2#4 ∨ m = 3#4 ∨ m = 4#4 ∨ m = 5#4 ∨ m = 6#4 ∨ m = 7#4
    ∨ m = 8#4 ∨ m = 9#4 ∨ m = 10#4 ∨ m = 11#4 ∨ m = 12#4 ∨ m = 13#4 ∨ m = 14#4 ∨ m = 15#4 := by
  revert m; decide

/-- Settles O4: no row admits the word; with each row's match read as conditions on the fields, this is R118's list, one
major opcode at a time. -/
theorem decoderRejectsExactlyTheReservedWords : Obligations.DecoderRejectsExactlyTheReservedWords := by
  intro w
  rw [decode_eq_none_iff]
  simp (disch := decide) only [opcodeRows, fieldRows, plainRows, List.cons_append, List.nil_append,
    List.forall_mem_cons, List.not_mem_nil, false_implies, implies_true, and_true, reduceCtorEq, imp_false,
    OpcodeRow.matchesWord, beq_iff_eq, and_maskBK, and_maskBKv, and_maskLV, and_maskIO, and_maskCB, and_maskCE,
    and_maskSB, BitVec.reduceExtractLsb', configureEepromOf_eq_none_iff, Machine.reservedWord, ne_eq, extract28_eq_zero]
  rcases bitVec4_cases (w.extractLsb' 28 4) with h | h | h | h | h | h | h | h | h | h | h | h | h | h | h | h <;>
    simp [h, ← imp_iff_not_or, subCode_none_iff]

/-! ### Fixed words -/

/-- Settles O5: each word is decoded by evaluation. -/
theorem specWordsDecode : Obligations.SpecWordsDecode := by
  unfold Obligations.SpecWordsDecode
  decide

end Sys2Proof
end

section
/-! PROOFS. What one operation does to each part of the block, said once for all operations: the registers, the banks and
the EEPROM after it as functions of the operation and the state, and the outcomes that are not a next state. -/

namespace Sys2Proof.Machine

/-! ### The parts of the next state -/

/-- The address registers after an operation (40_bank_engine.md, 42_persistence_and_control.md R252, R270). -/
def regsAfter (s : State) : Instr → AddressRegs
  | .read _ | .write _ _ => s.advance.regs
  | .strobe l => { (s.strobeReset l).regs.strobeShift l with strobeLevel := l }
  | .setBit l => { s.regs with bitLevel := l }
  | .softReset => { shiftValue := 0#8, pageOffset := 0#11, strobeLevel := false, bitLevel := false }
  | .loadState => regsOfRecord s.operand
  | _ => s.regs

/-- The banks after an operation (40_bank_engine.md R141, R152, 42_persistence_and_control.md R260). -/
def banksAfter (s : State) : Instr → Banks
  | .write b v => (s.offer b v).banks
  | .configureBank cb ps ram shadow we =>
    match requestedGeometry cb ps shadow with
    | none => s.banks
    | some g => s.banks.configure cb g ram shadow we s.operand
  | .clearDirtyBank1 => { s.banks with dirty := false }
  | _ => s.banks

/-- What an operation other than CONFIGURE_EEPROM does to a fitted EEPROM. -/
def eepromMove (s : State) : Instr → Eeprom → Eeprom
  | .read _, e | .write _ _, e =>
    if s.regs.strobeLevel then e else e.notify ((s.regs.pageOffset + 1#11).zeroExtend 16)
  | .strobe l, e => if l then e.notify 0#16 else e
  | .setIo dir dat, e => { e with iodir := dir, iodat := dat }
  | .tickBusy, e => e.tick
  | .notifyCounter c, e => e.notify c
  | .clearDirtyEeprom, e => { e with isDirty := false }
  | .loadState, e => e.load (s.operand.drop 5)
  | .loadEeprom, e => e.load s.operand
  | _, e => e

/-- The EEPROM after an operation. -/
def eepromAfter (s : State) : Instr → Option Eeprom
  | .configureEeprom type e8 => type.map (Eeprom.fresh · e8)
  | i => s.eeprom.map (eepromMove s i)

theorem eepromAfter_eq {i : Instr} (h : ∀ d e8, i ≠ .configureEeprom d e8) (s : State) :
    eepromAfter s i = s.eeprom.map (eepromMove s i) := by
  cases i with
  | configureEeprom d e8 => exact absurd rfl (h d e8)
  | _ => rfl

theorem map_id_eq (o : Option Eeprom) : o = o.map fun e => e := by simp

/-- `t` has the parts that the operation gives, and the sequence of `s`. -/
structure IsAfter (i : Instr) (s t : State) : Prop where
  regs : t.regs = regsAfter s i
  banks : t.banks = banksAfter s i
  eeprom : t.eeprom = eepromAfter s i
  pending : t.pending = s.pending
  position : t.position = s.position

theorem State.advance_eeprom_eq_map (s : State) :
    s.advance.eeprom = s.eeprom.map fun e =>
      if s.regs.strobeLevel then e else e.notify ((s.regs.pageOffset + 1#11).zeroExtend 16) := by
  rw [s.advance_eeprom]
  cases s.regs.strobeLevel <;> simp

theorem State.offer_regs (s : State) (b : SlotId) (v : Byte) : (s.offer b v).regs = s.regs := by rw [State.offer_eq]

theorem read_isAfter (b : SlotId) (s : State) (r : Result) : IsAfter (.read b) s (s.advance.returning r) where
  regs := rfl
  banks := s.advance_banks
  eeprom := s.advance_eeprom_eq_map
  pending := s.advance_pending
  position := s.advance_position

theorem write_isAfter (b : SlotId) (v : Byte) (s : State) (r : Result) :
    IsAfter (.write b v) s ((s.offer b v).advance.returning r) where
  regs := by
    rw [State.returning_regs, State.advance_regs, State.offer_regs]
    exact s.advance_regs.symm
  banks := (s.offer b v).advance_banks
  eeprom := by
    rw [State.returning_eeprom, State.advance_eeprom_eq_map, State.offer_regs, State.offer_eeprom]
    rfl
  pending := by rw [State.returning_pending, State.advance_pending, State.offer_eq]
  position := by rw [State.returning_position, State.advance_position, State.offer_eq]

theorem strobe_isAfter (l : Bool) (s : State) (r : Result) :
    IsAfter (.strobe l) s (State.returning { s.strobeReset l with
      regs := { (s.strobeReset l).regs.strobeShift l with strobeLevel := l } } r) where
  regs := rfl
  banks := s.strobeReset_banks l
  eeprom := by
    cases l
    · exact map_id_eq _
    · rfl
  pending := by cases l <;> rfl
  position := by cases l <;> rfl

/-- Everything an operation that completes did. -/
theorem exec_next {i : Instr} {s t : State} (h : exec i s = .next t) : IsAfter i s t := by
  cases i with
  | read b => cases h; exact read_isAfter b s _
  | write b v => cases h; exact write_isAfter b v s _
  | strobe l => cases h; exact strobe_isAfter l s _
  | configureBank cb ps ram shadow we =>
    obtain ⟨g, hg, rfl⟩ := configureBank_next h
    have hbanks : banksAfter s (.configureBank cb ps ram shadow we)
        = s.banks.configure cb g ram shadow we s.operand := by
      simp only [banksAfter, (admissible_some hg).1]
    exact ⟨rfl, hbanks.symm, map_id_eq _, rfl, rfl⟩
  | loadState => obtain ⟨-, rfl⟩ := loadState_next h; exact ⟨rfl, rfl, rfl, rfl, rfl⟩
  | loadEeprom => obtain ⟨-, rfl⟩ := loadEeprom_next h; exact ⟨rfl, rfl, rfl, rfl, rfl⟩
  | configureEeprom | setIo | tickBusy | notifyCounter | clearDirtyEeprom => cases h; exact ⟨rfl, rfl, rfl, rfl, rfl⟩
  | peek | setBit | readOutput | clearDirtyBank1 | queryDirtyBank1 | queryDirtyEeprom | softReset | saveState
  | saveEeprom => cases h; exact ⟨rfl, rfl, map_id_eq _, rfl, rfl⟩

/-- READ and WRITE with strobe low notify with the new counter, and with strobe high keep the EEPROM. -/
theorem eepromMove_access {s : State} {i : Instr} (hi : (∃ b, i = .read b) ∨ ∃ b v, i = .write b v) (e : Eeprom) :
    eepromMove s i e = if s.regs.strobeLevel then e else e.notify ((s.regs.pageOffset + 1#11).zeroExtend 16) := by
  rcases hi with ⟨b, rfl⟩ | ⟨b, v, rfl⟩ <;> rfl

/-- Everything an operation other than CONFIGURE_EEPROM can do to a fitted EEPROM. -/
theorem eepromMove_cases {P : Eeprom → Prop} {s : State} {i : Instr} {e : Eeprom} (hkeep : P e)
    (hnotify : ∀ c, P (e.notify c)) (hio : ∀ dir dat, P { e with iodir := dir, iodat := dat }) (htick : P e.tick)
    (hclear : P { e with isDirty := false }) (hstate : i = .loadState → P (e.load (s.operand.drop 5)))
    (hload : i = .loadEeprom → P (e.load s.operand)) : P (eepromMove s i e) := by
  have haccess : P (if s.regs.strobeLevel then e else e.notify ((s.regs.pageOffset + 1#11).zeroExtend 16)) := by
    split
    · exact hkeep
    · exact hnotify _
  cases i with
  | read | write => exact haccess
  | strobe l =>
    cases l with
    | false => exact hkeep
    | true => exact hnotify 0#16
  | notifyCounter c => exact hnotify c
  | setIo dir dat => exact hio dir dat
  | tickBusy => exact htick
  | clearDirtyEeprom => exact hclear
  | loadState => exact hstate rfl
  | loadEeprom => exact hload rfl
  | _ => exact hkeep

/-! ### The outcomes -/

/-- Settles O9: the meanings with a check of their operands answer with their own refusal, and no operation touches the
sequence. -/
theorem operationsCompleteOrRefuseTheirOwnOperands : Obligations.OperationsCompleteOrRefuseTheirOwnOperands := by
  intro i s
  have hcompletes : ∀ {t}, exec i s = .next t →
      ∃ t, exec i s = .next t ∧ t.pending = s.pending ∧ t.position = s.position :=
    fun h => ⟨_, h, (exec_next h).pending, (exec_next h).position⟩
  cases i with
  | configureBank cb ps ram shadow we =>
    cases hg : admissible cb ps ram shadow we s.operand.length with
    | none =>
      refine .inr (.inl ⟨?_, cb, ps, ram, shadow, we, rfl⟩)
      show execConfigureBank cb ps ram shadow we s = _
      rw [execConfigureBank, hg]
    | some g => exact .inl (hcompletes (execConfigureBank_of_admissible hg))
  | loadState =>
    cases hv : s.validRecord s.operand with
    | false => exact .inr (.inr ⟨by simp [exec, execLoadState, hv], .inl rfl⟩)
    | true => exact .inl (hcompletes (if_pos hv))
  | loadEeprom =>
    cases hv : s.validImage s.operand with
    | false => exact .inr (.inr ⟨by simp [exec, execLoadEeprom, hv], .inr rfl⟩)
    | true => exact .inl (hcompletes (if_pos hv))
  | _ => exact .inl (hcompletes rfl)

/-! ### The checks of a record, against R247's conditions -/

theorem validBankRecord_iff (bs : List Byte) : validBankRecord bs = true ↔ bankRecordOk bs := by
  simp only [validBankRecord, Bool.and_eq_true, decide_eq_true_eq, isFlagByte_iff, u16At_toNat, bankRecordOk]
  exact ⟨fun ⟨⟨h1, h3⟩, h4⟩ => ⟨h3, h4, h1⟩, fun ⟨h3, h4, h1⟩ => ⟨⟨h1, h3⟩, h4⟩⟩

theorem validEepromRecord_iff (d : Device) (bs : List Byte) : validEepromRecord d bs = true ↔ eepromRecordOk d bs := by
  simp only [validEepromRecord, Bool.and_eq_true, decide_eq_true_eq, isFlagByte_iff, eepromRecordOk,
    List.forall_mem_cons, List.not_mem_nil, false_implies, implies_true, and_true]
  constructor
  · rintro ⟨⟨⟨⟨⟨⟨⟨⟨hlen, h0⟩, h9⟩, h10⟩, h11⟩, h12⟩, h13⟩, h14⟩, h15⟩
    exact ⟨hlen, ⟨h9, h10, h11, h12, h14, h15⟩, h0, h13⟩
  · rintro ⟨hlen, ⟨h9, h10, h11, h12, h14, h15⟩, h0, h13⟩
    exact ⟨⟨⟨⟨⟨⟨⟨⟨hlen, h0⟩, h9⟩, h10⟩, h11⟩, h12⟩, h13⟩, h14⟩, h15⟩

theorem State.validImage_of_some {s : State} {e : Eeprom} (h : s.eeprom = some e) (bs : List Byte) :
    s.validImage bs = validEepromRecord e.device bs := by
  rw [State.validImage, h]

theorem State.validRecord_iff {s : State} {bs : List Byte} :
    s.validRecord bs = true ↔ 5 ≤ bs.length ∧ validBankRecord bs = true ∧ s.validImage (bs.drop 5) = true := by
  simp [State.validRecord, and_assoc]

end Sys2Proof.Machine
end

section
/-! PROOFS. The boundary before an operation (60_exceptions.md R285, R290): what the step does with the next command, and
which agent may issue which operation; and the state at power-on. -/

namespace Sys2Proof.Machine

/-! ### The step on the next command -/

theorem step_of_nil {s : State} (h : s.pending = []) : step s = .fault .endOfProgram := by
  unfold step issueNext
  rw [h]

theorem step_of_cons {s : State} {c : Command} {rest : List Command} (h : s.pending = c :: rest) :
    step s = issue c s := by
  unfold step issueNext
  rw [h]

theorem issue_of_reserved {c : Command} (h : decode c.word = none) (s : State) :
    issue c s = .refused .reservedEncoding := by
  unfold issue
  rw [h]

theorem issue_of_refusal {c : Command} {i : Instr} {r : Refusal} (h : decode c.word = some i)
    (hr : boundaryRefusal c.agent i = some r) (s : State) : issue c s = .refused r := by
  unfold issue
  simp only [h, hr]

theorem issue_of_mayIssue {c : Command} {i : Instr} (h : decode c.word = some i) (hi : c.agent.mayIssue i = true)
    (s : State) : issue c s = completed (exec i s) := by
  unfold issue
  simp only [h, boundaryRefusal_eq_none.2 hi]

/-- Settles O6: the boundary lets the operation through, and completing it moves the sequence on. -/
theorem stepRunsTheIssuedOperation : Obligations.StepRunsTheIssuedOperation := by
  intro s c rest i hpending hdecode hissue
  have hstep : step s = completed (exec i s) := by
    rw [step_of_cons hpending, issue_of_mayIssue hdecode hissue]
  refine ⟨fun t ht => ?_, fun r hr => by rw [hstep, hr]; rfl⟩
  obtain ⟨hp, hq⟩ : t.pending = s.pending ∧ t.position = s.position := ⟨(exec_next ht).pending, (exec_next ht).position⟩
  rw [hstep, ht, completed, State.advancePosition, hp, hq, hpending, List.tail_cons]

theorem isInternal_eq_false {i : Instr} (h : ∀ x, i ≠ .notifyCounter x) : isInternal i = false := by
  cases i with
  | notifyCounter x => exact absurd rfl (h x)
  | _ => rfl

/-- The boundary refuses the notification to every agent of a block-level program. -/
theorem boundaryRefusal_notifyCounter {a : Agent} (h : a ≠ .harness) (x : BitVec 16) :
    boundaryRefusal a (.notifyCounter x) = some .internalOperation := by
  cases a with
  | harness => exact absurd rfl h
  | mutator | observer | host => rfl

theorem boundaryRefusal_of_not_mayIssue {a : Agent} {i : Instr} (hi : ∀ x, i ≠ .notifyCounter x)
    (h : a.mayIssue i = false) :
    boundaryRefusal a i = some (if a = .observer then .observerEffect else .agentRestricted) := by
  unfold boundaryRefusal
  rw [h, isInternal_eq_false hi, if_neg Bool.false_ne_true, if_neg Bool.false_ne_true]
  exact (apply_ite some _ _ _).symm

/-- Settles O7: case by case of the boundary's checks. -/
theorem stepRefusesAtTheBoundary : Obligations.StepRefusesAtTheBoundary := by
  refine ⟨fun s hs => step_of_nil hs, fun s c rest hpending => ?_⟩
  rw [step_of_cons hpending]
  exact ⟨fun hd => issue_of_reserved hd s,
    fun x hd ha => issue_of_refusal hd (boundaryRefusal_notifyCounter ha x) s,
    fun i hd hi ha => issue_of_refusal hd (boundaryRefusal_of_not_mayIssue hi ha) s⟩

/-! ### The agents -/

/-- Settles O8: the issuers of each operation, constructor by constructor. -/
theorem agentsMayIssueTheirOwnOperations : Obligations.AgentsMayIssueTheirOwnOperations := by
  refine ⟨fun i => ?_, fun i => ?_, fun i => ?_, fun i => ?_⟩ <;> cases i <;> simp [Agent.mayIssue, issuersOf]

/-! ### Power-on -/

/-- Settles O57: every field of the state after reset, and the invariants on it, by evaluation. -/
theorem powerOnState : Obligations.PowerOnState :=
  ⟨rfl, fun k => by cases k <;> exact ⟨rfl, rfl⟩, rfl, rfl, rfl, rfl, rfl, rfl, rfl, rfl, rfl, rfl, rfl⟩

end Sys2Proof.Machine
end

section
/-! PROOFS. The geometry of a slot and its configuration (10_state.md R41, R48, 40_bank_engine.md R142, R146): which page
sizes have a geometry and which one, the offset as page and low bits, and what an admitted CONFIGURE_BANK sets. -/

namespace Sys2Proof.Machine

/-! ### Page sizes -/

theorem log2_lt_sixteen {ps : BitVec 16} (h : ps ≠ 0#16) : Nat.log2 ps.toNat < 16 :=
  (Nat.log2_lt (by simpa [BitVec.toNat_eq] using h)).2 ps.isLt

/-- A page size that is a power of two has the geometry of its exponent. -/
theorem Geometry.ofPageSize_of_pow {ps : BitVec 16} {j : Fin 16} (h : ps.toNat = 2 ^ j.val) :
    Geometry.ofPageSize ps = some (.pages j) := by
  have hne : ps ≠ 0#16 := by
    rintro rfl
    exact absurd h (Nat.two_pow_pos j.val).ne
  have hj : Fin.ofNat 16 j.val = j := Fin.ext (Nat.mod_eq_of_lt j.isLt)
  unfold Geometry.ofPageSize
  rw [if_neg hne, h, Nat.log2_two_pow, if_pos rfl, hj]

/-- Everything a page size with a geometry can be. -/
theorem Geometry.ofPageSize_some {ps : BitVec 16} {g : Geometry} (h : Geometry.ofPageSize ps = some g) :
    (ps = 0#16 ∧ g = .empty) ∨ ∃ j : Fin 16, ps.toNat = 2 ^ j.val ∧ g = .pages j := by
  unfold Geometry.ofPageSize at h
  split at h
  · next h0 => cases h; exact .inl ⟨h0, rfl⟩
  · next h0 =>
    split at h
    · next hpow =>
      cases h
      refine .inr ⟨_, ?_, rfl⟩
      rw [Fin.val_ofNat, Nat.mod_eq_of_lt (log2_lt_sixteen h0), hpow]
    · cases h

theorem Geometry.ofPageSize_eq_none_iff (ps : BitVec 16) :
    Geometry.ofPageSize ps = none ↔ ps ≠ 0#16 ∧ ¬ ∃ j < 16, ps.toNat = 2 ^ j := by
  constructor
  · refine fun h => ⟨?_, ?_⟩
    · rintro rfl
      cases h
    · rintro ⟨j, hj, hpow⟩
      rw [Geometry.ofPageSize_of_pow (j := ⟨j, hj⟩) hpow] at h
      cases h
  · rintro ⟨hne, hpow⟩
    by_contra hsome
    obtain ⟨g, hg⟩ := Option.ne_none_iff_exists'.1 hsome
    rcases Geometry.ofPageSize_some hg with ⟨h0, -⟩ | ⟨j, hj, -⟩
    · exact hne h0
    · exact hpow ⟨j, j.isLt, hj⟩

theorem Geometry.pageSize_pages_toNat (j : Fin 16) : (Geometry.pages j).pageSize.toNat = 2 ^ j.val := by
  have hlt : 2 ^ j.val < 2 ^ 16 := Nat.pow_lt_pow_right (by decide) j.isLt
  show (1#16 <<< j.val).toNat = _
  rw [BitVec.toNat_shiftLeft, Nat.shiftLeft_eq]
  exact (congrArg (· % 2 ^ 16) (Nat.one_mul _)).trans (Nat.mod_eq_of_lt hlt)

/-- A slot's page size and size are those of the operand its geometry comes from. -/
theorem Geometry.sizes_of_ofPageSize {ps : BitVec 16} {g : Geometry} (h : Geometry.ofPageSize ps = some g) :
    g.pageSize = ps ∧ g.size = ps.toNat * 256 := by
  rcases Geometry.ofPageSize_some h with ⟨rfl, rfl⟩ | ⟨j, hj, rfl⟩
  · exact ⟨rfl, rfl⟩
  · exact ⟨BitVec.eq_of_toNat_eq (by rw [Geometry.pageSize_pages_toNat, hj]), by rw [hj]; rfl⟩

/-- Settles O22: an operand with a geometry is 0 or a power of two, and the derived quantities are those of its
exponent. -/
theorem pageSizeFixesTheGeometry : Obligations.PageSizeFixesTheGeometry := by
  refine ⟨fun ps g h => ?_, Geometry.ofPageSize_eq_none_iff⟩
  obtain ⟨hps, hsize⟩ := Geometry.sizes_of_ofPageSize h
  refine ⟨hps, hsize, ?_⟩
  rcases Geometry.ofPageSize_some h with ⟨rfl, rfl⟩ | ⟨j, hj, rfl⟩
  · exact ⟨fun _ => ⟨rfl, rfl, rfl⟩, fun h0 => absurd rfl h0⟩
  · have hpos : 0 < 2 ^ j.val := Nat.two_pow_pos _
    refine ⟨fun h0 => ?_, fun _ => ⟨hj, ?_, ?_⟩⟩
    · rw [h0] at hj
      exact absurd hj hpos.ne
    · rw [hj, Geometry.offsetMask, Nat.one_shiftLeft]
      omega
    · show 2 ^ j.val * 256 - 1 + 1 = 2 ^ j.val * 256
      omega

/-! ### The offset -/

/-- The offset of a non-empty slot: the page above the counter's low bits (40_bank_engine.md R146). -/
theorem addressIn_pages (j : Fin 16) (r : AddressRegs) :
    addressIn (.pages j) r = r.shiftValue.toNat * 2 ^ j.val + r.pageOffset.toNat % 2 ^ j.val
      ∧ addressIn (.pages j) r < (Geometry.pages j).size := by
  have hlow : r.pageOffset.toNat % 2 ^ j.val < 2 ^ j.val := Nat.mod_lt _ (Nat.two_pow_pos _)
  have hpage : r.shiftValue.toNat * 2 ^ j.val ≤ 255 * 2 ^ j.val :=
    Nat.mul_le_mul_right _ (Nat.le_of_lt_succ r.shiftValue.isLt)
  have hbelow : r.shiftValue.toNat * 2 ^ j.val + r.pageOffset.toNat % 2 ^ j.val < 2 ^ j.val * 256 := by omega
  have hpow : 2 ^ j.val * 256 = 2 ^ (j.val + 8) := (Nat.pow_add 2 j.val 8).symm
  have haddr : addressIn (.pages j) r = r.shiftValue.toNat * 2 ^ j.val + r.pageOffset.toNat % 2 ^ j.val :=
    calc addressIn (.pages j) r
        = ((r.shiftValue.toNat <<< j.val) ||| (r.pageOffset.toNat &&& ((1 <<< j.val) - 1)))
            &&& (2 ^ j.val * 256 - 1) := rfl
      _ = ((r.shiftValue.toNat <<< j.val) ||| (r.pageOffset.toNat % 2 ^ j.val)) % 2 ^ (j.val + 8) := by
        rw [Nat.one_shiftLeft, Nat.and_two_pow_sub_one_eq_mod, hpow, Nat.and_two_pow_sub_one_eq_mod]
      _ = (r.shiftValue.toNat * 2 ^ j.val + r.pageOffset.toNat % 2 ^ j.val) % 2 ^ (j.val + 8) := by
        rw [← Nat.shiftLeft_add_eq_or_of_lt hlow, Nat.shiftLeft_eq]
      _ = _ := Nat.mod_eq_of_lt (hpow ▸ hbelow)
  exact ⟨haddr, haddr ▸ hbelow⟩

theorem State.addressFor_lt {s : State} {k : SlotId} (h : 0 < (s.banks.slot k).geometry.size) :
    s.addressFor k < (s.banks.slot k).geometry.size := by
  unfold State.addressFor
  cases hg : (s.banks.slot k).geometry with
  | empty => rw [hg] at h; exact absurd h (lt_irrefl 0)
  | pages j => exact (addressIn_pages j s.regs).2

/-- Settles O10: the offset of the slot's geometry. -/
theorem addressIsPageAndOffsetBelowSize : Obligations.AddressIsPageAndOffsetBelowSize := by
  intro s k j hj
  unfold State.addressFor
  rw [hj]
  exact addressIn_pages j s.regs

/-! ### Admissible configurations -/

theorem isShadowCase_iff {k : SlotId} {ps : BitVec 16} {shadow : Bool} :
    isShadowCase k ps shadow = true ↔ k = .b1 ∧ ps = 0#16 ∧ shadow = true := by
  simp [isShadowCase, and_assoc]

theorem requestedGeometry_of_shadowCase {k : SlotId} {ps : BitVec 16} {shadow : Bool}
    (h : k = .b1 ∧ ps = 0#16 ∧ shadow = true) : requestedGeometry k ps shadow = some (.pages Config.shadowShift) :=
  if_pos (isShadowCase_iff.2 h)

theorem requestedGeometry_of_not_shadowCase {k : SlotId} {ps : BitVec 16} {shadow : Bool}
    (h : ¬(k = .b1 ∧ ps = 0#16 ∧ shadow = true)) : requestedGeometry k ps shadow = Geometry.ofPageSize ps :=
  if_neg (mt isShadowCase_iff.1 h)

/-- A value behind four guards is missing exactly when one of them holds. -/
theorem four_guards_eq_none_iff {p q r t : Prop} [Decidable p] [Decidable q] [Decidable r] [Decidable t]
    (g : Geometry) :
    (if p then none else if q then none else if r then none else if t then none else some g) = none
      ↔ p ∨ q ∨ r ∨ t := by
  split_ifs <;> simp [*]

/-- The model's check of a configuration against R142's five conditions. -/
theorem admissible_eq_none_iff (k : SlotId) (ps : BitVec 16) (ram shadow we : Bool) (n : Nat) :
    admissible k ps ram shadow we n = none ↔ configInadmissible k ps ram shadow we n := by
  unfold admissible configInadmissible
  by_cases hs : k = .b1 ∧ ps = 0#16 ∧ shadow = true
  · rw [requestedGeometry_of_shadowCase hs]
    obtain ⟨rfl, rfl, rfl⟩ := hs
    have : (Geometry.pages Config.shadowShift).size = 65536 := rfl
    cases ram <;> simp [this]
  · rw [requestedGeometry_of_not_shadowCase hs]
    cases hg : Geometry.ofPageSize ps with
    | none => simp [(Geometry.ofPageSize_eq_none_iff ps).1 hg]
    | some g =>
      have hpow : ¬(ps ≠ 0#16 ∧ ¬ ∃ j < 16, ps.toNat = 2 ^ j) := by
        rw [← Geometry.ofPageSize_eq_none_iff, hg]
        exact Option.some_ne_none g
      have hshort : ps ≠ 0#16 ∧ n < ps.toNat * 256 ↔ n < g.size := by
        rw [(Geometry.sizes_of_ofPageSize hg).2]
        refine ⟨And.right, fun h => ⟨?_, h⟩⟩
        rintro rfl
        exact absurd h (Nat.not_lt_zero n)
      have hshadow : ¬(k = .b1 ∧ ps = 0#16 ∧ shadow = true ∧ n < 65536) := fun ⟨hk, hps, hsh, _⟩ => hs ⟨hk, hps, hsh⟩
      have hflags : (ram || shadow || we) = true ↔ ram = true ∨ shadow = true ∨ we = true := by
        simp [or_assoc]
      simp only [hpow, hshort, hshadow, hflags, false_or, or_false]
      exact four_guards_eq_none_iff g

theorem exec_configureBank_eq_refused_iff (s : State) (cb : SlotId) (ps : BitVec 16) (ram shadow we : Bool) :
    exec (.configureBank cb ps ram shadow we) s = .refused .configInvalid
      ↔ admissible cb ps ram shadow we s.operand.length = none := by
  show execConfigureBank cb ps ram shadow we s = _ ↔ _
  unfold execConfigureBank
  cases admissible cb ps ram shadow we s.operand.length <;> simp

theorem exec_configureBank_eq_next_iff (s : State) (cb : SlotId) (ps : BitVec 16) (ram shadow we : Bool) :
    (∃ t, exec (.configureBank cb ps ram shadow we) s = .next t)
      ↔ ¬ admissible cb ps ram shadow we s.operand.length = none := by
  show (∃ t, execConfigureBank cb ps ram shadow we s = .next t) ↔ _
  unfold execConfigureBank
  cases admissible cb ps ram shadow we s.operand.length <;> simp

/-- Settles O23: the operation's outcome is that of the model's check, which is R142's list. -/
theorem configureBankRefusesExactlyTheInadmissible : Obligations.ConfigureBankRefusesExactlyTheInadmissible := by
  intro s cb ps ram shadow we
  rw [exec_configureBank_eq_refused_iff, exec_configureBank_eq_next_iff, admissible_eq_none_iff]
  exact ⟨Iff.rfl, Iff.rfl⟩

/-! ### What an admitted configuration sets -/

/-- The flags a configuration is admitted with: those of a slot other than B1 are 0, and a shadow configuration is the
shadow case, with 256-byte pages. -/
theorem admissible_shadow {k : SlotId} {ps : BitVec 16} {ram shadow we : Bool} {n : Nat} {g : Geometry}
    (h : admissible k ps ram shadow we n = some g) (hs : shadow = true) :
    k = .b1 ∧ ps = 0#16 ∧ g = .pages Config.shadowShift := by
  obtain ⟨hg, hflags, hps, -, -⟩ := admissible_some h
  have hk : k = .b1 := by
    by_contra hk
    rw [(hflags hk).2.1] at hs
    cases hs
  rw [requestedGeometry_of_shadowCase ⟨hk, hps hs, hs⟩] at hg
  exact ⟨hk, hps hs, (Option.some.inj hg).symm⟩

theorem admissible_not_shadow {k : SlotId} {ps : BitVec 16} {ram shadow we : Bool} {n : Nat} {g : Geometry}
    (h : admissible k ps ram shadow we n = some g) (hs : shadow = false) : Geometry.ofPageSize ps = some g := by
  obtain ⟨hg, -⟩ := admissible_some h
  rwa [requestedGeometry_of_not_shadowCase fun h => by rw [hs] at h; cases h.2.2] at hg

/-- The geometry of an admitted configuration (10_state.md R41, R48). -/
theorem admissible_sizes {k : SlotId} {ps : BitVec 16} {ram shadow we : Bool} {n : Nat} {g : Geometry}
    (h : admissible k ps ram shadow we n = some g) :
    g.pageSize = (if shadow then 256#16 else ps) ∧ g.size = (if shadow then 65536 else ps.toNat * 256) := by
  cases hs : shadow with
  | true =>
    obtain ⟨-, -, rfl⟩ := admissible_shadow h hs
    exact ⟨rfl, rfl⟩
  | false => exact Geometry.sizes_of_ofPageSize (admissible_not_shadow h hs)

theorem getD_eq_of_lt {α : Type} {l : List α} {i : Nat} (h : i < l.length) (x y : α) : l.getD i x = l.getD i y := by
  rw [List.getD_eq_getElem l x h, List.getD_eq_getElem l y h]

/-- Settles O24: the banks after an admitted configuration, slot by slot and flag by flag. -/
theorem configureBankSetsOneSlot : Obligations.ConfigureBankSetsOneSlot := by
  intro s cb ps ram shadow we hadm
  rw [← admissible_eq_none_iff] at hadm
  obtain ⟨g, hg⟩ := Option.ne_none_iff_exists'.1 hadm
  obtain ⟨hpage, hsize⟩ := admissible_sizes hg
  obtain ⟨-, -, -, -, hdata⟩ := admissible_some hg
  have hslot : (s.banks.configure cb g ram shadow we s.operand).slot cb = configuredSlot g s.operand :=
    (s.banks.configure_slot cb cb g ram shadow we s.operand).trans (if_pos rfl)
  refine ⟨_, execConfigureBank_of_admissible hg, ?_, ?_, fun a ha => ?_, fun k hk => ?_, ?_, rfl, rfl, rfl, rfl, rfl⟩
  · exact (congrArg (·.geometry.pageSize) hslot).trans hpage
  · exact (congrArg (·.geometry.size) hslot).trans hsize
  · have hag : a < g.size := lt_of_lt_of_eq ha (congrArg (·.geometry.size) hslot)
    calc State.contentByte _ cb a
        = (configuredSlot g s.operand).content.read a := congrArg (·.content.read a) hslot
      _ = s.operand.getD a 0xFF#8 := Slot.read_configuredSlot g s.operand hag
      _ = s.operand.getD a 0#8 := getD_eq_of_lt (hag.trans_le hdata) _ _
  · exact (s.banks.configure_slot cb k g ram shadow we s.operand).trans (if_neg hk)
  · obtain ⟨hram, hwe, hshadow, hdirty⟩ := s.banks.configure_attributes cb g ram shadow we s.operand
    simp only [State.returning_banks, hram, hwe, hshadow, hdirty, Bool.or_comm ram shadow]
    split <;> exact ⟨rfl, rfl, rfl, rfl⟩

end Sys2Proof.Machine
end

section
/-! PROOFS. The operations of the bank engine as whole next states (40_bank_engine.md sections 1 to 6): the counter advance
and the strobe in numbers, the byte a READ or PEEK gives, and which operations change the registers, the banks and the
content of the slots. -/

namespace Sys2Proof.Machine

/-! ### The counter -/

/-- The counter after an advance, modulo 0x800 (40_bank_engine.md R147). -/
theorem pageOffset_succ_toNat (c : BitVec 11) : (c + 1#11).toNat = (c.toNat + 1) % 0x800 := BitVec.toNat_add c 1#11

theorem pageOffset_succ (c : BitVec 11) : c + 1#11 = BitVec.ofNat 11 ((c.toNat + 1) % 0x800) := by
  rw [← pageOffset_succ_toNat, BitVec.ofNat_toNat, BitVec.setWidth_eq]

theorem zeroExtend_pageOffset_succ (c : BitVec 11) :
    (c + 1#11).zeroExtend 16 = BitVec.ofNat 16 ((c.toNat + 1) % 0x800) := by
  rw [← pageOffset_succ_toNat, BitVec.ofNat_toNat]

/-- The advance as one update of the state. -/
theorem State.advance_eq (s : State) :
    s.advance = { s with
      regs := { s.regs with pageOffset :=
        if s.regs.strobeLevel then s.regs.pageOffset else BitVec.ofNat 11 ((s.regs.pageOffset.toNat + 1) % 0x800) }
      eeprom :=
        if s.regs.strobeLevel then s.eeprom
        else s.eeprom.map (Eeprom.notify · (BitVec.ofNat 16 ((s.regs.pageOffset.toNat + 1) % 0x800))) } := by
  unfold State.advance
  split
  · rfl
  · rw [← pageOffset_succ, ← zeroExtend_pageOffset_succ]
    rfl

/-- Settles O11: the byte is taken before the advance, and the advance is one update of the state. -/
theorem readReturnsTheByteThenAdvances : Obligations.ReadReturnsTheByteThenAdvances := by
  intro s b
  show Host.Outcome.next (s.advance.returning (.byte (s.slotByte b))) = _
  rw [State.advance_eq]
  rfl

theorem encode_peek_toNat (b : SlotId) : (encode (.peek b)).toNat = 0x20000000 + 256 * b.selector.toNat := by
  cases b <;> rfl

/-- Settles O12: PEEK gives the byte of READ; with strobe high the advance changes nothing. -/
theorem peekGivesTheByteOfReadAndChangesNothing : Obligations.PeekGivesTheByteOfReadAndChangesNothing := by
  intro s b
  refine ⟨rfl, fun t u ht hu => ?_, fun hstrobe => ?_, rfl, decodeOfEncodeGivesTheOperation _ rfl, ?_⟩
  · cases ht
    cases hu
    rfl
  · show Host.Outcome.next (s.advance.returning (.byte (s.slotByte b))) = .next (s.returning (.byte (s.slotByte b)))
    rw [State.advance, if_pos hstrobe]
  · rw [encode_peek_toNat]
    cases b <;> rfl

/-- Settles O15: the advance after the store part looks at the registers and the EEPROM, which the store part keeps. -/
theorem writeAdvancesLikeRead : Obligations.WriteAdvancesLikeRead := by
  intro s b v
  refine ⟨_, rfl, ?_⟩
  rw [State.advance_eq, State.offer_eq]
  exact ⟨rfl, rfl, rfl, rfl, rfl⟩

/-! ### A stored byte -/

theorem State.slotByte_b1_of_stored {s u : State} {v : Byte} (hwf : s.wf = true) (hram : s.banks.isRam = true)
    (hbanks : u.banks = s.banks.storeB1 (s.addressFor .b1) v) (haddr : u.addressFor .b1 = s.addressFor .b1) :
    u.slotByte .b1 = v := by
  obtain ⟨hslots, hsize, -, -⟩ := Banks.wf_iff.1 ((State.wf_iff s).1 hwf).1
  have hnonempty : (u.banks.slot .b1).geometry.size ≠ 0 := by
    rw [hbanks]
    exact (Geometry.size_pos (hsize hram)).ne'
  rw [State.slotByte, if_neg hnonempty, haddr, State.contentByte, hbanks]
  exact Banks.read_storeB1_same (Slot.wf_iff.1 (hslots .b1)).1 _ v

/-- Settles O16: the WRITE stores, and the later state reads the stored banks at the stored offset. -/
theorem storedByteIsReadAtTheSameOffset : Obligations.StoredByteIsReadAtTheSameOffset := by
  intro s t u v hwf hram hwe hexec hbanks haddr
  have hstores : s.banks.stores .b1 = true := (Banks.stores_iff_of_wf ((State.wf_iff s).1 hwf).1).2 ⟨rfl, hram, hwe⟩
  have hstored : u.banks = s.banks.storeB1 (s.addressFor .b1) v := by
    rw [hbanks, (exec_next hexec).banks]
    simp [banksAfter, State.offer_eq, hstores]
  have hbyte : Result.byte (u.slotByte .b1) = .byte v := congrArg _ (State.slotByte_b1_of_stored hwf hram hstored haddr)
  exact ⟨⟨_, rfl, hbyte⟩, ⟨_, rfl, hbyte⟩⟩

/-! ### The strobe -/

theorem shiftLeft_one_or_ofBool (x : Byte) (b : Bool) :
    (x <<< 1) ||| (BitVec.ofBool b).zeroExtend 8 = BitVec.ofNat 8 ((x.toNat * 2 + if b then 1 else 0) % 256) := by
  apply BitVec.eq_of_toNat_eq
  rw [toNat_shiftLeft_one_or_ofBool, BitVec.toNat_ofNat]
  exact (Nat.mod_mod _ _).symm

/-- Settles O17: reset, shift and level in one update of the state. -/
theorem strobeResetsThenShiftsThenStoresTheLevel : Obligations.StrobeResetsThenShiftsThenStoresTheLevel := by
  intro s l
  show Host.Outcome.next (State.returning { s.strobeReset l with
    regs := { (s.strobeReset l).regs.strobeShift l with strobeLevel := l } } .nothing) = _
  rw [AddressRegs.strobeShift_eq, State.strobeReset_eq, shiftLeft_one_or_ofBool]
  rfl

theorem encode_setBit_toNat (l : Bool) : (encode (.setBit l)).toNat = 0x50000000 + if l then 1 else 0 := by
  cases l <;> rfl

/-- Settles O19: SET_BIT writes one register. -/
theorem setBitSetsOnlyTheBitLine : Obligations.SetBitSetsOnlyTheBitLine :=
  fun _ l _ => ⟨rfl, rfl, decodeOfEncodeGivesTheOperation _ rfl, encode_setBit_toNat l⟩

theorem State.strobeCoherent_iff (s : State) : s.strobeCoherent = true ↔
    (s.regs.strobeLevel = true →
      s.regs.pageOffset = 0#11 ∧ ∀ e, s.eeprom = some e → e.lastCs = false ∧ e.lastClk = false) := by
  unfold State.strobeCoherent
  cases s.regs.strobeLevel <;> cases s.eeprom <;> simp

/-- A notification with 0 changes nothing while both lines are low. -/
theorem Eeprom.notify_zero_of_lines_low {e : Eeprom} (hcs : e.lastCs = false) (hclk : e.lastClk = false) :
    e.notify 0#16 = e := by
  have hcs0 : counterCs 0#16 = false := rfl
  have hclk0 : counterClk 0#16 = false := rfl
  have hstep : e.csStep false = e := by rw [Eeprom.csStep, hcs, if_neg (by decide)]
  rw [Eeprom.notify_eq, hcs0, hclk0, hstep, if_neg (by simp [risingEdge]), ← hclk]

/-- Settles O20: in a coherent state the reset writes the values that stand there, and no edge shifts. -/
theorem strobeOneAgainChangesNothing : Obligations.StrobeOneAgainChangesNothing := by
  intro s hcoherent hstrobe
  obtain ⟨hcounter, hlines⟩ := (State.strobeCoherent_iff s).1 hcoherent hstrobe
  have heeprom : s.eeprom.map (Eeprom.notify · 0#16) = s.eeprom := by
    cases he : s.eeprom with
    | none => rfl
    | some e => exact congrArg some (Eeprom.notify_zero_of_lines_low (hlines e he).1 (hlines e he).2)
  obtain ⟨⟨sv, po, sl, bl⟩, banks, eeprom, result, pending, position⟩ := s
  obtain rfl : sl = true := hstrobe
  obtain rfl : po = 0#11 := hcounter
  rw [strobeResetsThenShiftsThenStoresTheLevel]
  simpa using heeprom

/-! ### Who changes the registers -/

theorem regsOfRecord_pageOffset_toNat {s : State} (h : s.validRecord s.operand = true) :
    (regsOfRecord s.operand).pageOffset.toNat = (s.operand.getD 1 0#8).toNat + 256 * (s.operand.getD 2 0#8).toNat := by
  have hle : (u16At s.operand 1).toNat ≤ 0x7FF := by
    obtain ⟨-, hbank, -⟩ := State.validRecord_iff.1 h
    obtain ⟨-, -, hcounter⟩ := (validBankRecord_iff _).1 hbank
    rw [u16At_toNat]
    exact hcounter
  show ((u16At s.operand 1).truncate 11).toNat = _
  rw [BitVec.toNat_setWidth, Nat.mod_eq_of_lt (by omega), u16At_toNat]
  rfl

/-- Settles O21: the registers after each operation. -/
theorem counterAndShiftLaws : Obligations.CounterAndShiftLaws := by
  intro i s t h
  have hregs := (exec_next h).regs
  have hadvance : s.advance.regs.pageOffset.toNat =
      (if s.regs.strobeLevel then s.regs.pageOffset.toNat else (s.regs.pageOffset.toNat + 1) % 0x800)
      ∧ s.advance.regs.shiftValue = s.regs.shiftValue := by
    rw [State.advance_eq]
    refine ⟨?_, rfl⟩
    cases s.regs.strobeLevel <;> simp
  rw [hregs]
  cases i with
  | read b => exact ⟨hadvance.1, fun hne => absurd hadvance.2 hne⟩
  | write b v => exact ⟨hadvance.1, fun hne => absurd hadvance.2 hne⟩
  | strobe l =>
    have hpo : (regsAfter s (.strobe l)).pageOffset = if l then 0#11 else s.regs.pageOffset := by
      simp [regsAfter, State.strobeReset_eq, AddressRegs.strobeShift_eq]
    refine ⟨by rw [hpo]; cases l <;> rfl, fun hne => .inl ?_⟩
    by_contra hedge
    refine hne ?_
    simp only [regsAfter, State.strobeReset_eq, AddressRegs.strobeShift_eq]
    refine if_neg fun ⟨hlow, hl⟩ => hedge ⟨by rw [hl], hlow⟩
  | softReset => exact ⟨rfl, fun _ => .inr (.inl rfl)⟩
  | loadState => exact ⟨regsOfRecord_pageOffset_toNat (loadState_next h).1, fun _ => .inr (.inr rfl)⟩
  | _ => exact ⟨rfl, fun hne => absurd rfl hne⟩

/-! ### Who changes the banks -/

theorem banksAfter_configureBank {cb : SlotId} {ps : BitVec 16} {ram shadow we : Bool} {s t : State}
    (h : exec (.configureBank cb ps ram shadow we) s = .next t) :
    ∃ g, t.banks = s.banks.configure cb g ram shadow we s.operand := by
  obtain ⟨g, -, rfl⟩ := configureBank_next h
  exact ⟨g, rfl⟩

/-- Settles O25: a configuration replaces one slot, and a store changes one byte. -/
theorem onlyWriteAndConfigureChangeContent : Obligations.OnlyWriteAndConfigureChangeContent := by
  intro i s t k a h hne
  have hbanks := (exec_next h).banks
  unfold State.contentByte at hne
  cases i with
  | write b v =>
    refine .inr ?_
    rw [hbanks, banksAfter, State.offer_eq] at hne
    dsimp only at hne
    split at hne
    · next hstores =>
      obtain ⟨rfl, hram, hwe, hpos⟩ := Banks.stores_iff.1 hstores
      obtain ⟨rfl, rfl⟩ : k = .b1 ∧ a = s.addressFor .b1 := by
        by_contra hother
        exact hne (Banks.read_storeB1_other s.banks v hother)
      exact ⟨rfl, hram, hwe, State.addressFor_lt (k := .b1) hpos, rfl, v, rfl⟩
    · exact absurd rfl hne
  | configureBank cb ps ram shadow we =>
    obtain ⟨g, hg⟩ := banksAfter_configureBank h
    rw [hg, Banks.configure_slot] at hne
    by_cases hk : k = cb
    · exact .inl ⟨ps, ram, shadow, we, by rw [hk]⟩
    · rw [if_neg hk] at hne
      exact absurd rfl hne
  | _ =>
    rw [hbanks] at hne
    exact absurd rfl hne

theorem offer_dirty (s : State) (b : SlotId) (v : Byte) :
    (s.offer b v).banks.dirty = true ↔ s.banks.stores b = true ∨ s.banks.dirty = true := by
  rw [State.offer_eq]
  cases h : s.banks.stores b <;> simp

/-- Settles O26: the banks after each operation. -/
theorem banksAndDirtyChangeOnlyByTheirOperations : Obligations.BanksAndDirtyChangeOnlyByTheirOperations := by
  intro i s t h
  have hbanks := (exec_next h).banks
  cases i with
  | write b v =>
    refine ⟨fun _ => .inl ⟨b, v, rfl⟩, ?_⟩
    rw [hbanks, banksAfter, offer_dirty, Banks.stores_iff]
    simp
  | configureBank cb ps ram shadow we =>
    refine ⟨fun _ => .inr (.inl ⟨cb, ps, ram, shadow, we, rfl⟩), ?_⟩
    obtain ⟨g, hg⟩ := banksAfter_configureBank h
    obtain ⟨-, -, -, hdirty⟩ := s.banks.configure_attributes cb g ram shadow we s.operand
    rw [hg, hdirty]
    by_cases hcb : cb = .b1
    · subst hcb
      refine ⟨fun hdirty => by simp at hdirty, ?_⟩
      rintro (⟨⟨v, hv⟩, -⟩ | ⟨-, -, hother⟩)
      · cases hv
      · exact absurd rfl (hother ps ram shadow we)
    · simp [hcb]
  | clearDirtyBank1 =>
    refine ⟨fun _ => .inr (.inr rfl), ?_⟩
    rw [hbanks]
    simp [banksAfter]
  | _ =>
    refine ⟨fun hne => absurd hbanks hne, ?_⟩
    rw [hbanks]
    simp [banksAfter]

end Sys2Proof.Machine
end

section
/-! PROOFS. The EEPROM outside its command protocol (41_eeprom.md sections 1 to 3, 20_memory.md R88, R89): the
operations with and without a device, the ticks of a busy cycle, the notification with its CS step, and the cells. -/

namespace Sys2Proof.Machine

/-! ### Without a device -/

theorem State.mapEeprom_of_none {s : State} (h : s.eeprom = none) (f : Eeprom → Eeprom) : s.mapEeprom f = s := by
  unfold State.mapEeprom
  rw [h, Option.map_none, ← h]

theorem next_returning_congr {r q : Result} (h : r = q) (s : State) :
    (.next (s.returning r) : Host.Outcome State Fault Refusal) = .next { s with result := q } := by
  rw [h]
  rfl

/-- Settles O28: each operation changes the fitted EEPROM or reads it. -/
theorem withoutADeviceNothingHappens : Obligations.WithoutADeviceNothingHappens := by
  intro s h
  have hmap : ∀ f, (s.mapEeprom f).returning .nothing = { s with result := .nothing } := fun f => by
    rw [State.mapEeprom_of_none h]
    rfl
  have hout : s.outputLine = false := by rw [State.outputLine, h]
  have hdirty : s.eepromDirty = false := by rw [State.eepromDirty, h]
  have himage : s.eepromImage = [] := by rw [State.eepromImage, h]
  exact ⟨fun x y => congrArg _ (hmap _), congrArg _ (hmap _), fun c => congrArg _ (hmap _), congrArg _ (hmap _),
    next_returning_congr (congrArg _ hout) s, next_returning_congr (congrArg _ hdirty) s,
    next_returning_congr (congrArg _ himage) s⟩

/-! ### With a device -/

theorem State.mapEeprom_of_some {s : State} {e : Eeprom} (h : s.eeprom = some e) (f : Eeprom → Eeprom) :
    s.mapEeprom f = { s with eeprom := some (f e) } := by
  rw [State.mapEeprom, h]
  rfl

/-- Settles O29: the fresh device, field by field. -/
theorem configureEepromGivesTheFreshDevice : Obligations.ConfigureEepromGivesTheFreshDevice :=
  fun _ e8 => ⟨rfl, fun d => ⟨Eeprom.fresh d e8, rfl, rfl, rfl, rfl, rfl, rfl, rfl, fun _ => rfl, rfl, rfl, rfl, rfl, rfl,
    rfl, rfl, rfl, rfl⟩⟩

/-- Settles O30: the change of the fitted EEPROM, and its output bit. -/
theorem latchOutputAndNotificationOperations : Obligations.LatchOutputAndNotificationOperations := by
  intro s e h
  have hmap : ∀ f, (s.mapEeprom f).returning .nothing = { s with eeprom := some (f e), result := .nothing } := fun f => by
    rw [State.mapEeprom_of_some h]
    rfl
  have hout : s.outputLine = e.outputBit := by rw [State.outputLine, h]
  exact ⟨fun x y => congrArg _ (hmap _), next_returning_congr (congrArg _ hout) s, fun c => congrArg _ (hmap _)⟩

/-- Settles O55: each flag is written or read by its own operation. -/
theorem dirtyFlagOperations : Obligations.DirtyFlagOperations := by
  refine fun s => ⟨rfl, rfl, fun e h => ⟨?_, ?_⟩⟩
  · show Host.Outcome.next ((s.mapEeprom _).returning .nothing) = _
    rw [State.mapEeprom_of_some h]
    rfl
  · have hdirty : s.eepromDirty = e.isDirty := by rw [State.eepromDirty, h]
    exact next_returning_congr (congrArg _ hdirty) s

/-! ### The busy cycle -/

theorem countTick_of_lt {n : Fin 101} (h : n.val < 99) :
    countTick n = Fin.ofNat 101 (n.val + 1) ∧ ¬ Config.busyTicks ≤ (countTick n).val := by
  revert n; decide

theorem countTick_of_le {n : Fin 101} (h : 99 ≤ n.val) : countTick n = 100 := by
  revert n; decide

theorem Eeprom.tick_of_idle {e : Eeprom} (h : e.inProgrammingCycle = false) : e.tick = e := by
  rw [Eeprom.tick, h, if_neg Bool.false_ne_true]

/-- A tick before the hundredth counts. -/
theorem Eeprom.tick_of_lt {e : Eeprom} (h : e.inProgrammingCycle = true) (hn : e.busyCounter.val < 99) :
    e.tick = { e with busyCounter := Fin.ofNat 101 (e.busyCounter.val + 1) } := by
  obtain ⟨hcount, hnotyet⟩ := countTick_of_lt hn
  rw [Eeprom.tick, if_pos h, if_neg hnotyet, hcount]

/-- The hundredth tick ends the cycle. -/
theorem Eeprom.tick_of_le {e : Eeprom} (h : e.inProgrammingCycle = true) (hn : 99 ≤ e.busyCounter.val) :
    e.tick = { e with busyCounter := 100, outputBit := true, inProgrammingCycle := false } := by
  rw [Eeprom.tick, if_pos h, countTick_of_le hn]
  rfl

/-- Settles O31: the three cases of a tick of the fitted EEPROM. -/
theorem tickBusyCountsToReady : Obligations.TickBusyCountsToReady := by
  intro s e h
  show Host.Outcome.next ((s.mapEeprom Eeprom.tick).returning .nothing) = _
  rw [State.mapEeprom_of_some h]
  by_cases hp : e.inProgrammingCycle = true
  · by_cases hn : 99 ≤ e.busyCounter.val
    · rw [Eeprom.tick_of_le hp hn, if_pos hp, if_pos hn]
      rfl
    · rw [Eeprom.tick_of_lt hp (Nat.lt_of_not_le hn), if_pos hp, if_neg hn]
      rfl
  · rw [Eeprom.tick_of_idle (Bool.eq_false_iff.2 hp), if_neg hp]
    rfl

/-- The ticks before the hundredth only count. -/
theorem Eeprom.ticks_beginBusy_of_lt (e : Eeprom) {n : Nat} (h : n < 100) :
    e.beginBusy.ticks n = { e.beginBusy with busyCounter := Fin.ofNat 101 n } := by
  induction n with
  | zero => rfl
  | succ n ih =>
    have hval : (Fin.ofNat 101 n).val = n := Nat.mod_eq_of_lt (by omega)
    rw [Eeprom.ticks, ih (by omega), Eeprom.tick_of_lt rfl (show (Fin.ofNat 101 n).val < 99 by omega)]
    show { e.beginBusy with busyCounter := Fin.ofNat 101 ((Fin.ofNat 101 n).val + 1) } = _
    rw [hval]

/-- The hundredth tick ends the cycle, and later ones find none. -/
theorem Eeprom.ticks_beginBusy_of_le (e : Eeprom) {n : Nat} (h : 100 ≤ n) :
    e.beginBusy.ticks n = { e with busyCounter := 100, outputBit := true, inProgrammingCycle := false } := by
  induction n, h using Nat.le_induction with
  | base =>
    rw [Eeprom.ticks, e.ticks_beginBusy_of_lt (by decide)]
    exact Eeprom.tick_of_le rfl (show 99 ≤ (Fin.ofNat 101 99).val by decide)
  | succ n hn ih =>
    rw [Eeprom.ticks, ih]
    exact Eeprom.tick_of_idle rfl

/-- Settles O32: by induction on the number of ticks, below 100 and from 100 on. -/
theorem readyComesAtTheHundredthTick : Obligations.ReadyComesAtTheHundredthTick :=
  fun e _ => ⟨e.ticks_beginBusy_of_lt, e.ticks_beginBusy_of_le⟩

/-! ### The notification -/

theorem risingEdge_iff (cs clk lastClk : Bool) :
    risingEdge cs clk lastClk = true ↔ cs = true ∧ clk = true ∧ lastClk = false := by
  simp [risingEdge, and_assoc]

/-- Settles O33: the CS step with the new clock level, and the clock edge on the state it leaves. -/
theorem notificationAppliesCsStepThenClockStep : Obligations.NotificationAppliesCsStepThenClockStep := by
  intro e c
  have hstep : { e.csStep (counterCs c) with lastClk := counterClk c } =
      if c.getLsbD 7 = e.lastCs then { e with lastClk := c.getLsbD 1 }
      else { e with protocolState := .idle, shiftAccumulator := 0#32, lastCs := c.getLsbD 7, lastClk := c.getLsbD 1 } := by
    show ({ e.csStep (c.getLsbD 7) with lastClk := c.getLsbD 1 } : Eeprom) = _
    unfold Eeprom.csStep
    by_cases h : c.getLsbD 7 = e.lastCs
    · rw [if_neg (not_not.2 h), if_pos h]
    · rw [if_pos h, if_neg h]
  rw [Eeprom.notify_eq, hstep]
  exact ite_congr (propext (risingEdge_iff _ _ _)) (fun _ => rfl) fun _ => rfl

/-- Settles O34: an edge writes three registers, and a tick looks at none of them. -/
theorem csEdgeResetsTheProtocolAndNothingElse : Obligations.CsEdgeResetsTheProtocolAndNothingElse := by
  refine fun e cs => ⟨fun hedge => ?_, fun hsame => if_neg (not_not.2 hsame)⟩
  have hstep : e.csStep cs = { e with protocolState := .idle, shiftAccumulator := 0#32, lastCs := cs } := if_pos hedge
  refine ⟨hstep, fun c hc hclock => ?_, ?_⟩
  · subst hc
    rw [Eeprom.notify_eq]
    exact if_neg (mt (risingEdge_iff _ _ _).1 hclock)
  · rw [hstep]
    unfold Eeprom.tick
    dsimp only
    split_ifs <;> rfl

/-! ### Cells -/

/-- A byte cell after a store to a byte cell: the other half of the 16-bit cell keeps its value (20_memory.md R88). -/
theorem cell8_setCell8 {m : Memory 16} (hm : m.wf = true) (a b : Nat) (v : BitVec 8) :
    cell8 (setCell8 m a v) b = if a = b then v else cell8 m b := by
  obtain ⟨i, hi⟩ : ∃ i, a = 2 * i ∨ a = 2 * i + 1 := ⟨a / 2, even_or_odd a⟩
  obtain ⟨j, hj⟩ : ∃ j, b = 2 * j ∨ b = 2 * j + 1 := ⟨b / 2, even_or_odd b⟩
  have hread : ∀ x, (m.write i x).read j = if i = j then x else m.read j := Memory.read_write hm i j
  rcases hi with rfl | rfl <;> rcases hj with rfl | rfl <;>
    simp only [setCell8_even, setCell8_odd, cell8_even, cell8_odd, hread, apply_ite (BitVec.extractLsb' _ 8),
      BitVec.extractLsb'_append_eq_left, BitVec.extractLsb'_append_eq_right]
  · simp only [Nat.mul_left_cancel_iff (show 0 < 2 by decide)]
  · have hne : 2 * i ≠ 2 * j + 1 := by omega
    by_cases hij : i = j <;> simp [hij, hne]
  · have hne : 2 * i + 1 ≠ 2 * j := by omega
    by_cases hij : i = j <;> simp [hij, hne]
  · simp only [Nat.add_right_cancel_iff, Nat.mul_left_cancel_iff (show 0 < 2 by decide)]

/-- Settles O45: a 16-bit cell is one unit of the storage, and a byte cell one half of it. -/
theorem cellReadAfterWrite : Obligations.CellReadAfterWrite := by
  refine fun m a b hm => ⟨fun v => Memory.read_write hm a b v, fun v => cell8_setCell8 hm a b v, ?_⟩
  rw [cell8_even, cell8_odd]
  have := (m.read a).isLt
  simp only [BitVec.extractLsb'_toNat, Nat.shiftRight_eq_div_pow]
  omega

end Sys2Proof.Machine
end

section
/-! PROOFS. The programming commands of the EEPROM and the read-out (41_eeprom.md R191 to R199): what a programmed cell
reads as, a payload clocked in, the extended command, the bits of WAIT, and the round trip of a written value. -/

namespace Sys2Proof.Machine

/-! ### A command clocked in -/

theorem Eeprom.eq_of_accumulator_one {e : Eeprom} (hacc : e.shiftAccumulator = 1#32) :
    e = { e with shiftAccumulator := BitVec.ofNat 32 1 } := by
  rw [← hacc]

/-- Settles O36: the bits before the last only shift, and the last one decodes. -/
theorem commandIsDecodedAfterExactlyAddrBitsPlusTwo : Obligations.CommandIsDecodedAfterExactlyAddrBitsPlusTwo := by
  refine fun e he hacc => ⟨fun n v hn hv => ?_, fun v hv => Eeprom.clockBits_whole_command he hacc hv⟩
  have hroom : (1 + 1) * 2 ^ n ≤ 2 ^ (e.addrBits + 2) := by
    rw [← Nat.pow_succ']
    exact Nat.pow_le_pow_right (by decide) hn
  have h := Eeprom.clockBits_shift_only (Eeprom.clockEdge_address he) n 1 v hroom
  rwa [← Eeprom.eq_of_accumulator_one hacc, Nat.one_mul, Nat.mod_eq_of_lt hv] at h

/-! ### A programmed cell -/

/-- The change of a cell writes the storage and the dirty flag alone. -/
theorem Eeprom.program_eq (e : Eeprom) (a : Nat) (v : BitVec 16) :
    e.program a v = { e with
      storage := (e.program a v).storage
      isDirty := e.isDirty || !e.writeProtected } := by
  unfold Eeprom.program
  by_cases hw : e.writeProtected = true
  · have hdirty : (e.isDirty || !e.writeProtected) = e.isDirty := by simp [hw]
    rw [if_pos hw, hdirty]
  · have hdirty : (e.isDirty || !e.writeProtected) = true := by simp [hw]
    rw [if_neg hw, hdirty]
    rfl

theorem Eeprom.program_of_protected {e : Eeprom} (h : e.writeProtected = true) (a : Nat) (v : BitVec 16) :
    e.program a v = e := if_pos h

theorem and_valueMask_eightBit {e : Eeprom} (h : e.eightBit = true) (v : BitVec 16) :
    (v.truncate 8).zeroExtend 16 = v &&& e.valueMask := by
  rw [Eeprom.valueMask, if_pos h]
  ext j hj
  interval_cases j <;> simp

theorem and_valueMask_sixteenBit {e : Eeprom} (h : e.eightBit = false) (v : BitVec 16) : v &&& e.valueMask = v := by
  rw [Eeprom.valueMask, h]
  exact BitVec.and_allOnes

/-- A cell after an unprotected change of a cell (20_memory.md R88, R89). -/
theorem Eeprom.cell_program {e : Eeprom} (hwf : e.storage.wf = true) (hw : e.writeProtected = false) (a b : Nat)
    (v : BitVec 16) : (e.program a v).cell b = if a = b then v &&& e.valueMask else e.cell b := by
  have hstorage : (e.program a v).storage = (e.setCell a v).storage := by
    rw [Eeprom.program, hw]
    rfl
  unfold Eeprom.cell
  rw [Eeprom.program_eightBit, hstorage, Eeprom.setCell_storage]
  cases h8 : e.eightBit
  · rw [and_valueMask_sixteenBit h8]
    exact Memory.read_write hwf a b v
  · rw [← and_valueMask_eightBit h8]
    simp only [if_true, cell8_setCell8 hwf]
    split <;> rfl

/-- The completion of a programming command: the cell is changed, a busy cycle begins, and the device waits
(41_eeprom.md R195, R197, R199). -/
def Eeprom.programAndWait (e : Eeprom) (a : Nat) (v : BitVec 16) : Eeprom :=
  { (e.program a v).beginBusy with protocolState := .wait }

/-- A programming command changes the storage, the dirty flag, the busy cycle and the protocol state. -/
theorem Eeprom.programAndWait_eq (e : Eeprom) (a : Nat) (v : BitVec 16) :
    e.programAndWait a v = { e with
      shiftAccumulator := (e.programAndWait a v).shiftAccumulator
      storage := (e.programAndWait a v).storage
      isDirty := e.isDirty || !e.writeProtected
      busyCounter := 0
      inProgrammingCycle := true
      outputBit := false
      protocolState := .wait } := by
  have hprogram := congrArg (fun f : Eeprom => { f.beginBusy with protocolState := .wait }) (e.program_eq a v)
  have hacc : (e.programAndWait a v).shiftAccumulator = e.shiftAccumulator := e.program_shiftAccumulator a v
  rw [hacc]
  exact hprogram

theorem Eeprom.cell_programAndWait {e : Eeprom} (hwf : e.storage.wf = true) (hw : e.writeProtected = false) (a b : Nat)
    (v : BitVec 16) : (e.programAndWait a v).cell b = if a = b then v &&& e.valueMask else e.cell b := by
  rw [← Eeprom.cell_program hwf hw]
  rfl

theorem Eeprom.storage_programAndWait_of_protected {e : Eeprom} (hw : e.writeProtected = true) (a : Nat) (v : BitVec 16) :
    (e.programAndWait a v).storage = e.storage := by
  rw [Eeprom.programAndWait, Eeprom.program_of_protected hw]
  rfl

/-! ### The ERASE command -/

theorem Eeprom.runOpcode_erase (e : Eeprom) (a : Nat) :
    e.runOpcode 3 a = Eeprom.programAndWait { e with selectedAddress := BitVec.ofNat 16 a } a e.valueMask := rfl

theorem Eeprom.valueMask_and_self (e : Eeprom) :
    e.valueMask &&& e.valueMask = if e.eightBit then 0xFF#16 else 0xFFFF#16 :=
  BitVec.and_self

/-- Settles O39: the opcode 11 runs the ERASE command, a programming command with the all-ones value. -/
theorem eraseCommandErasesOneCellAndBeginsBusy : Obligations.EraseCommandErasesOneCellAndBeginsBusy := by
  intro e a hwf he hacc ha
  obtain ⟨x, herase⟩ := Eeprom.clockBits_command he hacc (op := 3) (by decide) ha
  rw [show [true, true] = msbBits 2 3 from rfl, herase, Eeprom.runOpcode_erase]
  refine ⟨_, rfl, Eeprom.programAndWait_eq
    { e with shiftAccumulator := x, selectedAddress := BitVec.ofNat 16 a } a _,
    fun hw => Eeprom.storage_programAndWait_of_protected
    (e := { e with shiftAccumulator := x, selectedAddress := BitVec.ofNat 16 a }) hw _ _, fun hw => ?_⟩
  have hcell := Eeprom.cell_programAndWait
    (e := { e with shiftAccumulator := x, selectedAddress := BitVec.ofNat 16 a }) hwf hw a
  refine ⟨?_, fun b hb => ?_⟩
  · rw [hcell, if_pos rfl]
    exact e.valueMask_and_self
  · rw [hcell, if_neg hb.symm]
    rfl

/-- Settles O43: both completions begin a busy cycle, which sets its three registers whatever they were. -/
theorem secondProgrammingCommandRestartsTheCount : Obligations.SecondProgrammingCommandRestartsTheCount := by
  refine fun e di => ⟨fun he hdone hop => ?_, fun he hdone => ?_, rfl⟩
  · rw [Eeprom.clockEdge_runs_opcode he hdone hop, Eeprom.runOpcode_erase]
    exact ⟨rfl, rfl, rfl⟩
  · have hedge : e.clockEdge di = (e.shift di).programAndWait _ _ :=
      (Eeprom.clockEdge_of_data he di).trans (if_neg hdone)
    rw [hedge]
    exact ⟨rfl, rfl, rfl⟩

/-! ### The extended command -/

/-- The extended command by its sub-opcode (41_eeprom.md R196). -/
theorem Eeprom.extendedCmd_of_sub {e : Eeprom} {a sub : Nat} (h : (a >>> (e.addrBits - 2)) &&& 3 = sub) :
    e.extendedCmd a = { e with
      writeProtected := if sub = 0 then true else if sub = 3 then false else e.writeProtected
      protocolState := .idle } := by
  rw [Eeprom.extendedCmd, h]
  split
  · rfl
  · split <;> rfl

theorem sub_of_address {n sub low : Nat} (hsub : sub < 4) (hlow : low < 2 ^ n) :
    ((sub * 2 ^ n + low) >>> n) &&& 3 = sub := by
  rw [Nat.shiftRight_eq_div_pow, Nat.add_comm, Nat.add_mul_div_right _ _ (Nat.two_pow_pos n), Nat.div_eq_of_lt hlow,
    Nat.zero_add, show (3 : Nat) = 2 ^ 2 - 1 from rfl, Nat.and_two_pow_sub_one_eq_mod, Nat.mod_eq_of_lt hsub]

/-- Settles O40: the bits are the opcode 0 and an address whose two top bits are the sub-opcode. -/
theorem extendedCommandsSetWriteProtection : Obligations.ExtendedCommandsSetWriteProtection := by
  intro e sub low he hacc hsub hlow
  have hbounds := e.addrBits_bounds
  have hpow : 2 ^ e.addrBits = 4 * 2 ^ (e.addrBits - 2) := by
    rw [show 4 = 2 ^ 2 from rfl, ← Nat.pow_add, show 2 + (e.addrBits - 2) = e.addrBits by omega]
  have hpow2 : 2 ^ (e.addrBits + 2) = 4 * 2 ^ e.addrBits := by ring
  have hle : 2 ^ e.addrBits ≤ 2 ^ 11 := Nat.pow_le_pow_right (by decide) hbounds.2
  have ha : sub * 2 ^ (e.addrBits - 2) + low < 2 ^ e.addrBits := by
    have : sub * 2 ^ (e.addrBits - 2) ≤ 3 * 2 ^ (e.addrBits - 2) := Nat.mul_le_mul_right _ (by omega)
    omega
  have hbits : [false, false] ++ msbBits 2 sub ++ msbBits (e.addrBits - 2) low
      = msbBits (e.addrBits + 2) (sub * 2 ^ (e.addrBits - 2) + low) := by
    rw [show [false, false] = msbBits 2 0 from rfl, msbBits_append 2 2 0 sub hsub, msbBits_append _ _ _ _ hlow,
      Nat.zero_mul, Nat.zero_add, show 2 + 2 + (e.addrBits - 2) = e.addrBits + 2 by omega]
  have htoNat : (BitVec.ofNat 32 (2 ^ (e.addrBits + 2) + (sub * 2 ^ (e.addrBits - 2) + low))).toNat
      = (4 + 0) * 2 ^ e.addrBits + (sub * 2 ^ (e.addrBits - 2) + low) := by
    rw [BitVec.toNat_ofNat, Nat.mod_eq_of_lt (by omega)]
    omega
  rw [hbits, Eeprom.clockBits_whole_command he hacc (by omega), Nat.add_assoc, Eeprom.decodeCmd_of (op := 0)
    (e := { e with
      shiftAccumulator := BitVec.ofNat 32 (2 ^ (e.addrBits + 2) + (sub * 2 ^ (e.addrBits - 2) + low)) })
    (by decide) ha htoNat]
  exact Eeprom.extendedCmd_of_sub (sub_of_address hsub hlow)

/-! ### The payload of a WRITE -/

/-- The bit that completes a payload programs the selected address (41_eeprom.md R197). -/
theorem Eeprom.clockEdge_data_last {e : Eeprom} (he : e.protocolState = .data) (x : Nat) (di : Bool)
    (h : 2 ^ e.dataBits ≤ 2 * x + di.toNat) (h' : 2 * x + di.toNat < 2 ^ (e.dataBits + 1)) :
    Eeprom.clockEdge { e with shiftAccumulator := BitVec.ofNat 32 x } di
      = Eeprom.programAndWait { e with shiftAccumulator := BitVec.ofNat 32 (2 * x + di.toNat) }
          (e.selectedAddress.toNat % 2 ^ e.addrBits)
          ((BitVec.ofNat 32 (2 * x + di.toNat)).truncate 16 &&& e.valueMask) := by
  have hb := e.dataBits_bounds
  have hp : 2 ^ (e.dataBits + 1) ≤ 2 ^ 17 := Nat.pow_le_pow_right (by decide) (by omega)
  have hd : di.toNat ≤ 1 := di.toNat_le
  have hs := Eeprom.shift_of_lt { e with shiftAccumulator := BitVec.ofNat 32 x } di (x := x) rfl (by omega)
  rw [Eeprom.clockEdge_of_data (e := { e with shiftAccumulator := BitVec.ofNat 32 x }) he, hs, Eeprom.dataStep,
    Eeprom.addrMask_and]
  refine if_neg ?_
  rw [Eeprom.dataMask_eq, and_one_shiftLeft_eq_zero _ (show _ < 32 by show e.dataBits < 32; omega)]
  show ¬ (BitVec.ofNat 32 _).toNat.testBit e.dataBits = false
  rw [BitVec.toNat_ofNat, Nat.mod_eq_of_lt (by omega), testBit_of_between h h']
  simp

/-- A complete payload is the accumulator's bits below the start bit. -/
theorem payload_of_accumulator (e : Eeprom) {v : Nat} (hv : v < 2 ^ e.dataBits) :
    (BitVec.ofNat 32 (2 ^ e.dataBits + v)).truncate 16 &&& e.valueMask = BitVec.ofNat 16 v := by
  have hle : 2 ^ e.dataBits ≤ 2 ^ 16 := Nat.pow_le_pow_right (by decide) e.dataBits_bounds.2
  have hmask : e.valueMask.toNat = 2 ^ e.dataBits - 1 := by
    unfold Eeprom.valueMask Eeprom.dataBits
    cases e.eightBit <;> rfl
  have hdvd : 2 ^ e.dataBits ∣ 2 ^ 16 := Nat.pow_dvd_pow 2 e.dataBits_bounds.2
  apply BitVec.eq_of_toNat_eq
  rw [BitVec.toNat_and, hmask, Nat.and_two_pow_sub_one_eq_mod, BitVec.toNat_setWidth, BitVec.toNat_ofNat,
    BitVec.toNat_ofNat, Nat.mod_mod_of_dvd _ hdvd, Nat.mod_mod_of_dvd _ (hdvd.trans (by decide)), Nat.add_mod_left,
    Nat.mod_eq_of_lt hv, Nat.mod_eq_of_lt (hv.trans_le hle)]

/-- All bits of a payload, the last of which programs the selected address. -/
theorem Eeprom.clockBits_whole_payload {e : Eeprom} (he : e.protocolState = .data) (hacc : e.shiftAccumulator = 1#32)
    {v : Nat} (hv : v < 2 ^ e.dataBits) :
    ∃ x, e.clockBits (msbBits e.dataBits v)
      = Eeprom.programAndWait { e with shiftAccumulator := x } (e.selectedAddress.toNat % 2 ^ e.addrBits)
          (BitVec.ofNat 16 v) := by
  obtain ⟨d, hd⟩ : ∃ d, e.dataBits = d + 1 := ⟨e.dataBits - 1, by have := e.dataBits_bounds; omega⟩
  have hpow : 2 ^ e.dataBits = 2 * 2 ^ d := by rw [hd, Nat.pow_succ']
  have hcollect : e.clockBits (msbBits d (v / 2)) = { e with shiftAccumulator := BitVec.ofNat 32 (2 ^ d + v / 2) } := by
    have h := Eeprom.clockBits_shift_only (Eeprom.clockEdge_data he) d 1 (v / 2) hpow.ge
    rwa [← Eeprom.eq_of_accumulator_one hacc, Nat.one_mul, Nat.mod_eq_of_lt (by omega)] at h
  have hlast : 2 * (2 ^ d + v / 2) + (v.testBit 0).toNat = 2 ^ e.dataBits + v := by
    rw [Nat.toNat_testBit, hpow]
    omega
  have hnext : 2 ^ (e.dataBits + 1) = 2 * 2 ^ e.dataBits := Nat.pow_succ'
  refine ⟨BitVec.ofNat 32 (2 ^ e.dataBits + v), ?_⟩
  calc e.clockBits (msbBits e.dataBits v)
      = (e.clockBits (msbBits d (v / 2))).clockEdge (v.testBit 0) := by
        rw [hd, msbBits_add d 1 v, Eeprom.clockBits_append, Nat.pow_one]
        rfl
    _ = _ := by
        rw [hcollect, Eeprom.clockEdge_data_last he _ _ (by omega) (by omega), hlast, payload_of_accumulator e hv]

theorem ofNat_and_valueMask (e : Eeprom) {v : Nat} (hv : v < 2 ^ e.dataBits) :
    BitVec.ofNat 16 v &&& e.valueMask = BitVec.ofNat 16 v := by
  rw [← payload_of_accumulator e hv, BitVec.and_assoc, BitVec.and_self]

/-- Settles O41: the bits before the last only shift, and the last one programs the selected address. -/
theorem dataPayloadIsStoredAndBeginsBusy : Obligations.DataPayloadIsStoredAndBeginsBusy := by
  refine fun e v hwf he hacc => ⟨fun n hn => ?_, fun hv => ?_⟩
  · have hroom : (1 + 1) * 2 ^ n ≤ 2 ^ e.dataBits := by
      rw [← Nat.pow_succ']
      exact Nat.pow_le_pow_right (by decide) hn
    have h := Eeprom.clockBits_shift_only (Eeprom.clockEdge_data he) n 1 v hroom
    rw [← Eeprom.eq_of_accumulator_one hacc] at h
    exact ⟨_, h⟩
  · obtain ⟨x, hpayload⟩ := Eeprom.clockBits_whole_payload he hacc hv
    rw [hpayload]
    refine ⟨_, rfl, Eeprom.programAndWait_eq { e with shiftAccumulator := x } _ _, fun hw =>
      Eeprom.storage_programAndWait_of_protected (e := { e with shiftAccumulator := x }) hw _ _, fun hw => ?_⟩
    have hcell := Eeprom.cell_programAndWait (e := { e with shiftAccumulator := x }) hwf hw
      (e.selectedAddress.toNat % 2 ^ e.addrBits)
    refine ⟨?_, fun b hb => ?_⟩
    · rw [hcell, if_pos rfl]
      exact ofNat_and_valueMask e hv
    · rw [hcell, if_neg hb.symm]
      rfl

/-! ### The bits of WAIT -/

theorem Eeprom.topBit_eq (e : Eeprom) : e.topBit = e.dataBits - 1 := by
  unfold Eeprom.topBit Eeprom.dataBits
  cases e.eightBit <;> rfl

/-- A bit of WAIT, with no programming cycle (41_eeprom.md R198). -/
theorem Eeprom.clockEdge_wait {e : Eeprom} (he : e.protocolState = .wait) (hp : e.inProgrammingCycle = false)
    (di : Bool) :
    e.clockEdge di = { e.shift di with
      outputBit := e.pendingReadValue.getLsbD (e.dataBits - 1)
      pendingReadValue := e.pendingReadValue <<< 1 } := by
  rw [Eeprom.clockEdge_of_wait he, Eeprom.waitStep, ← e.topBit_eq]
  exact if_neg (by rw [Eeprom.shift_inProgrammingCycle, hp]; exact Bool.false_ne_true)

theorem Eeprom.clockBits_wait (bs : List Bool) : ∀ {e : Eeprom}, e.protocolState = .wait →
    e.inProgrammingCycle = false → ∃ x o, e.clockBits bs = { e with
      shiftAccumulator := x
      pendingReadValue := e.pendingReadValue <<< bs.length
      outputBit := o } := by
  induction bs with
  | nil => exact fun _ _ => ⟨_, _, by rw [List.length_nil, BitVec.shiftLeft_zero]; rfl⟩
  | cons b bs ih =>
    intro e he hp
    obtain ⟨x, o, h⟩ := ih (e := e.clockEdge b) (by rw [Eeprom.clockEdge_wait he hp]; exact he)
      (by rw [Eeprom.clockEdge_wait he hp]; exact hp)
    refine ⟨x, o, ?_⟩
    rw [Eeprom.clockBits_cons, h, Eeprom.clockEdge_wait he hp, List.length_cons, Nat.add_comm, BitVec.shiftLeft_add]
    rfl

/-- The output after the last of some bits of WAIT is that bit of the read value, counted from the top. -/
theorem Eeprom.outputBit_clockBits_wait {e : Eeprom} (he : e.protocolState = .wait) (hp : e.inProgrammingCycle = false)
    {bs : List Bool} {k : Nat} (hk : bs.length = k + 1) :
    (e.clockBits bs).outputBit = (decide (k < e.dataBits) && e.pendingReadValue.getLsbD (e.dataBits - 1 - k)) := by
  obtain ⟨cs, b, rfl⟩ := (List.eq_nil_or_concat' bs).resolve_left (by rintro rfl; cases hk)
  obtain rfl : cs.length = k := by simpa using hk
  obtain ⟨x, o, h⟩ := Eeprom.clockBits_wait cs he hp
  have hb := e.dataBits_bounds
  rw [Eeprom.clockBits_append, h, Eeprom.clockBits_cons, Eeprom.clockBits_nil, Eeprom.clockEdge_wait (e := { e with
    shiftAccumulator := x
    pendingReadValue := e.pendingReadValue <<< cs.length
    outputBit := o }) he hp]
  show (e.pendingReadValue <<< cs.length).getLsbD (e.dataBits - 1) = _
  rw [BitVec.getLsbD_shiftLeft]
  by_cases hlt : cs.length < e.dataBits
  · simp [hlt, show e.dataBits - 1 < 16 by omega, show ¬ e.dataBits - 1 < cs.length by omega]
  · simp [hlt, show e.dataBits - 1 < cs.length by omega]

/-- Settles O42: each bit shifts the read value by one place, so the output after `k + 1` bits is its bit `k` from the
top. -/
theorem waitShiftsTheReadValueOutMsbFirst : Obligations.WaitShiftsTheReadValueOutMsbFirst := by
  intro e bs he hp
  refine ⟨_, rfl, ?_, fun k hk => Eeprom.outputBit_clockBits_wait he hp hk⟩
  obtain ⟨x, o, h⟩ := Eeprom.clockBits_wait bs he hp
  rw [h]

/-! ### The round trip of a written value -/

/-- A start bit in IDLE, then other bits. -/
theorem Eeprom.clockBits_start {e : Eeprom} (he : e.protocolState = .idle) (bs : List Bool) :
    e.clockBits (true :: bs)
      = Eeprom.clockBits { e with shiftAccumulator := 1#32, protocolState := .address } bs := by
  rw [Eeprom.clockBits_cons, Eeprom.clockEdge_of_idle he]
  rfl

/-- A whole READ from IDLE. -/
theorem Eeprom.clockBits_read_of_idle {e : Eeprom} (he : e.protocolState = .idle) {a : Nat} (ha : a < 2 ^ e.addrBits) :
    ∃ x, e.clockBits ([true, true, false] ++ msbBits e.addrBits a) = { e with
      shiftAccumulator := x
      selectedAddress := BitVec.ofNat 16 a
      pendingReadValue := e.cell a
      outputBit := false
      protocolState := .wait } := by
  obtain ⟨_, hclock, hread, -⟩ := readCommandLoadsTheCell.2
    { e with shiftAccumulator := 1#32, protocolState := .address } a rfl rfl ha
  exact ⟨_, ((Eeprom.clockBits_start he _).trans hclock).trans hread⟩

/-- A whole WRITE from IDLE, with its payload. -/
theorem Eeprom.clockBits_write_of_idle {e : Eeprom} (he : e.protocolState = .idle) {a v : Nat} (ha : a < 2 ^ e.addrBits)
    (hv : v < 2 ^ e.dataBits) :
    ∃ x, e.clockBits ([true, false, true] ++ msbBits e.addrBits a ++ msbBits e.dataBits v)
      = Eeprom.programAndWait
          { e with shiftAccumulator := x, selectedAddress := BitVec.ofNat 16 a, protocolState := .data } a
          (BitVec.ofNat 16 v) := by
  have hcommand := writeCommandAwaitsTheData.2
    { e with shiftAccumulator := 1#32, protocolState := .address } a rfl rfl ha
  obtain ⟨x, hpayload⟩ := Eeprom.clockBits_whole_payload
    (e := { e with shiftAccumulator := 1#32, selectedAddress := BitVec.ofNat 16 a, protocolState := .data }) rfl rfl hv
  have hle : 2 ^ e.addrBits ≤ 2 ^ 11 := Nat.pow_le_pow_right (by decide) e.addrBits_bounds.2
  have hselected : (BitVec.ofNat 16 a).toNat % 2 ^ e.addrBits = a := by
    rw [BitVec.toNat_ofNat, Nat.mod_eq_of_lt (a := a) (by omega), Nat.mod_eq_of_lt ha]
  refine ⟨x, ?_⟩
  rw [Eeprom.clockBits_append]
  refine (congrArg (Eeprom.clockBits · _) ((Eeprom.clockBits_start he _).trans hcommand)).trans (hpayload.trans ?_)
  exact congrArg (Eeprom.programAndWait _ · _) hselected

/-- The programming command has begun a busy cycle, which a new beginning would not change. -/
theorem Eeprom.beginBusy_programAndWait (e : Eeprom) (a : Nat) (v : BitVec 16) :
    (e.programAndWait a v).beginBusy = e.programAndWait a v := rfl

/-- CS low and high again, with the clock low: the protocol is at its start, with CS high. -/
theorem Eeprom.notify_new_window (e : Eeprom) : (e.notify 0x0000#16).notify 0x0080#16 =
    { e with protocolState := .idle, shiftAccumulator := 0#32, lastCs := true, lastClk := false } := by
  have hlow : e.notify 0x0000#16 = { e.csStep false with lastClk := false } := Eeprom.notify_eq e 0x0000#16
  have hhigh : ∀ f : Eeprom, f.lastClk = false → f.notify 0x0080#16 = { f.csStep true with lastClk := false } :=
    fun f hf => (Eeprom.notify_eq f 0x0080#16).trans (by rw [hf]; rfl)
  rw [hlow, hhigh _ rfl, Eeprom.csStep_eq e]
  rfl

/-- A cell after a WRITE: the value on a device whose writes are enabled, the old cell on a protected one. -/
theorem Eeprom.cell_after_write {e : Eeprom} (hwf : e.storage.wf = true) {v : Nat} (hv : v < 2 ^ e.dataBits) (a : Nat) :
    (e.programAndWait a (BitVec.ofNat 16 v)).cell a = if e.writeProtected then e.cell a else BitVec.ofNat 16 v := by
  by_cases hw : e.writeProtected = true
  · rw [if_pos hw, Eeprom.programAndWait, Eeprom.program_of_protected hw]
    rfl
  · rw [if_neg hw, Eeprom.cell_programAndWait hwf (Bool.eq_false_iff.2 hw), if_pos rfl, ofNat_and_valueMask e hv]

theorem Eeprom.addrBits_programAndWait (e : Eeprom) (a : Nat) (v : BitVec 16) :
    (e.programAndWait a v).addrBits = e.addrBits := by
  rw [Eeprom.programAndWait_eq]
  rfl

theorem Eeprom.dataBits_programAndWait (e : Eeprom) (a : Nat) (v : BitVec 16) :
    (e.programAndWait a v).dataBits = e.dataBits := by
  rw [Eeprom.programAndWait_eq]
  rfl

/-- From the start of a busy cycle, 100 ticks, a new CS window and a READ: the output and the bits that follow. -/
theorem Eeprom.read_after_busy {f : Eeprom} (hbusy : f.beginBusy = f) {a : Nat} (ha : a < 2 ^ f.addrBits) :
    ∃ g, g = (((f.ticks 100).notify 0x0000#16).notify 0x0080#16).clockBits ([true, true, false] ++ msbBits f.addrBits a)
      ∧ (f.ticks 99).outputBit = false ∧ (f.ticks 100).outputBit = true ∧ g.outputBit = false
      ∧ ∀ (bs : List Bool) (k : Nat), bs.length = k + 1 → k < f.dataBits →
          (g.clockBits bs).outputBit = (f.cell a).getLsbD (f.dataBits - 1 - k) := by
  have h99 := f.ticks_beginBusy_of_lt (n := 99) (by decide)
  have h100 := f.ticks_beginBusy_of_le (n := 100) le_rfl
  rw [hbusy] at h99 h100
  have hlow : f.outputBit = false := by rw [← hbusy]; rfl
  rw [h99, h100, Eeprom.notify_new_window]
  obtain ⟨x, hread⟩ := Eeprom.clockBits_read_of_idle (e := { f with
    busyCounter := 100
    outputBit := true
    inProgrammingCycle := false
    protocolState := .idle
    shiftAccumulator := 0#32
    lastCs := true
    lastClk := false }) rfl ha
  refine ⟨_, hread.symm, hlow, rfl, rfl, fun bs k hlen hk => ?_⟩
  refine (Eeprom.outputBit_clockBits_wait rfl rfl hlen).trans ?_
  show (decide (k < f.dataBits) && (f.cell a).getLsbD (f.dataBits - 1 - k)) = _
  rw [decide_eq_true hk, Bool.true_and]

/-- Settles O49: the WRITE programs the cell or leaves it, and begins a busy cycle, after which the READ takes the cell and
the bits of WAIT give it out. -/
theorem writtenCellIsReadBackOnlyIfEnabled : Obligations.WrittenCellIsReadBackOnlyIfEnabled := by
  intro e a v hwf he ha hv
  obtain ⟨x, hwrite⟩ := Eeprom.clockBits_write_of_idle he ha hv
  obtain ⟨w, hw⟩ : ∃ w : Eeprom,
      w = { e with shiftAccumulator := x, selectedAddress := BitVec.ofNat 16 a, protocolState := .data } := ⟨_, rfl⟩
  rw [← hw] at hwrite
  have haddr : (w.programAndWait a (BitVec.ofNat 16 v)).addrBits = e.addrBits := by
    rw [Eeprom.addrBits_programAndWait, hw]
    rfl
  have hdata : (w.programAndWait a (BitVec.ofNat 16 v)).dataBits = e.dataBits := by
    rw [Eeprom.dataBits_programAndWait, hw]
    rfl
  have hcell : (w.programAndWait a (BitVec.ofNat 16 v)).cell a
      = if e.writeProtected then e.cell a else BitVec.ofNat 16 v := by
    have h := Eeprom.cell_after_write (e := w) (by rw [hw]; exact hwf) (by rw [hw]; exact hv) a
    rw [h, hw]
    rfl
  have hdirty : (w.programAndWait a (BitVec.ofNat 16 v)).isDirty = (e.isDirty || !e.writeProtected) := by
    rw [Eeprom.programAndWait_eq, hw]
  obtain ⟨g, hg, h99, h100, hlow, hbits⟩ := Eeprom.read_after_busy (w.beginBusy_programAndWait a (BitVec.ofNat 16 v))
    (a := a) (by rw [haddr]; exact ha)
  rw [haddr] at hg
  rw [hdata, hcell] at hbits
  refine ⟨_, _, g, hwrite.symm, rfl, hg, h99, h100, hlow, hdirty, fun bs k hlen hk => ?_⟩
  have hb := e.dataBits_bounds
  rw [hbits bs k hlen hk]
  split
  · rfl
  · rw [BitVec.getLsbD_ofNat, decide_eq_true (by omega), Bool.true_and]

end Sys2Proof.Machine
end

section
/-! PROOFS. The counter and the EEPROM's lines (41_eeprom.md R205, 70_reset_and_hazards.md R320 to R325): what one advance
of the counter does to bits 7 and 1, and so to a fitted EEPROM, also after a soft reset. -/

namespace Sys2Proof.Machine

/-! ### The access -/

/-- The EEPROM after a READ or a WRITE: the notification with the new counter, with strobe low. -/
theorem access_eeprom {i : Instr} {s t : State} {e : Eeprom} (hi : (∃ b, i = .read b) ∨ ∃ b v, i = .write b v)
    (hstrobe : s.regs.strobeLevel = false) (he : s.eeprom = some e) (h : exec i s = .next t) :
    t.regs.pageOffset = s.regs.pageOffset + 1#11 ∧ t.eeprom = some (e.notify (t.regs.pageOffset.zeroExtend 16)) := by
  obtain ⟨hregs, -, heeprom, -, -⟩ := exec_next h
  have hr : t.regs = s.advance.regs := by rcases hi with ⟨b, rfl⟩ | ⟨b, v, rfl⟩ <;> exact hregs
  have hm : t.eeprom = s.advance.eeprom := by
    rw [State.advance_eeprom_eq_map]
    rcases hi with ⟨b, rfl⟩ | ⟨b, v, rfl⟩ <;> exact heeprom
  have hpo : t.regs.pageOffset = s.regs.pageOffset + 1#11 := by
    rw [hr, State.advance_regs, hstrobe]
    rfl
  refine ⟨hpo, ?_⟩
  rw [hm, hpo, State.advance_eeprom, hstrobe, he]
  rfl

/-! ### The lines of a counter -/

theorem getLsbD_eq_true_iff {w : Nat} (c : BitVec w) (k : Nat) : c.getLsbD k = true ↔ c.toNat / 2 ^ k % 2 = 1 := by
  rw [← BitVec.testBit_toNat, Nat.testBit_eq_decide_div_mod_eq, decide_eq_true_iff]

theorem getLsbD_zeroExtend_pageOffset (c : BitVec 11) {k : Nat} (hk : k < 16) :
    (c.zeroExtend 16).getLsbD k = c.getLsbD k := by
  simp [hk]

/-- CS changes when the counter reaches a multiple of 0x80, and CLK is low there. -/
theorem counter_lines_of_multiple {c : BitVec 11} (h : (c + 1#11).toNat % 128 = 0) :
    (c + 1#11).getLsbD 7 ≠ c.getLsbD 7 ∧ (c + 1#11).getLsbD 1 = false := by
  have hc := c.isLt
  rw [pageOffset_succ_toNat] at h
  rw [ne_eq, Bool.eq_iff_iff, ← Bool.not_eq_true]
  simp only [getLsbD_eq_true_iff, pageOffset_succ_toNat]
  omega

/-- Everywhere else CS stays, and a clock rises in a CS window exactly at `0x?82 + 4k`. -/
theorem counter_lines_of_not_multiple {c : BitVec 11} (h : (c + 1#11).toNat % 128 ≠ 0) :
    (c + 1#11).getLsbD 7 = c.getLsbD 7
    ∧ (((c + 1#11).getLsbD 7 = true ∧ (c + 1#11).getLsbD 1 = true ∧ c.getLsbD 1 = false) ↔
        128 ≤ (c + 1#11).toNat % 256 ∧ (c + 1#11).toNat % 4 = 2) := by
  have hc := c.isLt
  rw [pageOffset_succ_toNat] at h
  rw [Bool.eq_iff_iff, ← Bool.not_eq_true]
  simp only [getLsbD_eq_true_iff, pageOffset_succ_toNat]
  omega

/-- Settles O44: the notification with the new counter, whose lines differ from the last ones as those of `c + 1` from
those of `c`. -/
theorem accessClocksTheEepromByTheCounter : Obligations.AccessClocksTheEepromByTheCounter := by
  intro i s t e hi hstrobe he hcs hclk h
  obtain ⟨hpo, heeprom⟩ := access_eeprom hi hstrobe he h
  rw [heeprom, notificationAppliesCsStepThenClockStep, getLsbD_zeroExtend_pageOffset _ (by decide),
    getLsbD_zeroExtend_pageOffset _ (by decide), hpo, hcs, hclk]
  refine congrArg some ?_
  by_cases hmul : (s.regs.pageOffset + 1#11).toNat % 128 = 0
  · obtain ⟨hedge, hlow⟩ := counter_lines_of_multiple hmul
    have hnorise : ¬((s.regs.pageOffset + 1#11).getLsbD 7 = true ∧ (s.regs.pageOffset + 1#11).getLsbD 1 = true
        ∧ s.regs.pageOffset.getLsbD 1 = false) := fun ⟨_, h1, _⟩ => by rw [hlow] at h1; cases h1
    rw [if_pos hmul, if_neg hnorise, if_neg hedge, hlow]
  · obtain ⟨hsame, hrise⟩ := counter_lines_of_not_multiple hmul
    rw [if_neg hmul, if_pos hsame]
    by_cases hclock : 128 ≤ (s.regs.pageOffset + 1#11).toNat % 256 ∧ (s.regs.pageOffset + 1#11).toNat % 4 = 2
    · obtain ⟨-, hhigh, -⟩ := hrise.2 hclock
      rw [if_pos (hrise.2 hclock), if_pos hclock, hhigh]
    · rw [if_neg (mt hrise.1 hclock), if_neg hclock]

/-! ### The soft reset -/

/-- The access with counter 0 notifies with 1, whose lines are low: a CS that was high falls. -/
theorem access_from_zero {i : Instr} {s t : State} {e : Eeprom} (hi : (∃ b, i = .read b) ∨ ∃ b v, i = .write b v)
    (hstrobe : s.regs.strobeLevel = false) (hzero : s.regs.pageOffset = 0#11) (he : s.eeprom = some e)
    (hcs : e.lastCs = true) (h : exec i s = .next t) :
    t.eeprom = some { e with protocolState := .idle, shiftAccumulator := 0#32, lastCs := false, lastClk := false } := by
  obtain ⟨hpo, heeprom⟩ := access_eeprom hi hstrobe he h
  have hone : t.regs.pageOffset.zeroExtend 16 = 1#16 := by
    rw [hpo, hzero]
    rfl
  rw [heeprom, hone, notificationAppliesCsStepThenClockStep, hcs]
  rfl

/-- Settles O56: the reset writes the four registers, and the next access finds counter 0. -/
theorem softResetClearsOnlyTheAddressRegisters : Obligations.SoftResetClearsOnlyTheAddressRegisters :=
  fun s => ⟨_, rfl, rfl, fun _ _ _ he hcs hi h => access_from_zero (s := { s with
    regs := { shiftValue := 0#8, pageOffset := 0#11, strobeLevel := false, bitLevel := false }
    result := .nothing }) hi rfl rfl he hcs h⟩

end Sys2Proof.Machine
end

section
/-! PROOFS. What the operations keep, each from what one operation does to each part of the block (`exec_next`): the
device, write protection and the cells under it, and the three invariants. -/

namespace Sys2Proof.Machine

/-! ### The device -/

/-- No change of a fitted EEPROM changes its type or mode. -/
theorem eepromMove_device (s : State) (i : Instr) (e : Eeprom) :
    (eepromMove s i e).device = e.device ∧ (eepromMove s i e).eightBit = e.eightBit := by
  refine eepromMove_cases (P := fun f => f.device = e.device ∧ f.eightBit = e.eightBit) ⟨rfl, rfl⟩
    (fun c => ⟨(e.notify_keeps c).1, (e.notify_keeps c).2.1⟩) (fun _ _ => ⟨rfl, rfl⟩) ?_ ⟨rfl, rfl⟩
    (fun _ => ⟨rfl, rfl⟩) fun _ => ⟨rfl, rfl⟩
  obtain ⟨n, o, p, htick⟩ := e.tick_keeps
  rw [htick]
  exact ⟨rfl, rfl⟩

/-- Settles O48: every other operation moves the fitted EEPROM by a change that keeps both. -/
theorem onlyConfigureEepromChangesTheDevice : Obligations.OnlyConfigureEepromChangesTheDevice := by
  intro i s t hi h
  rw [(exec_next h).eeprom, eepromAfter_eq hi, Option.map_map]
  refine congrArg (Option.map · s.eeprom) (funext fun e => ?_)
  obtain ⟨hdevice, hmode⟩ := eepromMove_device s i e
  exact Prod.ext hdevice hmode

/-! ### Write protection -/

/-- An extended command is the only command that changes the write protection, and it returns to IDLE. -/
theorem Eeprom.runOpcode_writeProtected {e : Eeprom} {op a : Nat} (hop : op < 4)
    (h : (e.runOpcode op a).writeProtected ≠ e.writeProtected) :
    op = 0 ∧ (e.runOpcode op a).protocolState = .idle ∧ (e.runOpcode op a).shiftAccumulator = e.shiftAccumulator := by
  interval_cases op
  · have hext : e.runOpcode 0 a = Eeprom.extendedCmd { e with selectedAddress := BitVec.ofNat 16 a } a := rfl
    rw [hext, Eeprom.extendedCmd_of_sub rfl]
    exact ⟨rfl, rfl, rfl⟩
  · exact absurd rfl h
  · exact absurd rfl h
  · rw [Eeprom.runOpcode_erase] at h
    exact absurd (Eeprom.program_writeProtected _ _ _) h

/-- The clock edge that completes an extended command is the only one that changes the write protection. -/
theorem Eeprom.clockEdge_writeProtected {e : Eeprom} {di : Bool}
    (h : (e.clockEdge di).writeProtected ≠ e.writeProtected) :
    e.protocolState = .address ∧ (e.clockEdge di).protocolState = .idle
      ∧ (e.clockEdge di).shiftAccumulator.toNat / 2 ^ e.addrBits % 4 = 0 := by
  obtain ⟨p, hp⟩ : ∃ p, e.protocolState = p := ⟨_, rfl⟩
  cases p with
  | idle =>
    rw [Eeprom.clockEdge_of_idle hp, Eeprom.startBit] at h
    split at h <;> exact absurd rfl h
  | address =>
    by_cases hdone : (e.shift di).shiftAccumulator &&& e.doneMask = 0#32
    · have hedge : e.clockEdge di = e.shift di := (Eeprom.clockEdge_of_address hp di).trans (if_pos hdone)
      rw [hedge] at h
      exact absurd rfl h
    · rw [Eeprom.clockEdge_runs_opcode hp hdone rfl] at h ⊢
      obtain ⟨hop, hstate, hacc⟩ := Eeprom.runOpcode_writeProtected (e := e.shift di) (Nat.mod_lt _ (by decide)) h
      exact ⟨hp, hstate, by rw [hacc]; exact hop⟩
  | data =>
    rw [Eeprom.clockEdge_of_data hp, Eeprom.dataStep] at h
    split at h
    · exact absurd rfl h
    · exact absurd (Eeprom.program_writeProtected _ _ _) h
  | wait =>
    rw [Eeprom.clockEdge_of_wait hp, Eeprom.waitStep] at h
    split at h <;> exact absurd rfl h

theorem Eeprom.notify_writeProtected {e : Eeprom} {c : BitVec 16} (h : (e.notify c).writeProtected ≠ e.writeProtected) :
    counterCs c = true ∧ e.protocolState = .address ∧ (e.notify c).protocolState = .idle
      ∧ (e.notify c).shiftAccumulator.toNat / 2 ^ e.addrBits % 4 = 0 := by
  rw [Eeprom.notify_eq, Eeprom.csStep_eq] at h ⊢
  split at h
  · next hrise =>
    rw [if_pos hrise]
    obtain ⟨hstate, hidle, hop⟩ := Eeprom.clockEdge_writeProtected h
    refine ⟨((risingEdge_iff _ _ _).1 hrise).1, ?_, hidle, hop⟩
    by_contra hne
    dsimp only at hstate
    split at hstate
    · exact hne hstate
    · cases hstate
  · exact absurd rfl h

/-- A protected device keeps its cells and its dirty flag in a notification. -/
theorem Eeprom.notify_of_protected {e : Eeprom} (h : e.writeProtected = true) (c : BitVec 16) :
    (e.notify c).storage = e.storage ∧ (e.notify c).isDirty = e.isDirty := by
  rcases e.notify_storage c with hkeeps | ⟨k, x, -, hw, -⟩
  · exact hkeeps
  · rw [h] at hw
    cases hw

/-- Which operations can change the write protection of a fitted EEPROM, and by which command (10_state.md R63). -/
theorem eepromMove_writeProtected {s : State} {i : Instr} {e : Eeprom} (hi : i ≠ .loadState) (hi' : i ≠ .loadEeprom)
    (hne : (eepromMove s i e).writeProtected ≠ e.writeProtected) :
    ((∃ b, i = .read b) ∨ (∃ b v, i = .write b v) ∨ ∃ c, i = .notifyCounter c)
      ∧ e.protocolState = .address ∧ (eepromMove s i e).protocolState = .idle
      ∧ (eepromMove s i e).shiftAccumulator.toNat / 2 ^ e.addrBits % 4 = 0 := by
  have haccess : (∃ b, i = .read b) ∨ (∃ b v, i = .write b v) →
      e.protocolState = .address ∧ (eepromMove s i e).protocolState = .idle
        ∧ (eepromMove s i e).shiftAccumulator.toNat / 2 ^ e.addrBits % 4 = 0 := by
    intro h
    rw [eepromMove_access h] at hne ⊢
    split at hne
    · exact absurd rfl hne
    · next hlow =>
      rw [if_neg hlow]
      exact (Eeprom.notify_writeProtected hne).2
  cases i with
  | read b => exact ⟨.inl ⟨b, rfl⟩, haccess (.inl ⟨b, rfl⟩)⟩
  | write b v => exact ⟨.inr (.inl ⟨b, v, rfl⟩), haccess (.inr ⟨b, v, rfl⟩)⟩
  | notifyCounter c => exact ⟨.inr (.inr ⟨c, rfl⟩), (Eeprom.notify_writeProtected hne).2⟩
  | strobe l =>
    cases l with
    | false => exact absurd rfl hne
    | true => exact absurd (Eeprom.notify_writeProtected (c := 0#16) hne).1 (by decide)
  | tickBusy =>
    obtain ⟨n, o, p, htick⟩ := e.tick_keeps
    exact absurd (congrArg Eeprom.writeProtected htick) hne
  | loadState => exact absurd rfl hi
  | loadEeprom => exact absurd rfl hi'
  | _ => exact absurd rfl hne

/-- A change of a protected EEPROM other than a LOAD keeps its cells and sets no dirty flag. -/
theorem eepromMove_of_protected {s : State} {i : Instr} {e : Eeprom} (hi : i ≠ .loadState) (hi' : i ≠ .loadEeprom)
    (hw : e.writeProtected = true) :
    (eepromMove s i e).storage = e.storage ∧ ((eepromMove s i e).isDirty = true → e.isDirty = true) := by
  refine eepromMove_cases
    (P := fun f => f.storage = e.storage ∧ (f.isDirty = true → e.isDirty = true)) ⟨rfl, id⟩ (fun c => ?_)
    (fun _ _ => ⟨rfl, id⟩) ?_ ⟨rfl, fun hd => by cases hd⟩ (fun h => absurd h hi) fun h => absurd h hi'
  · obtain ⟨hstorage, hdirty⟩ := Eeprom.notify_of_protected hw c
    exact ⟨hstorage, fun hd => hdirty ▸ hd⟩
  · obtain ⟨n, o, p, htick⟩ := e.tick_keeps
    rw [htick]
    exact ⟨rfl, id⟩

/-- Settles O47: one notification, and then every operation by its change of the fitted EEPROM. -/
theorem writeProtectedDeviceKeepsItsCells : Obligations.WriteProtectedDeviceKeepsItsCells := by
  refine ⟨fun e c => ⟨fun h => Eeprom.notify_of_protected h c, fun h => (Eeprom.notify_writeProtected h).2⟩,
    fun i s t e e' hload hload' hconf he h he' => ?_⟩
  obtain rfl : e' = eepromMove s i e := by
    rw [(exec_next h).eeprom, eepromAfter_eq hconf, he] at he'
    exact (Option.some.inj he').symm
  exact ⟨eepromMove_of_protected hload hload', eepromMove_writeProtected hload hload'⟩

/-! ### The state stays well-formed -/

/-- An image that is valid for the device has a cell for each persisted cell and no more. -/
theorem Eeprom.wf_load {e : Eeprom} {bs : List Byte} (h : e.wf = true) (hv : validEepromRecord e.device bs = true) :
    (e.load bs).wf = true := by
  obtain ⟨hcanonical, hbelow⟩ := e.wf_iff.1 h
  have hlen : bs.length = 18 + 2 * deviceCells e.device := ((validEepromRecord_iff _ _).1 hv).1
  have hcells : (cellsOfBytes (bs.drop 18)).length ≤ deviceCells e.device := by
    rw [length_cellsOfBytes, List.length_drop, hlen]
    omega
  exact (Eeprom.wf_iff _).2 ⟨Memory.wf_restore _ hcanonical, Memory.below_restore hcells hbelow⟩

/-- An admitted configuration of B1 as RAM is not empty (10_state.md R45). -/
theorem admissible_ne_empty {k : SlotId} {ps : BitVec 16} {ram shadow we : Bool} {n : Nat} {g : Geometry}
    (h : admissible k ps ram shadow we n = some g) (hram : (shadow || ram) = true) : g ≠ .empty := by
  obtain ⟨-, -, -, hps, -⟩ := admissible_some h
  cases hs : shadow with
  | true =>
    obtain ⟨-, -, rfl⟩ := admissible_shadow h hs
    nofun
  | false =>
    have hne : ps ≠ 0#16 := hps (by simpa [hs] using hram)
    rcases Geometry.ofPageSize_some (admissible_not_shadow h hs) with ⟨h0, -⟩ | ⟨j, -, rfl⟩
    · exact absurd h0 hne
    · nofun

theorem Banks.wf_configure {b : Banks} (h : b.wf = true) {k : SlotId} {ps : BitVec 16} {g : Geometry}
    {ram shadow we : Bool} {data : List Byte} (hadm : admissible k ps ram shadow we data.length = some g) :
    (b.configure k g ram shadow we data).wf = true := by
  obtain ⟨hslots, hram, hshadow, hdirty⟩ := Banks.wf_iff.1 h
  obtain ⟨h1, h2, h3, h4⟩ := b.configure_attributes k g ram shadow we data
  have hslot := fun j => b.configure_slot k j g ram shadow we data
  have hb1 : (b.configure k g ram shadow we data).b1.geometry = if .b1 = k then g else b.b1.geometry :=
    (congrArg Slot.geometry (hslot .b1)).trans (apply_ite Slot.geometry _ _ _)
  refine Banks.wf_iff.2 ⟨fun j => ?_, ?_⟩
  · rw [hslot]
    split
    · exact Slot.wf_configuredSlot g data
    · exact hslots j
  · rw [h1, h2, h3, h4, hb1]
    by_cases hk : k = .b1
    · subst hk
      simp only [if_true]
      refine ⟨admissible_ne_empty hadm, fun hs => ?_, fun hd => by cases hd⟩
      obtain ⟨-, -, hg⟩ := admissible_shadow hadm hs
      exact ⟨by rw [hs]; rfl, hg⟩
    · simp only [if_neg hk, if_neg (Ne.symm hk)]
      exact ⟨hram, hshadow, hdirty⟩

theorem Banks.wf_offer {s : State} (h : s.banks.wf = true) (k : SlotId) (v : Byte) : (s.offer k v).banks.wf = true := by
  rw [State.offer_eq]
  show (if s.banks.stores k then s.banks.storeB1 (s.addressFor .b1) v else s.banks).wf = true
  split
  · next hstores =>
    obtain ⟨rfl, -, -, hpos⟩ := Banks.stores_iff.1 hstores
    exact Banks.wf_storeB1 h hstores (State.addressFor_lt (k := .b1) hpos) v
  · exact h

theorem exec_keeps_banks_wf {i : Instr} {s t : State} (hs : s.banks.wf = true) (h : exec i s = .next t) :
    t.banks.wf = true := by
  cases i with
  | configureBank cb ps ram shadow we =>
    obtain ⟨g, hadm, rfl⟩ := configureBank_next h
    exact Banks.wf_configure hs hadm
  | write b v =>
    rw [(exec_next h).banks]
    exact Banks.wf_offer hs b v
  | clearDirtyBank1 =>
    rw [(exec_next h).banks]
    obtain ⟨hslots, hram, hshadow, -⟩ := Banks.wf_iff.1 hs
    have hslot : ∀ k, (banksAfter s .clearDirtyBank1).slot k = s.banks.slot k := fun k => by cases k <;> rfl
    exact Banks.wf_iff.2 ⟨fun k => by rw [hslot]; exact hslots k, hram, hshadow, fun hd => by cases hd⟩
  | _ =>
    rw [(exec_next h).banks]
    exact hs

theorem exec_keeps_eeprom_wf {i : Instr} {s t : State} (hs : ∀ e, s.eeprom = some e → e.wf = true)
    (h : exec i s = .next t) : ∀ e, t.eeprom = some e → e.wf = true := by
  intro e' he'
  by_cases hconf : ∃ d e8, i = .configureEeprom d e8
  · obtain ⟨d, e8, rfl⟩ := hconf
    rw [(exec_next h).eeprom] at he'
    obtain ⟨d', -, rfl⟩ := Option.map_eq_some_iff.1 he'
    exact Eeprom.wf_fresh d' e8
  · rw [(exec_next h).eeprom, eepromAfter_eq fun d e8 hi => hconf ⟨d, e8, hi⟩] at he'
    obtain ⟨e, he, rfl⟩ := Option.map_eq_some_iff.1 he'
    have hwf := hs e he
    refine eepromMove_cases (P := fun f => f.wf = true) hwf (fun c => Eeprom.wf_notify c hwf) (fun _ _ => hwf)
      (Eeprom.wf_tick hwf) hwf ?_ ?_
    · rintro rfl
      obtain ⟨-, -, himage⟩ := State.validRecord_iff.1 (loadState_next h).1
      exact Eeprom.wf_load hwf (State.validImage_of_some he _ ▸ himage)
    · rintro rfl
      obtain ⟨hvalid, -⟩ := loadEeprom_next h
      exact Eeprom.wf_load hwf (State.validImage_of_some he _ ▸ hvalid)

/-- Settles O58: the step ran one operation, which keeps the banks and the EEPROM well-formed. -/
theorem stepKeepsTheStateWellFormed : Obligations.StepKeepsTheStateWellFormed := by
  intro s t hs h
  obtain ⟨c, rest, i, u, -, -, -, hexec, rfl⟩ := step_next h
  obtain ⟨hbanks, heeprom⟩ := (State.wf_iff s).1 hs
  rw [State.wf_advancePosition]
  exact (State.wf_iff u).2 ⟨exec_keeps_banks_wf hbanks hexec, exec_keeps_eeprom_wf heeprom hexec⟩

/-! ### Strobe high keeps the counter 0 and the lines low -/

/-- An operation that keeps the counter and the strobe keeps the state coherent, if the EEPROM's lines stay or are low. -/
theorem strobeCoherent_of_kept {s t : State} (hs : s.strobeCoherent = true)
    (hstrobe : t.regs.strobeLevel = s.regs.strobeLevel) (hcounter : t.regs.pageOffset = s.regs.pageOffset)
    (hlines : ∀ e', t.eeprom = some e' → (e'.lastCs = false ∧ e'.lastClk = false)
      ∨ ∃ e, s.eeprom = some e ∧ e'.lastCs = e.lastCs ∧ e'.lastClk = e.lastClk) : t.strobeCoherent = true := by
  refine (State.strobeCoherent_iff t).2 fun hhigh => ?_
  obtain ⟨hzero, hlow⟩ := (State.strobeCoherent_iff s).1 hs (hstrobe ▸ hhigh)
  refine ⟨hcounter.trans hzero, fun e' he' => ?_⟩
  rcases hlines e' he' with h | ⟨e, he, hcs, hclk⟩
  · exact h
  · rw [hcs, hclk]
    exact hlow e he

theorem strobeCoherent_of_strobe_low {t : State} (h : t.regs.strobeLevel = false) : t.strobeCoherent = true :=
  (State.strobeCoherent_iff t).2 fun hhigh => by rw [h] at hhigh; cases hhigh

/-- A READ or a WRITE changes nothing of the relation with strobe high, and leaves strobe low. -/
theorem strobeCoherent_access {s t : State} (hs : s.strobeCoherent = true) (hregs : t.regs = s.advance.regs)
    (heeprom : t.eeprom = s.advance.eeprom) : t.strobeCoherent = true := by
  rw [State.advance_regs] at hregs
  rw [State.advance_eeprom] at heeprom
  cases hhigh : s.regs.strobeLevel with
  | false =>
    rw [hhigh] at hregs
    exact strobeCoherent_of_strobe_low ((congrArg AddressRegs.strobeLevel hregs).trans hhigh)
  | true =>
    rw [hhigh, if_pos rfl] at hregs heeprom
    exact strobeCoherent_of_kept hs (by rw [hregs]) (by rw [hregs])
      fun e' he' => .inr ⟨e', heeprom ▸ he', rfl, rfl⟩

/-- STROBE 1 sets the counter to 0 and notifies with it. -/
theorem strobeCoherent_strobe {s t : State} {l : Bool} (h : exec (.strobe l) s = .next t) : t.strobeCoherent = true := by
  rw [strobeResetsThenShiftsThenStoresTheLevel s l] at h
  cases h
  cases l with
  | false => exact strobeCoherent_of_strobe_low rfl
  | true =>
    refine (State.strobeCoherent_iff _).2 fun _ => ⟨rfl, fun e' he' => ?_⟩
    obtain ⟨e, -, rfl⟩ := Option.map_eq_some_iff.1 he'
    obtain ⟨-, -, hcs, hclk, -, -⟩ := e.notify_keeps 0#16
    exact ⟨hcs, hclk⟩

/-- Settles O59: operation by operation. -/
theorem strobeHighKeepsCounterAndLinesLow : Obligations.StrobeHighKeepsCounterAndLinesLow := by
  intro i s t hinside hs h
  obtain ⟨hregs, -, heeprom, -, -⟩ := exec_next h
  cases i with
  | read b => exact strobeCoherent_access hs hregs (heeprom.trans s.advance_eeprom_eq_map.symm)
  | write b v => exact strobeCoherent_access hs hregs (heeprom.trans s.advance_eeprom_eq_map.symm)
  | strobe l => exact strobeCoherent_strobe h
  | softReset => exact strobeCoherent_of_strobe_low (by rw [hregs]; rfl)
  | configureEeprom d e8 =>
    refine strobeCoherent_of_kept hs (by rw [hregs]; rfl) (by rw [hregs]; rfl) fun e' he' => .inl ?_
    rw [heeprom] at he'
    obtain ⟨d', -, rfl⟩ := Option.map_eq_some_iff.1 he'
    exact ⟨rfl, rfl⟩
  | loadState | loadEeprom | notifyCounter => cases hinside
  | tickBusy =>
    refine strobeCoherent_of_kept hs (by rw [hregs]; rfl) (by rw [hregs]; rfl) fun e' he' => .inr ?_
    rw [heeprom] at he'
    obtain ⟨e, he, rfl⟩ := Option.map_eq_some_iff.1 he'
    obtain ⟨n, o, p, htick⟩ := e.tick_keeps
    refine ⟨e, he, ?_⟩
    show e.tick.lastCs = e.lastCs ∧ e.tick.lastClk = e.lastClk
    rw [htick]
    exact ⟨rfl, rfl⟩
  | _ =>
    refine strobeCoherent_of_kept hs (by rw [hregs]; rfl) (by rw [hregs]; rfl) fun e' he' => .inr ?_
    rw [heeprom] at he'
    obtain ⟨e, he, rfl⟩ := Option.map_eq_some_iff.1 he'
    exact ⟨e, he, rfl, rfl⟩

/-! ### A busy cycle keeps the output low -/

theorem Eeprom.busyCoherent_iff (e : Eeprom) : e.busyCoherent = true ↔
    (e.inProgrammingCycle = true → e.outputBit = false ∧ e.busyCounter.val < 100) := by
  unfold Eeprom.busyCoherent
  cases e.inProgrammingCycle <;> simp

theorem State.busyCoherent_iff (s : State) : s.busyCoherent = true ↔ ∀ e, s.eeprom = some e → e.busyCoherent = true := by
  unfold State.busyCoherent
  cases s.eeprom <;> simp

theorem Eeprom.busyCoherent_of_idle {e : Eeprom} (h : e.inProgrammingCycle = false) : e.busyCoherent = true :=
  e.busyCoherent_iff.2 fun hp => by rw [h] at hp; cases hp

/-- The commands clear the output or begin a cycle anew; WAIT shifts a bit out only with no cycle. -/
theorem Eeprom.busyCoherent_clockEdge {e : Eeprom} (h : e.busyCoherent = true) (di : Bool) :
    (e.clockEdge di).busyCoherent = true := by
  have hcount := fun hp => (e.busyCoherent_iff.1 h hp).2
  have hbusy : ∀ f : Eeprom, Eeprom.busyCoherent { f.beginBusy with protocolState := .wait } = true := fun f =>
    (Eeprom.busyCoherent_iff _).2 fun _ => ⟨rfl, show (0 : Fin 101).val < 100 by decide⟩
  refine Eeprom.clockEdge_cases e di (P := fun f => f.busyCoherent = true) (fun _ => ⟨h, h⟩) (fun _ => h)
    (fun _ f a hf _ => ?_) (fun _ a v _ => hbusy _) (fun _ hp o => Eeprom.busyCoherent_of_idle hp)
  subst hf
  exact ⟨(Eeprom.busyCoherent_iff _).2 fun hp => ⟨rfl, hcount hp⟩, h, hbusy _, h, h, h⟩

theorem Eeprom.busyCoherent_notify {e : Eeprom} (h : e.busyCoherent = true) (c : BitVec 16) :
    (e.notify c).busyCoherent = true := by
  rw [Eeprom.notify_eq, Eeprom.csStep_eq]
  split
  · exact Eeprom.busyCoherent_clockEdge
      (e := { e with
        protocolState := if counterCs c = e.lastCs then e.protocolState else .idle
        shiftAccumulator := if counterCs c = e.lastCs then e.shiftAccumulator else 0#32
        lastCs := counterCs c
        lastClk := counterClk c }) h _
  · exact h

theorem Eeprom.busyCoherent_tick {e : Eeprom} (h : e.busyCoherent = true) : e.tick.busyCoherent = true := by
  by_cases hp : e.inProgrammingCycle = true
  · by_cases hn : 99 ≤ e.busyCounter.val
    · rw [Eeprom.tick_of_le hp hn]
      exact Eeprom.busyCoherent_of_idle rfl
    · rw [Eeprom.tick_of_lt hp (Nat.lt_of_not_le hn)]
      refine (Eeprom.busyCoherent_iff _).2 fun _ => ⟨(e.busyCoherent_iff.1 h hp).1, ?_⟩
      rw [Fin.val_ofNat]
      omega
  · rw [Eeprom.tick_of_idle (Bool.eq_false_iff.2 hp)]
    exact h

/-- Settles O60: every change of a fitted EEPROM but a LOAD keeps the relation, and a fresh device runs no cycle. -/
theorem busyCycleKeepsTheOutputLow : Obligations.BusyCycleKeepsTheOutputLow := by
  intro i s t hi hi' hs h
  rw [State.busyCoherent_iff] at hs ⊢
  intro e' he'
  rw [(exec_next h).eeprom] at he'
  by_cases hconf : ∃ d e8, i = .configureEeprom d e8
  · obtain ⟨d, e8, rfl⟩ := hconf
    obtain ⟨d', -, rfl⟩ := Option.map_eq_some_iff.1 he'
    exact Eeprom.busyCoherent_of_idle rfl
  · rw [eepromAfter_eq fun d e8 hi => hconf ⟨d, e8, hi⟩] at he'
    obtain ⟨e, he, rfl⟩ := Option.map_eq_some_iff.1 he'
    have hcoherent := hs e he
    exact eepromMove_cases (P := fun f => f.busyCoherent = true) hcoherent (Eeprom.busyCoherent_notify hcoherent)
      (fun _ _ => hcoherent) (Eeprom.busyCoherent_tick hcoherent) hcoherent (fun h => absurd h hi)
      fun h => absurd h hi'

end Sys2Proof.Machine
end

section
/-! PROOFS. The records (42_persistence_and_control.md R242 to R257): the bytes of a record by the tables of R243 and R244,
validity by R247's conditions, what a load restores, and the round trip of save and load. -/

namespace Sys2Proof.Machine

/-! ### The bytes of a record -/

theorem extractLsb'_eq_ofNat_mod {w : Nat} (v : BitVec w) (k : Nat) :
    v.extractLsb' k 8 = BitVec.ofNat 8 (v.toNat / 2 ^ k % 256) := by
  apply BitVec.eq_of_toNat_eq
  rw [BitVec.extractLsb'_toNat, BitVec.toNat_ofNat, Nat.shiftRight_eq_div_pow]
  exact (Nat.mod_mod _ _).symm

/-- The most significant byte needs no reduction. -/
theorem extractLsb'_eq_ofNat {w : Nat} (v : BitVec w) (k : Nat) :
    v.extractLsb' k 8 = BitVec.ofNat 8 (v.toNat / 2 ^ k) := by
  apply BitVec.eq_of_toNat_eq
  rw [BitVec.extractLsb'_toNat, BitVec.toNat_ofNat, Nat.shiftRight_eq_div_pow]

theorem bytes16_eq_table (v : BitVec 16) :
    bytes16 v = [BitVec.ofNat 8 (v.toNat % 256), BitVec.ofNat 8 (v.toNat / 256)] := by
  rw [bytes16, extractLsb'_eq_ofNat_mod, extractLsb'_eq_ofNat, Nat.pow_zero, Nat.div_one]
  rfl

theorem bytes32_eq_table (v : BitVec 32) :
    bytes32 v = [BitVec.ofNat 8 (v.toNat % 256), BitVec.ofNat 8 (v.toNat / 256 % 256),
      BitVec.ofNat 8 (v.toNat / 65536 % 256), BitVec.ofNat 8 (v.toNat / 16777216)] := by
  rw [bytes32, extractLsb'_eq_ofNat_mod, extractLsb'_eq_ofNat_mod, extractLsb'_eq_ofNat_mod, extractLsb'_eq_ofNat,
    Nat.pow_zero, Nat.div_one]
  rfl

/-- The bank record is R243's table. -/
theorem bankRecord_eq_table (r : AddressRegs) : bankRecord r = bankRecordTable r := by
  have hpo : (r.pageOffset.zeroExtend 16).toNat = r.pageOffset.toNat := by
    rw [BitVec.toNat_setWidth, Nat.mod_eq_of_lt (r.pageOffset.isLt.trans (by decide))]
  rw [bankRecord, bytes16_eq_table, hpo]
  rfl

/-- The header of the EEPROM record is R244's table. -/
theorem eepromHeader_eq_table (e : Eeprom) : eepromHeader e = eepromHeaderTable e := by
  rw [eepromHeader, bytes32_eq_table, bytes16_eq_table, bytes16_eq_table, eepromHeaderTable]
  cases e.protocolState <;> rfl

/-- Cell `a` of the bytes after a record's header, as a number. -/
theorem toNat_of_getElem?_cellsOfBytes {bs : List Byte} {a : Nat} {v : BitVec 16} (hlen : 18 + 2 * a + 1 < bs.length)
    (h : (cellsOfBytes (bs.drop 18))[a]? = some v) :
    (bs.getD (18 + 2 * a) 0#8).toNat + 256 * (bs.getD (19 + 2 * a) 0#8).toNat = v.toNat := by
  rw [getD_cellsOfBytes _ a (by rw [List.length_drop]; omega)] at h
  have hdrop : ∀ i, (bs.drop 18).getD i 0#8 = bs.getD (18 + i) 0#8 := fun i => by
    rw [List.getD_eq_getElem?_getD, List.getElem?_drop, List.getD_eq_getElem?_getD]
  rw [hdrop, hdrop, show 18 + (2 * a + 1) = 19 + 2 * a by omega] at h
  rw [← Option.some.inj h, BitVec.toNat_append, ← Nat.shiftLeft_add_eq_or_of_lt (bs.getD (18 + 2 * a) 0#8).isLt,
    Nat.shiftLeft_eq]
  omega

theorem isEepromRecord_of_cells {e : Eeprom} {bs : List Byte} (hlen : bs.length = 18 + 2 * deviceCells e.device)
    (hheader : bs.take 18 = eepromHeader e)
    (hcells : ∀ a < deviceCells e.device, (cellsOfBytes (bs.drop 18))[a]? = some (e.storage.read a)) :
    IsEepromRecord e bs :=
  ⟨hlen, hheader.trans (eepromHeader_eq_table e), fun a ha =>
    toNat_of_getElem?_cellsOfBytes (by omega) (hcells a ha)⟩

theorem isEepromRecord_eepromRecord (e : Eeprom) : IsEepromRecord e (eepromRecord e) := by
  refine isEepromRecord_of_cells (length_eepromRecord e) ?_ fun a ha => ?_
  · rw [eepromRecord, ← length_eepromHeader e, List.take_left]
  · rw [drop_eepromRecord, cellsOfBytes_storageBytes, List.getElem?_map, List.getElem?_range ha]
    rfl

theorem State.eepromImage_of_some {s : State} {e : Eeprom} (h : s.eeprom = some e) : s.eepromImage = eepromRecord e := by
  rw [State.eepromImage, h]

/-- Settles O50: the records, and the image of the fitted device or of none. -/
theorem savesGiveTheRecordsAndChangeNothing : Obligations.SavesGiveTheRecordsAndChangeNothing := by
  refine fun s => ⟨s.eepromImage, ?_, rfl, fun h => ?_, fun e h => ?_⟩
  · rw [← bankRecord_eq_table]
    rfl
  · rw [State.eepromImage, h]
  · rw [State.eepromImage_of_some h]
    exact isEepromRecord_eepromRecord e

/-! ### Validity -/

theorem State.validImage_of_none {s : State} (h : s.eeprom = none) (bs : List Byte) : s.validImage bs = bs.isEmpty := by
  rw [State.validImage, h]

theorem State.validRecord_of_none {s : State} (h : s.eeprom = none) (bs : List Byte) :
    s.validRecord bs = true ↔ bankRecordOk bs ∧ bs.length = 5 := by
  rw [State.validRecord_iff, State.validImage_of_none h, validBankRecord_iff, List.isEmpty_iff, List.drop_eq_nil_iff]
  exact ⟨fun ⟨h5, hbank, hle⟩ => ⟨hbank, by omega⟩, fun ⟨hbank, hlen⟩ => ⟨by omega, hbank, by omega⟩⟩

theorem State.validRecord_of_some {s : State} {e : Eeprom} (h : s.eeprom = some e) (bs : List Byte) :
    s.validRecord bs = true ↔ bankRecordOk bs ∧ eepromRecordOk e.device (bs.drop 5) := by
  rw [State.validRecord_iff, State.validImage_of_some h, validBankRecord_iff, validEepromRecord_iff]
  refine ⟨And.right, fun hok => ⟨?_, hok⟩⟩
  have hlen := hok.2.1
  rw [List.length_drop] at hlen
  omega

theorem exec_loadState_iff (s : State) :
    ((∃ t, exec .loadState s = .next t) ↔ s.validRecord s.operand = true)
      ∧ (exec .loadState s = .refused .recordInvalid ↔ ¬ s.validRecord s.operand = true) := by
  show ((∃ t, execLoadState s = .next t) ↔ _) ∧ (execLoadState s = _ ↔ _)
  unfold execLoadState
  split
  · next h => simp [h]
  · next h => simp [h]

theorem exec_loadEeprom_iff (s : State) :
    ((∃ t, exec .loadEeprom s = .next t) ↔ s.validImage s.operand = true)
      ∧ (exec .loadEeprom s = .refused .recordInvalid ↔ ¬ s.validImage s.operand = true) := by
  show ((∃ t, execLoadEeprom s = .next t) ↔ _) ∧ (execLoadEeprom s = _ ↔ _)
  unfold execLoadEeprom
  split
  · next h => simp [h]
  · next h => simp [h]

/-- Settles O51: the loads complete exactly for a record the model's check admits, which is R247's list. -/
theorem loadsRefuseExactlyMalformedRecords : Obligations.LoadsRefuseExactlyMalformedRecords := by
  intro s
  obtain ⟨hnext, hrefused⟩ := exec_loadState_iff s
  obtain ⟨hnext', hrefused'⟩ := exec_loadEeprom_iff s
  dsimp only
  rw [hnext, hrefused, hnext', hrefused']
  cases he : s.eeprom with
  | none =>
    rw [State.validRecord_of_none he, State.validImage_of_none he, List.isEmpty_iff]
    exact ⟨⟨Iff.rfl, Iff.rfl⟩, Iff.rfl, Iff.rfl⟩
  | some e =>
    rw [State.validRecord_of_some he, State.validImage_of_some he, validEepromRecord_iff]
    exact ⟨⟨Iff.rfl, Iff.rfl⟩, Iff.rfl, Iff.rfl⟩

/-! ### What a load restores -/

/-- The registers of a valid bank record are those whose record is its first five bytes (R243, R252). -/
theorem bankRecord_regsOfRecord {bs : List Byte} (hok : bankRecordOk bs) (hlen : 5 ≤ bs.length) :
    bankRecord (regsOfRecord bs) = bs.take 5 := by
  obtain ⟨h3, h4, hcounter⟩ := hok
  have hu16 : (u16At bs 1).toNat ≤ 0x7FF := by rw [u16At_toNat]; exact hcounter
  have hpo : ((u16At bs 1).truncate 11).zeroExtend 16 = u16At bs 1 := by
    apply BitVec.eq_of_toNat_eq
    rw [BitVec.toNat_setWidth, BitVec.toNat_setWidth, Nat.mod_eq_of_lt (a := (u16At bs 1).toNat) (by omega),
      Nat.mod_eq_of_lt (by omega)]
  rw [take_eq_map_byteAt hlen]
  show [byteAt bs 0] ++ bytes16 (((u16At bs 1).truncate 11).zeroExtend 16)
    ++ [flagByte (flagAt bs 3), flagByte (flagAt bs 4)] = _
  rw [hpo, bytes16_u16At, flagByte_flagAt (isFlagByte_iff.2 h3), flagByte_flagAt (isFlagByte_iff.2 h4)]
  rfl

/-- The bytes of a u32 put together from four bytes. -/
theorem extractLsb'_four_bytes (x y z u : Byte) :
    (x ++ y ++ z ++ u : BitVec 32).extractLsb' 0 8 = u ∧ (x ++ y ++ z ++ u : BitVec 32).extractLsb' 8 8 = z
      ∧ (x ++ y ++ z ++ u : BitVec 32).extractLsb' 16 8 = y ∧ (x ++ y ++ z ++ u : BitVec 32).extractLsb' 24 8 = x := by
  have hhigh : ∀ {n} (hi : BitVec n) (lo : Byte) (k : Nat), (hi ++ lo).extractLsb' (k + 8) 8 = hi.extractLsb' k 8 :=
    fun hi lo k => by rw [BitVec.extractLsb'_append_eq_of_le (by omega), Nat.add_sub_cancel]
  exact ⟨BitVec.extractLsb'_append_eq_right, (hhigh _ u 0).trans BitVec.extractLsb'_append_eq_right,
    ((hhigh _ u 8).trans (hhigh _ z 0)).trans BitVec.extractLsb'_append_eq_right,
    (((hhigh _ u 16).trans (hhigh _ z 8)).trans (hhigh _ y 0)).trans BitVec.extractLsb'_eq_self⟩

/-- Writing a u32 read from a record gives its bytes back. -/
theorem bytes32_u32At (bs : List Byte) (i : Nat) :
    bytes32 (u32At bs i) = [byteAt bs i, byteAt bs (i + 1), byteAt bs (i + 2), byteAt bs (i + 3)] := by
  obtain ⟨h0, h8, h16, h24⟩ :=
    extractLsb'_four_bytes (byteAt bs (i + 3)) (byteAt bs (i + 2)) (byteAt bs (i + 1)) (byteAt bs i)
  rw [bytes32, u32At, h0, h8, h16, h24]

/-- The header of a loaded EEPROM is that of the valid record (R244). -/
theorem eepromHeader_load (e : Eeprom) {bs : List Byte} (hok : eepromRecordOk e.device bs) :
    eepromHeader (e.load bs) = bs.take 18 := by
  obtain ⟨hlen, hflags, htag, hcount⟩ := hok
  have hflag : ∀ i ∈ [9, 10, 11, 12, 14, 15], flagByte (flagAt bs i) = byteAt bs i := fun i hi =>
    flagByte_flagAt (isFlagByte_iff.2 (hflags i hi))
  have hbusy : BitVec.ofNat 8 (Fin.ofNat 101 (byteAt bs 13).toNat).val = byteAt bs 13 := by
    have hlt : (byteAt bs 13).toNat < 101 := Nat.lt_succ_of_le hcount
    rw [Fin.val_ofNat, Nat.mod_eq_of_lt hlt, BitVec.ofNat_toNat, BitVec.setWidth_eq]
  rw [take_eq_map_byteAt (by omega)]
  show [(ProtocolState.ofTag (byteAt bs 0)).tag] ++ bytes32 (u32At bs 1) ++ bytes16 (u16At bs 5) ++ bytes16 (u16At bs 7)
    ++ [flagByte (flagAt bs 9), flagByte (flagAt bs 10), flagByte (flagAt bs 11), flagByte (flagAt bs 12),
      BitVec.ofNat 8 (Fin.ofNat 101 (byteAt bs 13).toNat).val, flagByte (flagAt bs 14), flagByte (flagAt bs 15),
      byteAt bs 16, byteAt bs 17] = _
  rw [ProtocolState.tag_ofTag (t := byteAt bs 0) htag, bytes32_u32At, bytes16_u16At, bytes16_u16At, hbusy,
    hflag 9 (by decide), hflag 10 (by decide), hflag 11 (by decide), hflag 12 (by decide), hflag 14 (by decide),
    hflag 15 (by decide)]
  rfl

/-- The EEPROM a load of a valid record gives: the record is its own, and the cells from `T` on are kept (R248). -/
theorem Eeprom.load_restores {e : Eeprom} {bs : List Byte} (hok : eepromRecordOk e.device bs) :
    IsEepromRecord (e.load bs) bs ∧ ∀ a, deviceCells e.device ≤ a → (e.load bs).storage.read a = e.storage.read a := by
  have hcount : (cellsOfBytes (bs.drop 18)).length = deviceCells e.device := by
    rw [length_cellsOfBytes, List.length_drop, hok.1]
    omega
  have hread : ∀ a, (e.load bs).storage.read a
      = if h : a < (cellsOfBytes (bs.drop 18)).length then (cellsOfBytes (bs.drop 18))[a] else e.storage.read a :=
    Memory.read_restore _
  refine ⟨isEepromRecord_of_cells hok.1 (eepromHeader_load e hok).symm fun a ha => ?_, fun a ha => ?_⟩
  · have hlt : a < (cellsOfBytes (bs.drop 18)).length := hcount ▸ ha
    rw [hread, dif_pos hlt, List.getElem?_eq_getElem hlt]
  · rw [hread, dif_neg (by omega)]

/-- Settles O53: the load replaces the fitted EEPROM by the one of the record. -/
theorem loadEepromRestoresTheImage : Obligations.LoadEepromRestoresTheImage := by
  refine fun s => ⟨fun hnone hop => ?_, fun e he hok => ?_⟩
  · have hvalid : s.validImage s.operand = true := by rw [State.validImage_of_none hnone, hop]; rfl
    show execLoadEeprom s = _
    rw [execLoadEeprom, if_pos hvalid, State.mapEeprom_of_none hnone]
    rfl
  · have hvalid : s.validImage s.operand = true := by
      rw [State.validImage_of_some he, validEepromRecord_iff]
      exact hok
    refine ⟨e.load s.operand, ?_, rfl, rfl, Eeprom.load_restores hok⟩
    show execLoadEeprom s = _
    rw [execLoadEeprom, if_pos hvalid, State.mapEeprom_of_some he]
    rfl

/-- Settles O52: the load writes the registers of the record and replaces the fitted EEPROM by the one of the rest. -/
theorem loadStateRestoresTheRecord : Obligations.LoadStateRestoresTheRecord := by
  intro s hbank himage
  have hvalid : s.validRecord s.operand = true := by
    cases he : s.eeprom with
    | none =>
      rw [he] at himage
      exact (State.validRecord_of_none he _).2 ⟨hbank, himage⟩
    | some e =>
      rw [he] at himage
      exact (State.validRecord_of_some he _).2 ⟨hbank, himage⟩
  have hlen := (State.validRecord_iff.1 hvalid).1
  refine ⟨_, if_pos hvalid, ?_, rfl, rfl, rfl, rfl, fun hnone => ?_, fun e he => ?_⟩
  · rw [← bankRecord_eq_table]
    exact bankRecord_regsOfRecord hbank hlen
  · exact congrArg (Option.map _) hnone
  · rw [he] at himage
    exact ⟨e.load (s.operand.drop 5), congrArg (Option.map _) he, rfl, rfl, Eeprom.load_restores himage⟩

/-! ### The round trip -/

theorem flagByte_cases (b : Bool) : flagByte b = 0x00#8 ∨ flagByte b = 0x01#8 := isFlagByte_iff.1 (flagByte_isFlagByte b)

theorem ProtocolState.tag_le (p : ProtocolState) : p.tag.toNat ≤ 3 := by
  cases p <;> decide

theorem busyByte_toNat (n : Fin 101) : (BitVec.ofNat 8 n.val).toNat = n.val := by
  rw [BitVec.toNat_ofNat, Nat.mod_eq_of_lt (by omega)]

/-- The record of an EEPROM is valid for its device. -/
theorem eepromRecordOk_eepromRecord (e : Eeprom) : eepromRecordOk e.device (eepromRecord e) := by
  have hbusy : (BitVec.ofNat 8 e.busyCounter.val).toNat ≤ 100 := by
    rw [busyByte_toNat]
    omega
  refine ⟨length_eepromRecord e, ?_, e.protocolState.tag_le, hbusy⟩
  simp only [List.forall_mem_cons, List.not_mem_nil, false_implies, implies_true, and_true]
  exact ⟨flagByte_cases e.outputBit, flagByte_cases e.writeProtected, flagByte_cases e.isDirty,
    flagByte_cases e.inProgrammingCycle, flagByte_cases e.lastCs, flagByte_cases e.lastClk⟩

/-- A loaded record gives back every field of the header. -/
theorem Eeprom.load_eepromRecord_fields {e e' : Eeprom} (hdevice : e'.device = e.device)
    (hmode : e'.eightBit = e.eightBit) :
    e'.load (eepromRecord e) = { e with storage := (e'.load (eepromRecord e)).storage } := by
  have hstate : ProtocolState.ofTag (byteAt (eepromRecord e) 0) = e.protocolState := ProtocolState.ofTag_tag _
  have hacc : u32At (eepromRecord e) 1 = e.shiftAccumulator := append_bytes32 _
  have haddr : u16At (eepromRecord e) 5 = e.selectedAddress := append_bytes16 _
  have hvalue : u16At (eepromRecord e) 7 = e.pendingReadValue := append_bytes16 _
  have hout : flagAt (eepromRecord e) 9 = e.outputBit := flagByte_eq_one _
  have hwp : flagAt (eepromRecord e) 10 = e.writeProtected := flagByte_eq_one _
  have hdirty : flagAt (eepromRecord e) 11 = e.isDirty := flagByte_eq_one _
  have hcycle : flagAt (eepromRecord e) 12 = e.inProgrammingCycle := flagByte_eq_one _
  have hcs : flagAt (eepromRecord e) 14 = e.lastCs := flagByte_eq_one _
  have hclk : flagAt (eepromRecord e) 15 = e.lastClk := flagByte_eq_one _
  have hbusy : Fin.ofNat 101 (byteAt (eepromRecord e) 13).toNat = e.busyCounter := by
    refine Fin.ext ?_
    show (BitVec.ofNat 8 e.busyCounter.val).toNat % 101 = _
    rw [busyByte_toNat, Nat.mod_eq_of_lt e.busyCounter.isLt]
  unfold Eeprom.load
  rw [hdevice, hmode, hstate, hacc, haddr, hvalue, hout, hwp, hdirty, hcycle, hcs, hclk, hbusy]
  rfl

/-- A loaded record of a well-formed EEPROM of the same configuration is that EEPROM: the cells from `T` on are erased in
both (R257). -/
theorem Eeprom.load_eepromRecord {e e' : Eeprom} (hdevice : e'.device = e.device) (hmode : e'.eightBit = e.eightBit)
    (he : e.wf = true) (he' : e'.wf = true) : e'.load (eepromRecord e) = e := by
  obtain ⟨hcanonical, hbelow⟩ := e.wf_iff.1 he
  obtain ⟨hcanonical', hbelow'⟩ := e'.wf_iff.1 he'
  have hstorage : (e'.load (eepromRecord e)).storage = e.storage := by
    refine Memory.ext_of_read (Memory.wf_restore _ hcanonical') hcanonical fun a => ?_
    show (e'.storage.restore (cellsOfBytes ((eepromRecord e).drop 18))).read a = _
    rw [drop_eepromRecord, Memory.read_restore_storageBytes]
    split
    · rfl
    · next ha =>
      rw [Memory.read_of_below hbelow (Nat.le_of_not_lt ha),
        Memory.read_of_below hbelow' (hdevice ▸ Nat.le_of_not_lt ha)]
  rw [Eeprom.load_eepromRecord_fields hdevice hmode, hstorage]

theorem u16At_bankRecord (r : AddressRegs) (bs : List Byte) :
    u16At (bankRecord r ++ bs) 1 = r.pageOffset.zeroExtend 16 := append_bytes16 _

theorem regsOfRecord_bankRecord (r : AddressRegs) (bs : List Byte) : regsOfRecord (bankRecord r ++ bs) = r := by
  have hpo : (u16At (bankRecord r ++ bs) 1).truncate 11 = r.pageOffset := by
    rw [u16At_bankRecord]
    exact BitVec.setWidth_setWidth_of_le _ (by decide)
  have hstrobe : flagAt (bankRecord r ++ bs) 3 = r.strobeLevel := flagByte_eq_one _
  have hbit : flagAt (bankRecord r ++ bs) 4 = r.bitLevel := flagByte_eq_one _
  rw [regsOfRecord, hpo, hstrobe, hbit]
  rfl

theorem bankRecordOk_bankRecord (r : AddressRegs) (bs : List Byte) : bankRecordOk (bankRecord r ++ bs) := by
  refine ⟨flagByte_cases r.strobeLevel, flagByte_cases r.bitLevel, ?_⟩
  have hcounter : (u16At (bankRecord r ++ bs) 1).toNat ≤ 0x7FF := by
    rw [u16At_bankRecord, BitVec.toNat_setWidth]
    exact (Nat.mod_le _ _).trans (Nat.le_of_lt_succ r.pageOffset.isLt)
  rwa [u16At_toNat] at hcounter

/-- The devices of two blocks of one configuration. -/
theorem State.sameConfiguration_eeprom {s s' : State} (h : s.sameConfiguration s') :
    (s.eeprom = none ∧ s'.eeprom = none) ∨ ∃ e e', s.eeprom = some e ∧ s'.eeprom = some e'
      ∧ e'.device = e.device ∧ e'.eightBit = e.eightBit := by
  obtain ⟨-, heeprom⟩ := h
  cases he : s.eeprom with
  | none =>
    rw [he] at heeprom
    exact .inl ⟨rfl, Option.map_eq_none_iff.1 heeprom.symm⟩
  | some e =>
    rw [he] at heeprom
    obtain ⟨e', he', hpair⟩ := Option.map_eq_some_iff.1 heeprom.symm
    obtain ⟨hdevice, hmode⟩ := Prod.ext_iff.1 hpair
    exact .inr ⟨e, e', rfl, he', hdevice, hmode⟩

/-- The image of a block is valid in a block of the same configuration, and loading it gives the block's EEPROM. -/
theorem State.load_image {s s' : State} (hs : s.wf = true) (hs' : s'.wf = true) (h : s.sameConfiguration s') :
    s'.validImage s.eepromImage = true ∧ s'.eeprom.map (·.load s.eepromImage) = s.eeprom := by
  rcases State.sameConfiguration_eeprom h with ⟨he, he'⟩ | ⟨e, e', he, he', hdevice, hmode⟩
  · rw [State.validImage_of_none he', State.eepromImage, he, he']
    exact ⟨rfl, rfl⟩
  · rw [State.validImage_of_some he', State.eepromImage_of_some he, he, he', hdevice, validEepromRecord_iff]
    exact ⟨eepromRecordOk_eepromRecord e, congrArg some
      (Eeprom.load_eepromRecord hdevice hmode (((State.wf_iff s).1 hs).2 e he) (((State.wf_iff s').1 hs').2 e' he'))⟩

/-- Settles O54: the saved records are valid where they are loaded, and give back the registers and the EEPROM. -/
theorem loadOfSaveRestoresTheBlock : Obligations.LoadOfSaveRestoresTheBlock := by
  intro s s' hs hs' hsame
  obtain ⟨hvalid, hload⟩ := State.load_image hs hs' hsame
  refine ⟨fun t bs ht hbs hop => ?_, fun t bs ht hbs hop => ?_⟩
  · cases ht
    obtain rfl : s.record = bs := Result.bytes.inj hbs
    have hrecord : s'.operand = bankRecord s.regs ++ s.eepromImage := hop
    have hdrop : s'.operand.drop 5 = s.eepromImage := by
      rw [hrecord, ← length_bankRecord s.regs, List.drop_left]
    have hok : s'.validRecord s'.operand = true := by
      rw [State.validRecord_iff, hdrop, validBankRecord_iff, hrecord]
      exact ⟨by simp, bankRecordOk_bankRecord _ _, hvalid⟩
    show execLoadState s' = _
    rw [execLoadState, if_pos hok, hdrop, hrecord, regsOfRecord_bankRecord]
    show Host.Outcome.next { s' with
      regs := s.regs
      eeprom := s'.eeprom.map (Eeprom.load · s.eepromImage)
      result := .nothing } = _
    rw [hload, ← hsame.1]
  · cases ht
    obtain rfl : s.eepromImage = bs := Result.bytes.inj hbs
    show execLoadEeprom s' = _
    rw [execLoadEeprom, hop, if_pos hvalid]
    show Host.Outcome.next { s' with eeprom := s'.eeprom.map (Eeprom.load · s.eepromImage), result := .nothing } = _
    rw [hload]

end Sys2Proof.Machine
end
